-- ==== Sys2Proof/Word.lean ====
section
/-! DEFINITION. The widths of the values of huffman_core (R6 of 00_scope.md), as names for bit-vector and index types. -/

namespace Sys2Proof

/-- A command word on the command port: CMD_W = 64 (R6, R64). -/
abbrev Command := BitVec 64

/-- A Symbol: SYM_W = 8 (R6, R13). -/
abbrev Symbol := BitVec 8

/-- A frequency count or a node weight, unsigned: WEIGHT_W = 32 (R6). -/
abbrev Weight := BitVec 32

/-- A node index 0..510: the NODE arena has N_NODES = 511 records (R6, R19). The register is
IDX_W = 9 bits wide and never holds 511 (log entry 10). -/
abbrev NodeIdx := Fin 511

/-- One word of the bit buffer (R6, R42). -/
abbrev BufWord := BitVec 32

/-- A bit string, the bit of the first edge below the root first (R11); `false` is bit 0, the left
edge, and `true` is bit 1, the right edge. -/
abbrev Code := List Bool

end Sys2Proof
end

