-- ==== Sys2Proof/Syntax.lean ====
section
/-! DEFINITION. The command set HCMD version 1: one constructor for each row of the opcode map
(R67 of 30_encoding.md). An operand is the field A (16 bits) or B (32 bits) as the command word
carries it (R64, R66); its static range is `Instr.wellFormed`, and a command whose operand is outside
it is still that command and ends with BAD_OPERAND (R70; log entry 9). -/

namespace Sys2Proof

inductive Instr where
  /-- NOP, OPC 0x00 (R115). -/
  | nop
  /-- RD_CSR csr, OPC 0x01 (R116). -/
  | rdCsr (csr : BitVec 16)
  /-- CLR_ERR, OPC 0x02 (R117). -/
  | clrErr
  /-- SOFT_RESET, OPC 0x03 (R118). -/
  | softReset
  /-- FT_CLEAR, OPC 0x10 (R75). -/
  | ftClear
  /-- FT_SET sym, count, OPC 0x11 (R76). -/
  | ftSet (sym : BitVec 16) (count : BitVec 32)
  /-- FT_GET sym, OPC 0x12 (R77). -/
  | ftGet (sym : BitVec 16)
  /-- BUILD, OPC 0x20 (R78). -/
  | build
  /-- NODE_GET idx, OPC 0x21 (R84). -/
  | nodeGet (idx : BitVec 16)
  /-- GEN_CODES, OPC 0x30 (R89). -/
  | genCodes
  /-- CODE_LEN sym, OPC 0x31 (R94). -/
  | codeLen (sym : BitVec 16)
  /-- CODE_GET sym, win, OPC 0x32 (R95). -/
  | codeGet (sym : BitVec 16) (win : BitVec 32)
  /-- ENC_RESET, OPC 0x40 (R96). -/
  | encReset
  /-- ENC_SYM sym, OPC 0x41 (R98). -/
  | encSym (sym : BitVec 16)
  /-- BB_READ word, OPC 0x50 (R100). -/
  | bbRead (word : BitVec 16)
  /-- BB_WRITE word, data, OPC 0x51 (R101). -/
  | bbWrite (word : BitVec 16) (data : BitVec 32)
  /-- BB_SETLEN len, OPC 0x52 (R102). -/
  | bbSetLen (len : BitVec 32)
  /-- DEC_RESET, OPC 0x60 (R104). -/
  | decReset
  /-- DEC_SYM, OPC 0x61 (R105). -/
  | decSym
  /-- METRICS src, width, OPC 0x70 (R111). -/
  | metrics (src : BitVec 16) (width : BitVec 32)
  deriving DecidableEq, Repr

end Sys2Proof
end

