-- ==== Sys2Proof/Decode.lean ====
section
/-! DEFINITION. Decoding and encoding of command words (R64, R67 to R72 of 30_encoding.md). -/

namespace Sys2Proof

/-- Why a word is no command of HCMD version 1. Each is ILLEGAL_COMMAND on the port (R68, R69). -/
inductive DecodeError where
  /-- OPC is not listed in R67. -/
  | unassignedOpcode
  /-- RSV is not 0. -/
  | reservedNotZero
  /-- A field that R67 marks unused is not 0. -/
  | unusedNotZero
  deriving DecidableEq, Repr

/-- The 20 rows of the opcode map (R67), by mnemonic. -/
inductive Opcode where
  | nop | rdCsr | clrErr | softReset
  | ftClear | ftSet | ftGet
  | build | nodeGet
  | genCodes | codeLen | codeGet
  | encReset | encSym
  | bbRead | bbWrite | bbSetLen
  | decReset | decSym
  | metrics
  deriving DecidableEq, Repr

/-- OPC, bits [63:56] (R64). -/
def opcField (w : Command) : BitVec 8 := w.extractLsb' 56 8

/-- RSV, bits [55:48] (R64). -/
def rsvField (w : Command) : BitVec 8 := w.extractLsb' 48 8

/-- A, bits [47:32] (R64). -/
def aField (w : Command) : BitVec 16 := w.extractLsb' 32 16

/-- B, bits [31:0] (R64). -/
def bField (w : Command) : BitVec 32 := w.extractLsb' 0 32

/-- The opcode values of R67, column OPC. -/
def opcodeOf (opc : BitVec 8) : Option Opcode :=
  match opc.toNat with
  | 0x00 => some .nop
  | 0x01 => some .rdCsr
  | 0x02 => some .clrErr
  | 0x03 => some .softReset
  | 0x10 => some .ftClear
  | 0x11 => some .ftSet
  | 0x12 => some .ftGet
  | 0x20 => some .build
  | 0x21 => some .nodeGet
  | 0x30 => some .genCodes
  | 0x31 => some .codeLen
  | 0x32 => some .codeGet
  | 0x40 => some .encReset
  | 0x41 => some .encSym
  | 0x50 => some .bbRead
  | 0x51 => some .bbWrite
  | 0x52 => some .bbSetLen
  | 0x60 => some .decReset
  | 0x61 => some .decSym
  | 0x70 => some .metrics
  | _ => none

/-- Column A of R67: true where the field holds an operand, false where it must be 0. -/
def usesA : Opcode → Bool
  | .rdCsr | .ftSet | .ftGet | .nodeGet | .codeLen | .codeGet | .encSym | .bbRead | .bbWrite | .metrics => true
  | .nop | .clrErr | .softReset | .ftClear | .build | .genCodes | .encReset | .bbSetLen | .decReset | .decSym => false

/-- Column B of R67: true where the field holds an operand, false where it must be 0. -/
def usesB : Opcode → Bool
  | .ftSet | .codeGet | .bbWrite | .bbSetLen | .metrics => true
  | .nop | .rdCsr | .clrErr | .softReset | .ftClear | .ftGet | .build | .nodeGet | .genCodes | .codeLen
  | .encReset | .encSym | .bbRead | .decReset | .decSym => false

/-- The command of a row with the fields A and B. -/
def instrOf (a : BitVec 16) (b : BitVec 32) : Opcode → Instr
  | .nop => .nop
  | .rdCsr => .rdCsr a
  | .clrErr => .clrErr
  | .softReset => .softReset
  | .ftClear => .ftClear
  | .ftSet => .ftSet a b
  | .ftGet => .ftGet a
  | .build => .build
  | .nodeGet => .nodeGet a
  | .genCodes => .genCodes
  | .codeLen => .codeLen a
  | .codeGet => .codeGet a b
  | .encReset => .encReset
  | .encSym => .encSym a
  | .bbRead => .bbRead a
  | .bbWrite => .bbWrite a b
  | .bbSetLen => .bbSetLen b
  | .decReset => .decReset
  | .decSym => .decSym
  | .metrics => .metrics a b

/-- The decoding procedure of R70, up to its operand ranges: an unassigned OPC, then RSV, then the
unused fields. Total on every 64-bit word. -/
def decode (w : Command) : Except DecodeError Instr :=
  match opcodeOf (opcField w) with
  | none => .error .unassignedOpcode
  | some o =>
    if rsvField w ≠ 0#8 then .error .reservedNotZero
    else if (usesA o = false ∧ aField w ≠ 0#16) ∨ (usesB o = false ∧ bField w ≠ 0#32) then
      .error .unusedNotZero
    else .ok (instrOf (aField w) (bField w) o)

/-- The command that the decoder reads from a row of the opcode table: a command is one 64-bit word
(R71), and bits at and above `nbits` are 0. -/
def decodeTableWord (nbits w : Nat) : Option Instr :=
  match decode (BitVec.ofNat 64 (w % 2 ^ nbits)) with
  | .ok i => some i
  | .error _ => none

/-- OPC of a command (R67). -/
def opcOf : Instr → BitVec 8
  | .nop => 0x00#8
  | .rdCsr _ => 0x01#8
  | .clrErr => 0x02#8
  | .softReset => 0x03#8
  | .ftClear => 0x10#8
  | .ftSet _ _ => 0x11#8
  | .ftGet _ => 0x12#8
  | .build => 0x20#8
  | .nodeGet _ => 0x21#8
  | .genCodes => 0x30#8
  | .codeLen _ => 0x31#8
  | .codeGet _ _ => 0x32#8
  | .encReset => 0x40#8
  | .encSym _ => 0x41#8
  | .bbRead _ => 0x50#8
  | .bbWrite _ _ => 0x51#8
  | .bbSetLen _ => 0x52#8
  | .decReset => 0x60#8
  | .decSym => 0x61#8
  | .metrics _ _ => 0x70#8

/-- Field A of a command, 0 where R67 has a dash. -/
def aOf : Instr → BitVec 16
  | .rdCsr csr => csr
  | .ftSet sym _ => sym
  | .ftGet sym => sym
  | .nodeGet idx => idx
  | .codeLen sym => sym
  | .codeGet sym _ => sym
  | .encSym sym => sym
  | .bbRead word => word
  | .bbWrite word _ => word
  | .metrics src _ => src
  | .nop | .clrErr | .softReset | .ftClear | .build | .genCodes | .encReset | .bbSetLen _ | .decReset | .decSym => 0#16

/-- Field B of a command, 0 where R67 has a dash. -/
def bOf : Instr → BitVec 32
  | .ftSet _ count => count
  | .codeGet _ win => win
  | .bbWrite _ data => data
  | .bbSetLen len => len
  | .metrics _ width => width
  | .nop | .rdCsr _ | .clrErr | .softReset | .ftClear | .ftGet _ | .build | .nodeGet _ | .genCodes | .codeLen _
  | .encReset | .encSym _ | .bbRead _ | .decReset | .decSym => 0#32

/-- The word of a command: OPC, RSV = 0, A, B from bit 63 down (R64, R72). -/
def encode (i : Instr) : Command := opcOf i ++ 0#8 ++ aOf i ++ bOf i

end Sys2Proof
end

