-- ==== Sys2Proof/Config.lean ====
section
/-! DEFINITION. What the implementation fixes (R6 of 00_scope.md) and the one free value of the model. -/

namespace Sys2Proof

/-- CSR HW_ID reads this constant (R35). -/
def Config.hwId : BitVec 64 := 0x0000000048554646#64

/-- HCMD version, as HW_PARAMS reports it (R2, R36). -/
def Config.hcmdVersion : BitVec 8 := 1#8

/-- CODE_MAX, the longest code of a 256-leaf full binary tree (R6). -/
def Config.codeMax : BitVec 8 := 255#8

/-- WEIGHT_W as HW_PARAMS reports it (R6, R36). -/
def Config.weightWidth : BitVec 8 := 32#8

/-- SYM_W as HW_PARAMS reports it (R6, R36). -/
def Config.symWidth : BitVec 8 := 8#8

/-- N_NODES, the capacity of the node arena (R6). -/
def Config.nNodes : Nat := 511

/-- The default of the build parameter BITBUF_WORDS (R6). The parameter itself is the field
`bitbufWords` of State (log entry 1). DESIGN CHOICE, unsafe only for a claim that rests on 1024. -/
def Config.defaultBitbufWords : Nat := 1024

/-- The largest legal BITBUF_WORDS (R6). -/
def Config.maxBitbufWords : Nat := 65536

/-- Free value (log entry 2): what word `w` of BITBUF holds after the `epoch`-th hardware reset, as
long as nothing writes it. The spec leaves it unspecified (R38, R48; I3 of
93_implementation_defined.md), so nothing constrains it. DESIGN CHOICE, safe. -/
opaque Config.bitbufFree (epoch w : Nat) : BufWord

end Sys2Proof
end

