-- ==== Sys2Proof/Machine/State.lean ====
section
/-! DEFINITION. The state of huffman_core as plain data (R17 to R29 of 10_state.md), its value after reset
(R38), and the reasons a step can stop. -/

namespace Sys2Proof.Machine

/-- The status codes of R119 (60_exceptions.md). Codes 13..15 are reserved and never produced (I13). -/
inductive Status where
  | ok | endOfStream | illegalCommand | badOperand | emptyAlphabet | weightOverflow | noTree | noCodes
  | symbolNotInTable | streamOverflow | truncatedStream | invalidCode | ratioUndefined
  deriving DecidableEq, Repr

/-- A record of the NODE arena (R19): the tagged variant the rule quotes. The fields a kind does not
use are 0 by R19, so they are not stored (log entry 10). -/
inductive Node where
  /-- KIND = 0: the leaf's Symbol and its count. -/
  | leaf (sym : Symbol) (weight : Weight)
  /-- KIND = 1: LEFT is the child on edge 0, RIGHT the child on edge 1. -/
  | internal (weight : Weight) (left right : NodeIdx)
  deriving DecidableEq, Repr

/-- A response: status and data (R65). -/
structure Response where
  status : Status
  data : BitVec 64
  deriving DecidableEq, Repr

/-- The command port (R29): its phase, with what the phase holds. -/
inductive Port where
  /-- Ready to accept a command. -/
  | idle
  /-- This word has been accepted and is executing. -/
  | busy (word : Command)
  /-- This response is held until the host takes it. -/
  | respond (r : Response)
  deriving DecidableEq, Repr

/-- The input pins of R60, as one step samples them; `true` is 1. -/
structure Pins where
  rstN : Bool
  cmdValid : Bool
  cmdData : Command
  rspReady : Bool
  deriving DecidableEq, Repr

/-- The contents of BITBUF as (word index, word) pairs: an entry for exactly the words written since
the last hardware reset, indices strictly rising (`Memory.wf` in Machine/Ops.lean). An unlisted word
has no value of its own: reading it gives the free value `Config.bitbufFree` (log entry 2). -/
abbrev Memory := List (Nat × BufWord)

/-- Faults of the model. Every error of the hardware is a status code, not a fault (R133); each fault
here is raised only in states that no run reaches. -/
inductive Fault where
  /-- Raised by GEN_CODES when its descent passes N_NODES levels, so that the arena holds a cycle.
  A tree that BUILD made has none (R85). Safe (log entry 11). -/
  | arenaCycle
  /-- Raised by DEC_SYM when it would read a stream position at or beyond BITBUF_BITS, which does not
  exist (R46, R53). STREAM_LEN ≤ BITBUF_BITS (R24) rules it out. Safe (log entry 12). -/
  | bitOutsideBuffer
  deriving DecidableEq, Repr

/-- Refusals of the model. -/
inductive Refusal where
  /-- Raised by exec for an instruction that has no meaning yet; no arm of exec is one. Safe. -/
  | notModelled (mnemonic : String)
  /-- Raised by step before the first reset: the spec gives no guarantee of that state (R135, I6).
  Safe (log entry 7). -/
  | beforeFirstReset
  /-- Raised by step when the host changes or withdraws a word it offered before the word transferred:
  the spec gives no behaviour (R139, I8). Safe (log entry 6). -/
  | unstableOffer
  deriving DecidableEq, Repr

/-- The state. The fields down to `port` are the block's (R17, R29), `bitbufWords` is its build
parameter (R6), and the last five are the model's own (log entries 2, 5, 6, 7, 8). -/
structure State where
  /-- FREQ (R18). -/
  freq : Vector Weight 256
  /-- NODE (R19). -/
  node : Vector Node 511
  /-- ROOT (R20). -/
  root : NodeIdx
  /-- LEAF_COUNT (R20). -/
  leafCount : BitVec 9
  /-- NODE_COUNT (R20). -/
  nodeCount : BitVec 9
  /-- TOTAL_WEIGHT (R20). -/
  totalWeight : Weight
  /-- TREE_VALID (R21). -/
  treeValid : Bool
  /-- LEN (R22). -/
  len : Vector (BitVec 8) 256
  /-- BITS (R22). -/
  bits : Vector (BitVec 256) 256
  /-- MAX_CODE_LEN (R22). -/
  maxCodeLen : BitVec 8
  /-- CODES_VALID (R23). -/
  codesValid : Bool
  /-- BITBUF (R24). -/
  bitbuf : Memory
  /-- STREAM_LEN (R24). -/
  streamLen : BitVec 32
  /-- ENC_SYMCOUNT (R25). -/
  encSymCount : BitVec 32
  /-- ENC_BITCOUNT (R25). -/
  encBitCount : BitVec 32
  /-- DEC_BITPOS (R26). -/
  decBitPos : BitVec 32
  /-- DEC_SYMCOUNT (R26). -/
  decSymCount : BitVec 32
  /-- M_FIXED (R27). -/
  mFixed : BitVec 64
  /-- M_HUFF (R27). -/
  mHuff : BitVec 64
  /-- M_RATIO (R27). -/
  mRatio : BitVec 64
  /-- RATIO_VALID (R27). -/
  ratioValid : Bool
  /-- LAST_ERR (R28). -/
  lastErr : BitVec 4
  /-- ERR_MASK (R28). -/
  errMask : BitVec 16
  /-- The command port (R29). -/
  port : Port
  /-- BITBUF_WORDS, the build parameter (R6, I17; log entry 1). No step changes it. -/
  bitbufWords : Nat
  /-- How many hardware resets came before; selects the free contents of BITBUF (log entry 2). -/
  bitbufEpoch : Nat
  /-- Whether rst_n has been low at least once (R135; log entry 7). -/
  resetSeen : Bool
  /-- The pin samples of the coming steps, soonest first (R60; log entry 5). -/
  inputs : List Pins
  /-- The word the host has offered and that has not transferred (R139; log entry 6). -/
  offer : Option Command
  /-- The responses the host has taken, oldest first (R62, R144; log entry 8). -/
  delivered : List Response
  deriving DecidableEq, Repr

/-- The reset state of R38 for a block with `words` words of bit buffer, after `epoch` earlier hardware
resets. NODE, LEN and BITS are unspecified there; their values are the model's (log entry 3).
DESIGN CHOICE, unsafe: see log entry 3. -/
def State.resetFor (words epoch : Nat) : State where
  freq := Vector.replicate 256 0#32
  node := Vector.replicate 511 (.leaf 0#8 0#32)
  root := 0
  leafCount := 0#9
  nodeCount := 0#9
  totalWeight := 0#32
  treeValid := false
  len := Vector.replicate 256 0#8
  bits := Vector.replicate 256 0#256
  maxCodeLen := 0#8
  codesValid := false
  bitbuf := []
  streamLen := 0#32
  encSymCount := 0#32
  encBitCount := 0#32
  decBitPos := 0#32
  decSymCount := 0#32
  mFixed := 0#64
  mHuff := 0#64
  mRatio := 0#64
  ratioValid := false
  lastErr := 0#4
  errMask := 0#16
  port := .idle
  bitbufWords := words
  bitbufEpoch := epoch
  resetSeen := true
  inputs := []
  offer := none
  delivered := []

/-- The machine right after reset (R137), with the default BITBUF_WORDS (R6). -/
def State.reset : State := State.resetFor Config.defaultBitbufWords 0

end Sys2Proof.Machine
end

