-- ==== Sys2Proof/Machine/Operands.lean ====
section
/-! DEFINITION. The operand kinds of R66 (30_encoding.md): each reads a field as a value of its kind, and
gives none exactly when the whole field lies outside the kind's static range (BAD_OPERAND by R70). The
kinds count and data admit every value of B and need no definition. -/

namespace Sys2Proof.Machine

/-- The sixteen implemented CSRs, in the order of their numbers (R33). -/
inductive Csr where
  | hwId | hwParams | status | root | leafCount | nodeCount | totalWeight | maxCodeLen | streamLen
  | encSymCount | encBitCount | decBitPos | decSymCount | mFixed | mHuff | mRatio
  deriving DecidableEq, Repr

/-- The two sources of occurrences of METRICS (R113). -/
inductive MetricsSource where
  /-- src = 0: what the encoder counted. -/
  | encoder
  /-- src = 1: what FREQ describes. -/
  | table
  deriving DecidableEq, Repr

/-- Kind sym: 0..255. -/
def symOperand (a : BitVec 16) : Option Symbol :=
  if a.toNat ≤ 255 then some (a.setWidth 8) else none

/-- Kind csr: the CSR map of R33; 0x010..0xFFFF are not implemented. -/
def csrOperand (a : BitVec 16) : Option Csr :=
  match a.toNat with
  | 0x000 => some .hwId
  | 0x001 => some .hwParams
  | 0x002 => some .status
  | 0x003 => some .root
  | 0x004 => some .leafCount
  | 0x005 => some .nodeCount
  | 0x006 => some .totalWeight
  | 0x007 => some .maxCodeLen
  | 0x008 => some .streamLen
  | 0x009 => some .encSymCount
  | 0x00A => some .encBitCount
  | 0x00B => some .decBitPos
  | 0x00C => some .decSymCount
  | 0x00D => some .mFixed
  | 0x00E => some .mHuff
  | 0x00F => some .mRatio
  | _ => none

/-- Kind idx: 0..510. Its dynamic limit NODE_COUNT is NODE_GET's own check (R84). -/
def idxOperand (a : BitVec 16) : Option NodeIdx :=
  if h : a.toNat < 511 then some ⟨a.toNat, h⟩ else none

/-- Kind word: 0..BITBUF_WORDS−1. -/
def wordOperand (words : Nat) (a : BitVec 16) : Option Nat :=
  if a.toNat < words then some a.toNat else none

/-- Kind src: 0..1. -/
def srcOperand (a : BitVec 16) : Option MetricsSource :=
  match a.toNat with
  | 0 => some .encoder
  | 1 => some .table
  | _ => none

/-- Kind len: 0..BITBUF_BITS. -/
def lenOperand (words : Nat) (b : BitVec 32) : Option (BitVec 32) :=
  if b.toNat ≤ 32 * words then some b else none

/-- Kind win: 0..3. -/
def winOperand (b : BitVec 32) : Option Nat :=
  if b.toNat ≤ 3 then some b.toNat else none

/-- Kind width: 0..255. -/
def widthOperand (b : BitVec 32) : Option Nat :=
  if b.toNat ≤ 255 then some b.toNat else none

end Sys2Proof.Machine
end

