-- ==== Sys2Proof/Machine/Flags.lean ====
section
/-! DEFINITION. Status codes, flags and the error bookkeeping: R21, R23, R28, R32, R34 of 10_state.md and
R119, R121 of 60_exceptions.md. -/

namespace Sys2Proof.Machine

/-- The code of a status, column 1 of R119. -/
def statusCode : Status → BitVec 4
  | .ok => 0#4
  | .endOfStream => 1#4
  | .illegalCommand => 2#4
  | .badOperand => 3#4
  | .emptyAlphabet => 4#4
  | .weightOverflow => 5#4
  | .noTree => 6#4
  | .noCodes => 7#4
  | .symbolNotInTable => 8#4
  | .streamOverflow => 9#4
  | .truncatedStream => 10#4
  | .invalidCode => 11#4
  | .ratioUndefined => 12#4

/-- An error status is one ≥ 2 (R28, R119). -/
def isError (e : Status) : Bool := 2 ≤ (statusCode e).toNat

/-- The bit of ERR_MASK for a status code (R28). -/
def errBit (e : Status) : BitVec 16 := 1#16 <<< (statusCode e).toNat

/-- LAST_ERR <- e; ERR_MASK[e] <- 1, the other bits kept (R121). -/
def bookError (e : Status) (s : State) : State :=
  { s with lastErr := statusCode e, errMask := s.errMask ||| errBit e }

/-- FT_CLEAR and FT_SET end the life of the tree and of the codes (R21, R23). -/
def invalidateTreeAndCodes (s : State) : State :=
  { s with treeValid := false, codesValid := false }

/-- One flag as a bit. -/
def flagBit (b : Bool) : BitVec 1 := if b then 1#1 else 0#1

/-- CSR STATUS by the formula of R34: the concatenation of ERR_MASK, 8 zeros, LAST_ERR, a zero,
RATIO_VALID, CODES_VALID and TREE_VALID, zero-extended. -/
def statusCsr (s : State) : BitVec 64 :=
  (s.errMask ++ 0#8 ++ s.lastErr ++ 0#1 ++ flagBit s.ratioValid ++ flagBit s.codesValid
    ++ flagBit s.treeValid).setWidth 64

end Sys2Proof.Machine
end

