-- ==== Sys2Proof/Machine/Ops.lean ====
section
/-! DEFINITION. The operations every meaning is written over: completing a command or ending it with an
error (R10, R121), the storage primitives of 20_memory.md (R45 to R49), the bit packer (R97), the
arrays, and the reset of the block (R38, R118, R134). -/

namespace Sys2Proof.Machine

/-- What one instruction or one step answers. -/
abbrev Result := Host.Outcome State Fault Refusal

/-! ### How a command ends (R10) -/

/-- The port holds this response (R61). -/
def respond (e : Status) (d : BitVec 64) (s : State) : State := { s with port := .respond ⟨e, d⟩ }

/-- `complete(data)` of R10: status OK with this data. -/
def complete (d : BitVec 64) (s : State) : Result := .next (respond .ok d s)

/-- `raise E` of R10 and R121, the one way a command ends with an error: the bookkeeping, and a response
with data 0 (R65). `s` is the state the error leaves: the one before the command, but for
RATIO_UNDEFINED (R112). -/
def raise (e : Status) (s : State) : Result := .next (respond e 0#64 (bookError e s))

/-- `info E` of R10: the status alone, no bookkeeping. -/
def info (e : Status) (s : State) : Result := .next (respond e 0#64 s)

/-! ### BITBUF as a list of written words -/

/-- The word written at `k`, none where no word has been written. -/
def Memory.find : Memory → Nat → Option BufWord
  | [], _ => none
  | (a, v) :: m, k => if a = k then some v else Memory.find m k

/-- Put a word at its place among rising indices. -/
def Memory.insert : Memory → Nat → BufWord → Memory
  | [], k, v => [(k, v)]
  | (a, x) :: m, k, v =>
    if k < a then (k, v) :: (a, x) :: m
    else if k = a then (k, v) :: m
    else (a, x) :: Memory.insert m k v

/-- Indices rise strictly from `lo` and stay below `words`. -/
def Memory.wfFrom (words : Nat) : Nat → Memory → Bool
  | _, [] => true
  | lo, (a, _) :: m => lo ≤ a && a < words && Memory.wfFrom words (a + 1) m

/-- The canonical form: strictly rising indices, all of them words that exist (R53). -/
def Memory.wf (words : Nat) (m : Memory) : Bool := Memory.wfFrom words 0 m

/-! ### The storage primitives of 20_memory.md -/

/-- BITBUF_BITS = 32 · BITBUF_WORDS (R6). -/
def bitbufBits (s : State) : Nat := 32 * s.bitbufWords

/-- `WordRead(w)` (R48). A word not written since reset reads as the free value (log entry 2). -/
def wordRead (s : State) (w : Nat) : BufWord :=
  match s.bitbuf.find w with
  | some v => v
  | none => Config.bitbufFree s.bitbufEpoch w

/-- `WordWrite(w, v)` (R49). -/
def wordWrite (w : Nat) (v : BufWord) (s : State) : State := { s with bitbuf := s.bitbuf.insert w v }

/-- The bit of a word that holds stream position `p`: bit 31 − (p & 31) (R45). -/
def bitOfWord (v : BufWord) (p : Nat) : Bool := v.getLsbD (31 - p % 32)

/-- The word with the bit of stream position `p` set to `b`, its other 31 bits kept (R45, R47). -/
def setBitOfWord (v : BufWord) (p : Nat) (b : Bool) : BufWord :=
  if b then v ||| (1#32 <<< (31 - p % 32)) else v &&& ~~~(1#32 <<< (31 - p % 32))

/-- The bit at stream position `p`, through the word that holds it (R45). -/
def bitAt (s : State) (p : Nat) : Bool := bitOfWord (wordRead s (p / 32)) p

/-- `BitRead(p)` (R46); none where p ≥ BITBUF_BITS, a position that does not exist. -/
def bitRead (s : State) (p : Nat) : Option Bool :=
  if p < bitbufBits s then some (bitAt s p) else none

/-- `BitWrite(p, b)` (R47). -/
def bitWrite (p : Nat) (b : Bool) (s : State) : State :=
  wordWrite (p / 32) (setBitOfWord (wordRead s (p / 32)) p b) s

/-- `AppendBit(b)`, the bit packer (R97). -/
def appendBit (b : Bool) (s : State) : State :=
  let p := s.streamLen.toNat
  let fresh := if p % 32 = 0 then wordWrite (p / 32) 0#32 s else s
  let written := bitWrite p b fresh
  { written with streamLen := BitVec.ofNat 32 (p + 1) }

/-- Append the bits of a code, its first bit first (R98). -/
def appendBits : Code → State → State
  | [], s => s
  | b :: c, s => appendBits c (appendBit b s)

/-! ### The arrays -/

/-- FREQ[sym] (R18). -/
def freqOf (s : State) (sym : Symbol) : Weight := s.freq[sym.toNat]

/-- FREQ[sym] <- c (R76). -/
def setFreq (sym : Symbol) (c : Weight) (s : State) : State := { s with freq := s.freq.set sym.toNat c }

/-- LEN[sym] (R22). -/
def lenOf (s : State) (sym : Symbol) : BitVec 8 := s.len[sym.toNat]

/-- BITS[sym] (R22). -/
def bitsOf (s : State) (sym : Symbol) : BitVec 256 := s.bits[sym.toNat]

/-- The symbols 0..255 in ascending order (R13). -/
def symbols : List Symbol := (List.range 256).map (BitVec.ofNat 8)

/-- Σ over all symbols of FREQ[s], exact (R78, R111). -/
def totalCount (freq : Vector Weight 256) : Nat := (freq.toList.map BitVec.toNat).sum

/-- WEIGHT of a record (R19). -/
def nodeWeight : Node → Weight
  | .leaf _ w => w
  | .internal w _ _ => w

/-- SYM of a record, 0 for an internal node (R19). -/
def nodeSym : Node → Symbol
  | .leaf sym _ => sym
  | .internal _ _ _ => 0#8

/-- LEFT of a record, 0 for a leaf (R19). -/
def nodeLeft : Node → NodeIdx
  | .leaf _ _ => 0
  | .internal _ l _ => l

/-- RIGHT of a record, 0 for a leaf (R19). -/
def nodeRight : Node → NodeIdx
  | .leaf _ _ => 0
  | .internal _ _ r => r

/-- KIND of a record: 0 for a leaf, 1 for an internal node (R19). -/
def nodeKind : Node → BitVec 1
  | .leaf _ _ => 0#1
  | .internal _ _ _ => 1#1

/-- A node index in IDX_W = 9 bits (R6). -/
def idxBits (n : NodeIdx) : BitVec 9 := BitVec.ofNat 9 n.val

/-! ### Reset -/

/-- SOFT_RESET (R118): every element of R38 but BITBUF, NODE, LEN and BITS takes its reset value. What is
not the block's own state stays (log entry 14). -/
def softResetState (s : State) : State :=
  { s with
    freq := Vector.replicate 256 0#32
    root := 0
    leafCount := 0#9
    nodeCount := 0#9
    totalWeight := 0#32
    treeValid := false
    maxCodeLen := 0#8
    codesValid := false
    streamLen := 0#32
    encSymCount := 0#32
    encBitCount := 0#32
    decBitPos := 0#32
    decSymCount := 0#32
    mFixed := 0#64
    mHuff := 0#64
    mRatio := 0#64
    ratioValid := false
    lastErr := 0#4
    errMask := 0#16 }

/-- A hardware reset (R134, R136): the whole state becomes the reset state of R38 with BITBUF unspecified
anew, and no response is delivered for a command in progress. The build parameter and the host's own
record of responses stay; an offer that has not transferred is forgotten (log entry 13). -/
def hardResetState (s : State) : State :=
  { State.resetFor s.bitbufWords (s.bitbufEpoch + 1) with
    inputs := s.inputs
    delivered := s.delivered }

end Sys2Proof.Machine
end

