-- ==== Sys2Proof/Machine/CodeTable.lean ====
section
/-! DEFINITION. U2 huffman_code_table_generator: GEN_CODES, CODE_LEN and CODE_GET (R89 to R95 of
42_code_table.md). -/

namespace Sys2Proof.Machine

/-- `value(c)` of R11: the code as a binary number, its first bit most significant. -/
def codeValue (c : Code) : Nat := c.foldl (fun v b => 2 * v + b.toNat) 0

/-- `Visit(n, c)` of R89: the leaves below node `n` with their codes, left subtree first. None when the
descent passes `depth` levels (log entry 11). -/
def visit (arena : Vector Node 511) : Nat → NodeIdx → Code → Option (List (Symbol × Code))
  | 0, _, _ => none
  | depth + 1, n, c =>
    match arena[n] with
    | .leaf sym _ => some [(sym, c)]
    | .internal _ l r =>
      match visit arena depth l (c ++ [false]) with
      | none => none
      | some ls =>
        match visit arena depth r (c ++ [true]) with
        | none => none
        | some rs => some (ls ++ rs)

/-- The codes of a tree in the order of R89; a root that is a leaf gets exactly "0" (R90). A path of an
acyclic arena has at most N_NODES nodes. -/
def treeCodes (arena : Vector Node 511) (root : NodeIdx) : Option (List (Symbol × Code)) :=
  match arena[root] with
  | .leaf sym _ => some [(sym, [false])]
  | .internal _ _ _ => visit arena Config.nNodes root []

/-- LEN after GEN_CODES: 0 but for the codes' lengths (R89). -/
def lenTable (codes : List (Symbol × Code)) : Vector (BitVec 8) 256 :=
  codes.foldl (fun t e => t.set e.1.toNat (BitVec.ofNat 8 e.2.length)) (Vector.replicate 256 0#8)

/-- BITS after GEN_CODES: 0 but for the codes' values, right-aligned (R22, R89). -/
def bitsTable (codes : List (Symbol × Code)) : Vector (BitVec 256) 256 :=
  codes.foldl (fun t e => t.set e.1.toNat (BitVec.ofNat 256 (codeValue e.2))) (Vector.replicate 256 0#256)

/-- The largest length of a table (R22). -/
def maxLen (t : Vector (BitVec 8) 256) : BitVec 8 :=
  t.toList.foldl (fun m l => if m.toNat < l.toNat then l else m) 0#8

/-- The state after a GEN_CODES that writes these codes (R89). -/
def genCodesState (codes : List (Symbol × Code)) (s : State) : State :=
  { s with
    len := lenTable codes
    bits := bitsTable codes
    maxCodeLen := maxLen (lenTable codes)
    codesValid := true }

/-- GEN_CODES (R89). -/
def execGenCodes (s : State) : Result :=
  if s.treeValid = false then raise .noTree s
  else
    match treeCodes s.node s.root with
    | none => .fault .arenaCycle
    | some codes => complete ((genCodesState codes s).maxCodeLen.setWidth 64) (genCodesState codes s)

/-- CODE_LEN (R94). -/
def execCodeLen (a : BitVec 16) (s : State) : Result :=
  match symOperand a with
  | none => raise .badOperand s
  | some sym =>
    if s.codesValid = false then raise .noCodes s
    else complete ((lenOf s sym).setWidth 64) s

/-- Window `n` of a code value: bits 64n+63 down to 64n (R50, R95). -/
def codeWindow (v : BitVec 256) (n : Nat) : BitVec 64 := v.extractLsb' (64 * n) 64

/-- CODE_GET (R95). -/
def execCodeGet (a : BitVec 16) (b : BitVec 32) (s : State) : Result :=
  match symOperand a, winOperand b with
  | some sym, some n =>
    if s.codesValid = false then raise .noCodes s
    else complete (codeWindow (bitsOf s sym) n) s
  | _, _ => raise .badOperand s

end Sys2Proof.Machine
end

