-- ==== Sys2Proof/Machine/Control.lean ====
section
/-! DEFINITION. The front-end and control commands of 46_control.md (R115 to R118) and the values of the
CSRs (R33 to R36 of 10_state.md). -/

namespace Sys2Proof.Machine

/-- HW_PARAMS: the fields of R36 from bit 63 down. -/
def hwParams (words : Nat) : BitVec 64 :=
  0#15 ++ BitVec.ofNat 17 words ++ Config.hcmdVersion ++ Config.codeMax ++ Config.weightWidth
    ++ Config.symWidth

/-- The 64-bit value of a CSR, its fields zero-extended (R33). -/
def csrValue (s : State) : Csr → BitVec 64
  | .hwId => Config.hwId
  | .hwParams => hwParams s.bitbufWords
  | .status => statusCsr s
  | .root => (idxBits s.root).setWidth 64
  | .leafCount => s.leafCount.setWidth 64
  | .nodeCount => s.nodeCount.setWidth 64
  | .totalWeight => s.totalWeight.setWidth 64
  | .maxCodeLen => s.maxCodeLen.setWidth 64
  | .streamLen => s.streamLen.setWidth 64
  | .encSymCount => s.encSymCount.setWidth 64
  | .encBitCount => s.encBitCount.setWidth 64
  | .decBitPos => s.decBitPos.setWidth 64
  | .decSymCount => s.decSymCount.setWidth 64
  | .mFixed => s.mFixed
  | .mHuff => s.mHuff
  | .mRatio => s.mRatio

/-- NOP (R115). -/
def execNop (s : State) : Result := complete 0#64 s

/-- RD_CSR (R116). -/
def execRdCsr (a : BitVec 16) (s : State) : Result :=
  match csrOperand a with
  | none => raise .badOperand s
  | some c => complete (csrValue s c) s

/-- CLR_ERR (R117). -/
def execClrErr (s : State) : Result := complete 0#64 { s with lastErr := 0#4, errMask := 0#16 }

/-- SOFT_RESET (R118). -/
def execSoftReset (s : State) : Result := complete 0#64 (softResetState s)

end Sys2Proof.Machine
end

