-- ==== Sys2Proof/Machine/Decoder.lean ====
section
/-! DEFINITION. U4 huffman_decoder: DEC_RESET and DEC_SYM (R104 to R110 of 44_decoder.md). -/

namespace Sys2Proof.Machine

/-- How a walk from the root ends (R105). -/
inductive WalkEnd where
  /-- At a leaf of this symbol, the next bit at stream position `next`. -/
  | leaf (sym : Symbol) (next : Nat)
  /-- The stream ended at an internal node. -/
  | truncated
  /-- The walk needs a stream position that does not exist. -/
  | outside
  deriving DecidableEq, Repr

/-- DEC_RESET (R104). -/
def execDecReset (s : State) : Result :=
  complete 0#64 { s with decBitPos := 0#32, decSymCount := 0#32 }

/-- The walk loop of R105 at an internal node `n`, with `left` stream bits from position `q` on: 0 goes
LEFT, 1 goes RIGHT, and it ends at the first leaf. -/
def walk (s : State) : Nat → Nat → NodeIdx → WalkEnd
  | 0, _, _ => .truncated
  | left + 1, q, n =>
    match bitRead s q with
    | none => .outside
    | some b =>
      let child := if b then nodeRight s.node[n] else nodeLeft s.node[n]
      match s.node[child] with
      | .leaf sym _ => .leaf sym (q + 1)
      | .internal _ _ _ => walk s left (q + 1) child

/-- The state after a DEC_SYM that returns a symbol, and its response data: bits consumed above the
symbol (R105). The counter wraps modulo 2^32 (R26). -/
def emitSymbol (sym : Symbol) (q : Nat) (s : State) : Result :=
  complete ((BitVec.ofNat 8 (q - s.decBitPos.toNat) ++ sym).setWidth 64)
    { s with decBitPos := BitVec.ofNat 32 q, decSymCount := s.decSymCount + 1#32 }

/-- DEC_SYM (R105, R106, R107). -/
def execDecSym (s : State) : Result :=
  let p := s.decBitPos.toNat
  if s.treeValid = false then raise .noTree s
  else if s.streamLen.toNat ≤ p then info .endOfStream s
  else
    match s.node[s.root] with
    | .leaf sym _ =>
      match bitRead s p with
      | none => .fault .bitOutsideBuffer
      | some true => raise .invalidCode s
      | some false => emitSymbol sym (p + 1) s
    | .internal _ _ _ =>
      match walk s (s.streamLen.toNat - p) p s.root with
      | .leaf sym q => emitSymbol sym q s
      | .truncated => raise .truncatedStream s
      | .outside => .fault .bitOutsideBuffer

end Sys2Proof.Machine
end

