-- ==== Sys2Proof/Machine/Encoder.lean ====
section
/-! DEFINITION. U3 huffman_encoder and its bit buffer: ENC_RESET, ENC_SYM, BB_READ, BB_WRITE and BB_SETLEN
(R96 to R103 of 43_encoder.md). -/

namespace Sys2Proof.Machine

/-- ENC_RESET (R96). -/
def execEncReset (s : State) : Result :=
  complete 0#64 { s with streamLen := 0#32, encSymCount := 0#32, encBitCount := 0#32 }

/-- The code the table holds for a symbol, its first bit first: bits L−1 down to 0 of BITS (R22, R98). -/
def tableCode (s : State) (sym : Symbol) : Code :=
  (List.range (lenOf s sym).toNat).map fun j => (bitsOf s sym).getLsbD ((lenOf s sym).toNat - 1 - j)

/-- The state after an ENC_SYM that succeeds (R98); the counters wrap modulo 2^32 (R25). -/
def encSymState (sym : Symbol) (s : State) : State :=
  let t := appendBits (tableCode s sym) s
  { t with
    encSymCount := s.encSymCount + 1#32
    encBitCount := s.encBitCount + (lenOf s sym).setWidth 32 }

/-- ENC_SYM (R98). -/
def execEncSym (a : BitVec 16) (s : State) : Result :=
  match symOperand a with
  | none => raise .badOperand s
  | some sym =>
    if s.codesValid = false then raise .noCodes s
    else if (lenOf s sym).toNat = 0 then raise .symbolNotInTable s
    else if bitbufBits s < s.streamLen.toNat + (lenOf s sym).toNat then raise .streamOverflow s
    else complete ((lenOf s sym).setWidth 64) (encSymState sym s)

/-- BB_READ (R100). -/
def execBbRead (a : BitVec 16) (s : State) : Result :=
  match wordOperand s.bitbufWords a with
  | none => raise .badOperand s
  | some w => complete ((wordRead s w).setWidth 64) s

/-- BB_WRITE (R101). -/
def execBbWrite (a : BitVec 16) (data : BitVec 32) (s : State) : Result :=
  match wordOperand s.bitbufWords a with
  | none => raise .badOperand s
  | some w => complete 0#64 (wordWrite w data s)

/-- BB_SETLEN (R102). -/
def execBbSetLen (b : BitVec 32) (s : State) : Result :=
  match lenOperand s.bitbufWords b with
  | none => raise .badOperand s
  | some n => complete 0#64 { s with streamLen := n }

end Sys2Proof.Machine
end

