-- ==== Sys2Proof/Machine/FreqTable.lean ====
section
/-! DEFINITION. The frequency table commands of 40_freq_table.md (R75 to R77). -/

namespace Sys2Proof.Machine

/-- FT_CLEAR (R75). -/
def execFtClear (s : State) : Result :=
  complete 0#64 (invalidateTreeAndCodes { s with freq := Vector.replicate 256 0#32 })

/-- FT_SET (R76). -/
def execFtSet (a : BitVec 16) (count : BitVec 32) (s : State) : Result :=
  match symOperand a with
  | none => raise .badOperand s
  | some sym => complete 0#64 (invalidateTreeAndCodes (setFreq sym count s))

/-- FT_GET (R77). -/
def execFtGet (a : BitVec 16) (s : State) : Result :=
  match symOperand a with
  | none => raise .badOperand s
  | some sym => complete ((freqOf s sym).setWidth 64) s

end Sys2Proof.Machine
end

