-- ==== Sys2Proof/Machine/Metrics.lean ====
section
/-! DEFINITION. U5 compression_metrics_calculator: METRICS (R111 to R113 of 45_metrics.md). -/

namespace Sys2Proof.Machine

/-- Σ over all symbols of FREQ[s] · LEN[s], exact (R111). -/
def weightedLength (freq : Vector Weight 256) (len : Vector (BitVec 8) 256) : Nat :=
  ((freq.toList.zip len.toList).map fun e => e.1.toNat * e.2.toNat).sum

/-- n, the number of symbols the source describes (R111, R113). -/
def metricsCount (s : State) : MetricsSource → Nat
  | .encoder => s.encSymCount.toNat
  | .table => totalCount s.freq

/-- h, the Huffman bits the source describes (R111, R113). -/
def metricsBits (s : State) : MetricsSource → Nat
  | .encoder => s.encBitCount.toNat
  | .table => weightedLength s.freq s.len

/-- M_FIXED and M_HUFF written, with this ratio and its flag (R111, R112). -/
def metricsState (fixed huff ratio : Nat) (valid : Bool) (s : State) : State :=
  { s with
    mFixed := BitVec.ofNat 64 fixed
    mHuff := BitVec.ofNat 64 huff
    mRatio := BitVec.ofNat 64 ratio
    ratioValid := valid }

/-- The computation of METRICS from n · W and h. RATIO_UNDEFINED keeps the four writes (R112). -/
def finishMetrics (fixed huff : Nat) (s : State) : Result :=
  if huff = 0 then raise .ratioUndefined (metricsState fixed huff 0 false s)
  else
    complete (BitVec.ofNat 64 (fixed * 2 ^ 16 / huff))
      (metricsState fixed huff (fixed * 2 ^ 16 / huff) true s)

/-- METRICS (R111). -/
def execMetrics (a : BitVec 16) (b : BitVec 32) (s : State) : Result :=
  match srcOperand a, widthOperand b with
  | some src, some width =>
    if src = .table ∧ s.codesValid = false then raise .noCodes s
    else finishMetrics (metricsCount s src * width) (metricsBits s src) s
  | _, _ => raise .badOperand s

end Sys2Proof.Machine
end

