-- ==== Sys2Proof/Machine/TreeBuilder.lean ====
section
/-! DEFINITION. U1 huffman_tree_builder: BUILD and NODE_GET (R78 to R84 of 41_tree_builder.md). -/

namespace Sys2Proof.Machine

/-- An active node of the priority queue, by its key (WEIGHT, node index) (R80). -/
structure QueueKey where
  weight : Weight
  idx : NodeIdx
  deriving DecidableEq, Repr

/-- The order of the queue: the least WEIGHT first, among equal weights the least node index (R80). -/
def precedes (k k' : QueueKey) : Bool :=
  k.weight.toNat < k'.weight.toNat || (k.weight.toNat == k'.weight.toNat && k.idx.val < k'.idx.val)

/-- `PQMin` (R78): the first active node by R80, with the others; none of an empty queue. -/
def extractMin : List QueueKey → Option (QueueKey × List QueueKey)
  | [] => none
  | k :: ks =>
    match extractMin ks with
    | none => some (k, [])
    | some (m, rest) => if precedes k m then some (k, ks) else some (m, k :: rest)

/-- The FrequencyTable's entries in ascending symbol order: `Lsyms` of R78 with their counts. -/
def alphabet (freq : Vector Weight 256) : List (Symbol × Weight) :=
  (symbols.zip freq.toList).filter fun e => e.2 ≠ 0#32

/-- The leaves, NODE[0..K−1] (R78, R80). -/
def leafNodes (freq : Vector Weight 256) : List Node := (alphabet freq).map fun e => .leaf e.1 e.2

/-- The keys of nodes whose first index is `i`. -/
def queueFrom : Nat → List Node → List QueueKey
  | _, [] => []
  | i, n :: ns => ⟨nodeWeight n, Fin.ofNat 511 i⟩ :: queueFrom (i + 1) ns

/-- The node merger (R78, R81), at most `fuel` merges: the two first nodes by R80 become LEFT and RIGHT of
the next internal node. `nodes` is NODE[0..next−1], so `next` is its length. Ends when fewer than two
nodes are active. -/
def mergeNodes : Nat → List Node → List QueueKey → List Node × List QueueKey
  | 0, nodes, active => (nodes, active)
  | fuel + 1, nodes, active =>
    match extractMin active with
    | none => (nodes, active)
    | some (a, active1) =>
      match extractMin active1 with
      | none => (nodes, active)
      | some (b, active2) =>
        let w := a.weight + b.weight
        mergeNodes fuel (nodes ++ [.internal w a.idx b.idx])
          (⟨w, Fin.ofNat 511 nodes.length⟩ :: active2)

/-- The merger's run for a frequency table: K leaves take K − 1 merges, at most 255 (R143). -/
def mergeAll (freq : Vector Weight 256) : List Node × List QueueKey :=
  mergeNodes 255 (leafNodes freq) (queueFrom 0 (leafNodes freq))

/-- The records NODE[0..2K−2] that BUILD writes (R78). -/
def builtNodes (freq : Vector Weight 256) : List Node := (mergeAll freq).1

/-- The single element left active (R78): 2K−2, or 0 when K = 1 (R82). -/
def builtRoot (freq : Vector Weight 256) : NodeIdx :=
  match (mergeAll freq).2 with
  | [] => 0
  | k :: _ => k.idx

/-- NODE with its first records replaced; the records above are not written (R78). -/
def writeNodes (ns : List Node) (arena : Vector Node 511) : Vector Node 511 :=
  ⟨⟨(ns ++ arena.toList.drop ns.length).take 511⟩, by
    simp only [List.size_toArray, List.length_take, List.length_append, List.length_drop,
      Vector.length_toList]
    omega⟩

/-- The state after a BUILD that succeeds (R78). -/
def buildState (s : State) : State :=
  let arena := writeNodes (builtNodes s.freq) s.node
  let root := builtRoot s.freq
  let k := (alphabet s.freq).length
  { s with
    node := arena
    root := root
    leafCount := BitVec.ofNat 9 k
    nodeCount := BitVec.ofNat 9 (2 * k - 1)
    totalWeight := nodeWeight arena[root]
    treeValid := true
    codesValid := false }

/-- The response data of BUILD: ROOT, 7 zeros, LEAF_COUNT, TOTAL_WEIGHT, zero-extended (R78). -/
def buildData (s : State) : BitVec 64 :=
  (idxBits s.root ++ 0#7 ++ s.leafCount ++ s.totalWeight).setWidth 64

/-- BUILD (R78, R79). -/
def execBuild (s : State) : Result :=
  if (alphabet s.freq).length = 0 then raise .emptyAlphabet s
  else if 2 ^ 32 - 1 < totalCount s.freq then raise .weightOverflow s
  else complete (buildData (buildState s)) (buildState s)

/-- A record packed into 64 bits (R84): KIND, 5 zeros, SYM, RIGHT, LEFT, WEIGHT. -/
def packNode (n : Node) : BitVec 64 :=
  nodeKind n ++ 0#5 ++ nodeSym n ++ idxBits (nodeRight n) ++ idxBits (nodeLeft n) ++ nodeWeight n

/-- NODE_GET (R84). -/
def execNodeGet (a : BitVec 16) (s : State) : Result :=
  match idxOperand a with
  | none => raise .badOperand s
  | some i =>
    if s.treeValid = false then raise .noTree s
    else if s.nodeCount.toNat ≤ i.val then raise .badOperand s
    else complete (packNode s.node[i]) s

end Sys2Proof.Machine
end

