-- ==== Sys2Proof/Machine/Dispatch.lean ====
section
/-! DEFINITION. The dispatch of R70 (30_encoding.md): one arm per command, each a call of its meaning. -/

namespace Sys2Proof.Machine

def exec (i : Instr) (s : State) : Host.Outcome State Fault Refusal :=
  match i with
  | .nop => Sys2Proof.Machine.execNop s
  | .rdCsr csr => Sys2Proof.Machine.execRdCsr csr s
  | .clrErr => Sys2Proof.Machine.execClrErr s
  | .softReset => Sys2Proof.Machine.execSoftReset s
  | .ftClear => Sys2Proof.Machine.execFtClear s
  | .ftSet sym count => Sys2Proof.Machine.execFtSet sym count s
  | .ftGet sym => Sys2Proof.Machine.execFtGet sym s
  | .build => Sys2Proof.Machine.execBuild s
  | .nodeGet idx => Sys2Proof.Machine.execNodeGet idx s
  | .genCodes => Sys2Proof.Machine.execGenCodes s
  | .codeLen sym => Sys2Proof.Machine.execCodeLen sym s
  | .codeGet sym win => Sys2Proof.Machine.execCodeGet sym win s
  | .encReset => Sys2Proof.Machine.execEncReset s
  | .encSym sym => Sys2Proof.Machine.execEncSym sym s
  | .bbRead word => Sys2Proof.Machine.execBbRead word s
  | .bbWrite word data => Sys2Proof.Machine.execBbWrite word data s
  | .bbSetLen len => Sys2Proof.Machine.execBbSetLen len s
  | .decReset => Sys2Proof.Machine.execDecReset s
  | .decSym => Sys2Proof.Machine.execDecSym s
  | .metrics src width => Sys2Proof.Machine.execMetrics src width s

end Sys2Proof.Machine
end

