-- ==== Sys2Proof/Machine/Port.lean ====
section
/-! DEFINITION. The command port and its handshake (R29 of 10_state.md; R60 to R62 of 30_encoding.md; R134,
R136, R139 of 70_reset_and_hazards.md). One step of the model is one event at the port, not a clock
edge (R142; log entry 4). -/

namespace Sys2Proof.Machine

/-- What the host drives where `inputs` says nothing: no reset, the word on offer held (R139), no
response taken (log entry 5). -/
def heldPins (s : State) : Pins :=
  { rstN := true, cmdValid := s.offer.isSome, cmdData := s.offer.getD 0#64, rspReady := false }

/-- The pins this step samples (R60). -/
def pinsNow (s : State) : Pins :=
  match s.inputs with
  | [] => heldPins s
  | p :: _ => p

/-- Output cmd_ready (R61, R134): 1 exactly when the port is IDLE and rst_n = 1. -/
def cmdReady (s : State) : Bool := (pinsNow s).rstN && decide (s.port = .idle)

/-- Output rsp_valid (R61, R134): 1 in RESPOND, 0 while rst_n = 0. -/
def rspValid (s : State) : Bool :=
  match s.port with
  | .respond _ => (pinsNow s).rstN
  | .idle => false
  | .busy _ => false

/-- Outputs rsp_status and rsp_data: the response held in RESPOND (R61); none in the other phases, where
the spec gives them no value. -/
def rspHeld (s : State) : Option Response :=
  match s.port with
  | .respond r => some r
  | .idle => none
  | .busy _ => none

/-- Output rsp_status (R65): the 4-bit code of the held response's status (R119). -/
def rspStatus (r : Response) : BitVec 4 := statusCode r.status

/-- A command word transfers: cmd_valid = 1 and cmd_ready = 1 (R61). -/
def cmdTransfers (s : State) : Bool := (pinsNow s).cmdValid && cmdReady s

/-- A response transfers: rsp_valid = 1 and rsp_ready = 1 (R61). -/
def rspTransfers (s : State) : Bool := (pinsNow s).rspReady && rspValid s

/-- The host broke its duty of R139: the word it offered has not transferred, and it offers another one
or none. -/
def offerBroken (s : State) : Bool :=
  match s.offer with
  | none => false
  | some w => !((pinsNow s).cmdValid && decide ((pinsNow s).cmdData = w))

/-- The word on offer after a step at which none transfers. -/
def offerKept (s : State) : Option Command :=
  if (pinsNow s).cmdValid then some (pinsNow s).cmdData else none

/-- One pin sample is used up, and a word it offers stays on offer. -/
def advance (s : State) : State := { s with inputs := s.inputs.tail, offer := offerKept s }

/-- A step in IDLE: an offered word transfers and the port is BUSY with it; without one it waits (R61). -/
def idleStep (s : State) : State :=
  if cmdTransfers s then
    { s with port := .busy (pinsNow s).cmdData, inputs := s.inputs.tail, offer := none }
  else advance s

/-- A step in RESPOND: the response transfers and the port is IDLE, or the response is held (R61). A host
that never takes it leaves the block here for ever (R139, I9). -/
def respondStep (r : Response) (s : State) : State :=
  if rspTransfers s then { advance s with port := .idle, delivered := s.delivered ++ [r] } else advance s

/-- A step with rst_n = 0 (R134, R136). -/
def resetStep (s : State) : State := hardResetState { s with inputs := s.inputs.tail }

/-- The state with this word accepted and every pin such that the next step executes it. -/
def placeCommand (w : Command) (s : State) : State :=
  { s with port := .busy w, resetSeen := true, inputs := heldPins s :: s.inputs }

end Sys2Proof.Machine
end

