-- ==== Sys2Proof/Machine/Step.lean ====
section
/-! DEFINITION. One step of the machine: one event at the command port (R61 to R63 of 30_encoding.md; R134
to R136 of 70_reset_and_hazards.md). -/

namespace Sys2Proof.Machine

/-- Execute an accepted word: decode it, then the command's meaning; a word that is no command ends with
ILLEGAL_COMMAND (R69, R70). -/
def execWord (w : Command) (s : State) : Result :=
  match decode w with
  | .error _ => raise .illegalCommand s
  | .ok i => exec i s

/-- One step. Reset has precedence over everything (R122, R136); without a first reset, or with a host
that breaks its offer, the model refuses (log entries 6 and 7); otherwise the port's phase decides. -/
def step (s : State) : Host.Outcome State Fault Refusal :=
  if (pinsNow s).rstN = false then .next (resetStep s)
  else if s.resetSeen = false then .refused .beforeFirstReset
  else if offerBroken s then .refused .unstableOffer
  else
    match s.port with
    | .idle => .next (idleStep s)
    | .busy w => execWord w (advance s)
    | .respond r => .next (respondStep r s)

/-- The state with the command word `w` accepted, so that the next step executes it. A command is one
64-bit word (R71); bits at and above `nbits` are 0. It stands for the host's offer and its transfer
(log entry 5). -/
def State.withFetchWord (s : State) (nbits w : Nat) : State :=
  placeCommand (BitVec.ofNat 64 (w % 2 ^ nbits)) s

end Sys2Proof.Machine
end

