-- ==== Sys2Proof/WellFormed.lean ====
section
/-! DEFINITION. The static operand ranges of R66 (30_encoding.md), for a block with `words` 32-bit words
of bit buffer (BITBUF_WORDS). A command outside them ends with BAD_OPERAND (R70). -/

namespace Sys2Proof

/-- Every used operand lies in the static range of its kind (R66). Counts and data have no smaller
range than their field. -/
def Instr.wellFormed (words : Nat) : Instr → Bool
  | .nop => true
  | .rdCsr csr => csr.toNat ≤ 0x00F
  | .clrErr => true
  | .softReset => true
  | .ftClear => true
  | .ftSet sym _ => sym.toNat ≤ 255
  | .ftGet sym => sym.toNat ≤ 255
  | .build => true
  | .nodeGet idx => idx.toNat ≤ 510
  | .genCodes => true
  | .codeLen sym => sym.toNat ≤ 255
  | .codeGet sym win => sym.toNat ≤ 255 && win.toNat ≤ 3
  | .encReset => true
  | .encSym sym => sym.toNat ≤ 255
  | .bbRead word => word.toNat < words
  | .bbWrite word _ => word.toNat < words
  | .bbSetLen len => len.toNat ≤ 32 * words
  | .decReset => true
  | .decSym => true
  | .metrics src width => src.toNat ≤ 1 && width.toNat ≤ 255

end Sys2Proof
end

