-- ==== Sys2Proof/Safety.lean ====
section
/-! DEFINITION. The terms claims are stated in: how a command ended, the invariants of R39, paths in the
tree, full binary trees over given weights, and sequences of commands that all complete. -/

namespace Sys2Proof.Machine

/-- `t` with the response (OK, d) held: what a command that completes leaves (R10, R65). -/
def answered (d : BitVec 64) (t : State) : State := { t with port := .respond ⟨.ok, d⟩ }

/-- `s` after an error of status `e` whose code is `code`: the bookkeeping of R121 and a response with
data 0 (R65), nothing else (R123). -/
def failed (e : Status) (code : Nat) (s : State) : State :=
  { s with
    lastErr := BitVec.ofNat 4 code
    errMask := s.errMask ||| (1#16 <<< code)
    port := .respond ⟨e, 0#64⟩ }

/-- The word is no command: decoding refuses it. -/
def illegalWord (w : Command) : Prop := ∀ i : Instr, decode w ≠ .ok i

/-! ### The invariants of R39 -/

/-- K, the size of the alphabet (R18). -/
def alphabetSize (s : State) : Nat := (alphabet s.freq).length

/-- The tree registers and NODE hold what BUILD computes from FREQ (R39 (b)), which BUILD accepts. -/
structure TreeCurrent (s : State) : Prop where
  nonempty : alphabetSize s ≠ 0
  fits : totalCount s.freq < 2 ^ 32
  nodes : ∀ i : NodeIdx, i.val < (builtNodes s.freq).length →
    (builtNodes s.freq)[i.val]? = some s.node[i]
  root : s.root = builtRoot s.freq
  leafCount : s.leafCount.toNat = alphabetSize s
  nodeCount : s.nodeCount.toNat = 2 * alphabetSize s - 1
  totalWeight : s.totalWeight = nodeWeight s.node[s.root]

/-- The code table holds what GEN_CODES computes from the tree (R39 (c)). -/
def CodesCurrent (s : State) : Prop :=
  ∃ codes, treeCodes s.node s.root = some codes ∧ s.len = lenTable codes ∧ s.bits = bitsTable codes ∧
    s.maxCodeLen = maxLen s.len

/-- LAST_ERR and ERR_MASK (R28, R34, R39 (e)): both 0 or neither; LAST_ERR is 0 or 2..12, and then its
bit is set; bits 0, 1 and 13..15 of ERR_MASK are 0. -/
structure ErrorsConsistent (s : State) : Prop where
  bothZero : s.lastErr = 0#4 ↔ s.errMask = 0#16
  range : s.lastErr = 0#4 ∨ (2 ≤ s.lastErr.toNat ∧ s.lastErr.toNat ≤ 12)
  inMask : s.lastErr ≠ 0#4 → s.errMask.getLsbD s.lastErr.toNat = true
  reserved : s.errMask &&& 0xE003#16 = 0#16

/-- What holds between commands in every reachable state (R39), with the legal range of the build
parameter (R6) and the canonical form of the bit buffer. -/
structure Inv (s : State) : Prop where
  words : 1 ≤ s.bitbufWords ∧ s.bitbufWords ≤ Config.maxBitbufWords
  memory : s.bitbuf.wf s.bitbufWords = true
  codesNeedTree : s.codesValid = true → s.treeValid = true
  tree : s.treeValid = true → TreeCurrent s
  codes : s.codesValid = true → CodesCurrent s
  stream : s.streamLen.toNat ≤ bitbufBits s
  errors : ErrorsConsistent s
  counts : s.treeValid = true →
    1 ≤ s.leafCount.toNat ∧ s.leafCount.toNat ≤ 256 ∧ s.nodeCount.toNat = 2 * s.leafCount.toNat - 1

/-! ### Paths in the tree -/

/-- The bits `c` lead from node `n` to a leaf, of this symbol, and to no leaf before their end: 0 is the
left edge, 1 the right edge (R11, R91). -/
def leadsTo (arena : Vector Node 511) : NodeIdx → Code → Symbol → Prop
  | n, [], sym => ∃ w, arena[n] = .leaf sym w
  | n, b :: c, sym =>
    ∃ w l r, arena[n] = .internal w l r ∧ leadsTo arena (if b then r else l) c sym

/-- The bits `c` lead from node `n` through internal nodes to an internal node. -/
def leadsInside (arena : Vector Node 511) : NodeIdx → Code → Prop
  | n, [] => ∃ w l r, arena[n] = .internal w l r
  | n, b :: c => ∃ w l r, arena[n] = .internal w l r ∧ leadsInside arena (if b then r else l) c

/-- `c` is a child of the record (R19). -/
def childOf (c : NodeIdx) (n : Node) : Prop :=
  ∃ w l r, n = .internal w l r ∧ (c = l ∨ c = r)

/-- The stream bits from position `p` on begin with `code` (R45). -/
def streamHas (s : State) (p : Nat) (code : Code) : Prop :=
  ∀ j, j < code.length → code[j]? = some (bitAt s (p + j))

/-! ### Full binary trees over given weights (R83) -/

/-- A full binary tree with a weight at each leaf. -/
inductive WeightTree where
  | leaf (w : Nat)
  | node (l r : WeightTree)
  deriving Repr

/-- The leaf weights, left to right. -/
def leafWeights : WeightTree → List Nat
  | .leaf w => [w]
  | .node l r => leafWeights l ++ leafWeights r

/-- The weighted path length: Σ over leaves of weight × depth (R13, R83), for a tree whose root is at
depth `d`. -/
def pathLengthAt : Nat → WeightTree → Nat
  | d, .leaf w => w * d
  | d, .node l r => pathLengthAt (d + 1) l + pathLengthAt (d + 1) r

/-- The weighted path length of the leaves and edge sequences of a tree under the counts FREQ. -/
def pathLength (s : State) (leaves : List (Symbol × Code)) : Nat :=
  (leaves.map fun e => (freqOf s e.1).toNat * e.2.length).sum

/-! ### Sequences of commands -/

/-- The commands run one after the other and every one completes with OK: the last state and the data
of the responses, in order (R62, R109); none where one of them does not complete. -/
def completeAll : List Instr → State → Option (State × List (BitVec 64))
  | [], s => some (s, [])
  | i :: is, s =>
    match exec i s with
    | .next t =>
      match t.port with
      | .respond ⟨.ok, d⟩ =>
        match completeAll is t with
        | some (u, ds) => some (u, d :: ds)
        | none => none
      | _ => none
    | _ => none

/-- The ENC_SYM commands for a sequence of symbols (R74). -/
def encodeSeq (syms : List Symbol) : List Instr := syms.map fun x => .encSym (x.setWidth 16)

/-- The codes of a sequence of symbols, concatenated in order (R99). -/
def codeSeq (s : State) (syms : List Symbol) : Code := syms.flatMap (tableCode s)

end Sys2Proof.Machine
end

