-- ==== Sys2Proof/Certificates/Slice0/Obligations.lean ====
section
/-! DEFINITION. The statements for the provers: what the rules of the spec say huffman_core does, in terms of
`exec`, `step` and `decode`. Each docstring names the rules it rests on. -/

open Sys2Proof Sys2Proof.Machine

/-! ### Encoding -/

/-- R64, R67, R70, R72: decoding the word of any command gives the command back, with every operand at
every value of its field. -/
def Obligations.DecodeEncodeRoundTrip : Prop :=
  ∀ i : Instr, decode (encode i) = .ok i

/-- R67 to R70: a word that decodes to a command is the word of that command, so no two words are one
command and no bit of a word is ignored. -/
def Obligations.EncodeDecodeInverse : Prop :=
  ∀ (w : Command) (i : Instr), decode w = .ok i → encode i = w

/-- R72: word = (OPC << 56) | (a << 32) | b with RSV = 0, and its two examples. -/
def Obligations.CommandWordFormula : Prop :=
  (∀ i : Instr,
    encode i = ((opcOf i).setWidth 64 <<< 56) ||| ((aOf i).setWidth 64 <<< 32) ||| (bOf i).setWidth 64 ∧
    rsvField (encode i) = 0#8) ∧
  encode (.ftSet 0x41#16 45#32) = 0x110000410000002D#64 ∧
  encode (.encSym 0x42#16) = 0x4100004200000000#64

/-- R68, with the rows of R67 written out: a word raises ILLEGAL_COMMAND exactly when its OPC is not
listed, RSV is not 0, or an unused field is not 0; decided on the word alone, whatever the state. -/
def Obligations.LegalWordsExactly : Prop :=
  ∀ w : Command,
    (illegalWord w ↔
      (opcField w).toNat ∉ [0x00, 0x01, 0x02, 0x03, 0x10, 0x11, 0x12, 0x20, 0x21, 0x30, 0x31, 0x32, 0x40,
        0x41, 0x50, 0x51, 0x52, 0x60, 0x61, 0x70] ∨
      rsvField w ≠ 0#8 ∨
      (aField w ≠ 0#16 ∧
        (opcField w).toNat ∉ [0x01, 0x11, 0x12, 0x21, 0x31, 0x32, 0x41, 0x50, 0x51, 0x70]) ∨
      (bField w ≠ 0#32 ∧ (opcField w).toNat ∉ [0x11, 0x32, 0x51, 0x52, 0x70])) ∧
    (illegalWord w → ∀ s : State, execWord w s = .next (failed .illegalCommand 2 s))

/-- R67, R72: a word of each family, written out in 95_test_vectors.md, decodes to its command. -/
def Obligations.KnownWordsDecode : Prop :=
  decode 0x0000000000000000#64 = .ok .nop ∧
  decode 0x0100000C00000000#64 = .ok (.rdCsr 0x00C#16) ∧
  decode 0x110000410000002D#64 = .ok (.ftSet 0x41#16 45#32) ∧
  decode 0x2100000A00000000#64 = .ok (.nodeGet 10#16) ∧
  decode 0x3200004A00000000#64 = .ok (.codeGet 0x4A#16 0#32) ∧
  decode 0x4100004200000000#64 = .ok (.encSym 0x42#16) ∧
  decode 0x51000000A8000000#64 = .ok (.bbWrite 0#16 0xA8000000#32) ∧
  decode 0x5200000000000006#64 = .ok (.bbSetLen 6#32) ∧
  decode 0x6100000000000000#64 = .ok .decSym ∧
  decode 0x7000000100000004#64 = .ok (.metrics 1#16 4#32) ∧
  decode 0x1101004100000001#64 = .error .reservedNotZero ∧
  decode 0x1200004100000001#64 = .error .unusedNotZero ∧
  decode 0x0400000000000000#64 = .error .unassignedOpcode

/-! ### The port and the step -/

/-- R61, R63, R69, R70: in BUSY the step is the execution of the accepted word, whatever the word: `exec` of
the command it decodes to, or ILLEGAL_COMMAND where it decodes to none. The spec says that the word is
executed; that BUSY is exactly one step is the model's choice (log entry 4), and so is what the step does
to the model's own fields: one pin sample of `inputs` is used up (log entry 5), and a word the host offers
meanwhile stands in `offer` (log entry 6). Around the execution the step does nothing else. -/
def Obligations.StepRunsDecodedCommand : Prop :=
  ∀ (s : State) (w : Command),
    s.port = .busy w → (pinsNow s).rstN = true → s.resetSeen = true → offerBroken s = false →
    ∃ t : State,
      t = { s with
        inputs := s.inputs.tail
        offer := if (pinsNow s).cmdValid then some (pinsNow s).cmdData else none } ∧
      step s = execWord w t ∧
      (∀ i : Instr, decode w = .ok i → step s = exec i t) ∧
      (illegalWord w → step s = .next (failed .illegalCommand 2 t))

/-- The model's placing of a command, a choice of the model (log entry 5): the step after `withFetchWord`
executes exactly the command of the word (BUSY is one step by log entry 4), from any state. -/
def Obligations.PlacedCommandRunsNext : Prop :=
  ∀ (s : State) (nbits w : Nat) (i : Instr),
    decodeTableWord nbits w = some i →
    step (s.withFetchWord nbits w) =
      exec i { s with port := .busy (BitVec.ofNat 64 (w % 2 ^ nbits)), resetSeen := true }

/-- R61 (with R29, R62, R119 and R134): cmd_ready exactly when IDLE and rst_n = 1; rsp_valid exactly in
RESPOND with rst_n = 1; rsp_status is the code of R119 of the held response, its thirteen codes written
out; an offered word transfers in IDLE and the port is BUSY with it; a response transfers when the host
takes it and the port is IDLE; without a transfer the port keeps its phase and what it holds. The model's
own choices beside these: `inputs` loses the sample the step used (log entry 5), `offer` holds the word
on offer (log entry 6), `delivered` records the response taken (log entry 8), and no response is held
outside RESPOND (log entry 15). No other field changes. -/
def Obligations.PortHandshake : Prop :=
  (∀ s : State, cmdReady s = true ↔ (s.port = .idle ∧ (pinsNow s).rstN = true)) ∧
  (∀ s : State, rspValid s = true ↔ ((∃ r, s.port = .respond r) ∧ (pinsNow s).rstN = true)) ∧
  (∀ (s : State) (r : Response), rspHeld s = some r ↔ s.port = .respond r) ∧
  (∀ d : BitVec 64,
    rspStatus ⟨.ok, d⟩ = 0#4 ∧ rspStatus ⟨.endOfStream, d⟩ = 1#4 ∧ rspStatus ⟨.illegalCommand, d⟩ = 2#4 ∧
    rspStatus ⟨.badOperand, d⟩ = 3#4 ∧ rspStatus ⟨.emptyAlphabet, d⟩ = 4#4 ∧
    rspStatus ⟨.weightOverflow, d⟩ = 5#4 ∧ rspStatus ⟨.noTree, d⟩ = 6#4 ∧ rspStatus ⟨.noCodes, d⟩ = 7#4 ∧
    rspStatus ⟨.symbolNotInTable, d⟩ = 8#4 ∧ rspStatus ⟨.streamOverflow, d⟩ = 9#4 ∧
    rspStatus ⟨.truncatedStream, d⟩ = 10#4 ∧ rspStatus ⟨.invalidCode, d⟩ = 11#4 ∧
    rspStatus ⟨.ratioUndefined, d⟩ = 12#4) ∧
  (∀ r : Response, rspStatus r = statusCode r.status) ∧
  ∀ s : State, (pinsNow s).rstN = true → s.resetSeen = true → offerBroken s = false →
    (s.port = .idle → (pinsNow s).cmdValid = true →
      step s = .next { s with
        port := .busy (pinsNow s).cmdData, inputs := s.inputs.tail, offer := none }) ∧
    (s.port = .idle → (pinsNow s).cmdValid = false →
      step s = .next { s with inputs := s.inputs.tail, offer := none }) ∧
    (∀ r, s.port = .respond r → (pinsNow s).rspReady = true →
      step s = .next { s with
        port := .idle, delivered := s.delivered ++ [r], inputs := s.inputs.tail,
        offer := if (pinsNow s).cmdValid then some (pinsNow s).cmdData else none }) ∧
    (∀ r, s.port = .respond r → (pinsNow s).rspReady = false →
      step s = .next { s with
        inputs := s.inputs.tail,
        offer := if (pinsNow s).cmdValid then some (pinsNow s).cmdData else none })

/-- R134, R136: with rst_n = 0 a step in any phase gives the reset state, delivers no response, and
cmd_ready and rsp_valid are 0. The contents of BITBUF are free anew (log entry 2); NODE, LEN and BITS are
left out, their values are the model's (log entry 3). That the build parameter and `delivered` stay and
that `resetSeen` is set are the model's own (log entries 1, 7, 8, 13). -/
def Obligations.ResetStepGivesResetState : Prop :=
  ∀ s : State, (pinsNow s).rstN = false →
    cmdReady s = false ∧ rspValid s = false ∧
    ∃ t, step s = .next t ∧
      (∀ sym, freqOf t sym = 0#32) ∧ t.root = 0 ∧ t.leafCount = 0#9 ∧ t.nodeCount = 0#9 ∧
      t.totalWeight = 0#32 ∧ t.treeValid = false ∧ t.maxCodeLen = 0#8 ∧ t.codesValid = false ∧
      t.streamLen = 0#32 ∧ t.encSymCount = 0#32 ∧ t.encBitCount = 0#32 ∧ t.decBitPos = 0#32 ∧
      t.decSymCount = 0#32 ∧ t.mFixed = 0#64 ∧ t.mHuff = 0#64 ∧ t.mRatio = 0#64 ∧ t.ratioValid = false ∧
      t.lastErr = 0#4 ∧ t.errMask = 0#16 ∧ t.port = .idle ∧
      t.bitbufWords = s.bitbufWords ∧ t.delivered = s.delivered ∧ t.resetSeen = true ∧
      (∀ w, wordRead t w = Config.bitbufFree (s.bitbufEpoch + 1) w)

/-- R38: the values the spec gives the state after reset. BITBUF, NODE, LEN and BITS have none. -/
def Obligations.ResetStateValues : Prop :=
  (∀ sym, freqOf State.reset sym = 0#32) ∧ State.reset.root = 0 ∧ State.reset.leafCount = 0#9 ∧
  State.reset.nodeCount = 0#9 ∧ State.reset.totalWeight = 0#32 ∧ State.reset.treeValid = false ∧
  State.reset.maxCodeLen = 0#8 ∧ State.reset.codesValid = false ∧ State.reset.streamLen = 0#32 ∧
  State.reset.encSymCount = 0#32 ∧ State.reset.encBitCount = 0#32 ∧ State.reset.decBitPos = 0#32 ∧
  State.reset.decSymCount = 0#32 ∧ State.reset.mFixed = 0#64 ∧ State.reset.mHuff = 0#64 ∧
  State.reset.mRatio = 0#64 ∧ State.reset.ratioValid = false ∧ State.reset.lastErr = 0#4 ∧
  State.reset.errMask = 0#16 ∧ State.reset.port = .idle

/-- The invariants of R39 hold at reset. -/
def Obligations.ResetSatisfiesInvariant : Prop := Inv State.reset

/-- R39: every step keeps the invariants (a) to (f), with the canonical form of the bit buffer, the error
bookkeeping of R28 and R34 and the legal range of the build parameter. -/
def Obligations.StepKeepsInvariant : Prop :=
  ∀ s t : State, Inv s → step s = .next t → Inv t

/-- R63, R133, R143: from every state that meets the invariants, after a first reset and with a host that
keeps its offers, a step answers a next state, and a step in BUSY answers one that holds a response. That
BUSY is one step is the model's choice (log entry 4), and the two premises on the host are where the model
refuses (log entries 6 and 7). -/
def Obligations.EveryStepAnswers : Prop :=
  ∀ s : State, Inv s → s.resetSeen = true → offerBroken s = false →
    ∃ t, step s = .next t ∧
      (∀ w, s.port = .busy w → (pinsNow s).rstN = true → ∃ r, t.port = .respond r)

/-! ### Errors -/

/-- R121, for every word that ends, ILLEGAL_COMMAND among them: the bookkeeping of an error status, and none
for a status of 0 or 1; of the commands CLR_ERR and SOFT_RESET alone clear it. -/
def Obligations.ErrorBookkeeping : Prop :=
  ∀ (w : Command) (s t : State) (e : Status) (d : BitVec 64),
    execWord w s = .next t → t.port = .respond ⟨e, d⟩ →
    (2 ≤ (statusCode e).toNat →
      t.lastErr = statusCode e ∧
      ∀ k, k < 16 → t.errMask.getLsbD k = (s.errMask.getLsbD k || decide (k = (statusCode e).toNat))) ∧
    ((statusCode e).toNat < 2 → decode w ≠ .ok .clrErr → decode w ≠ .ok .softReset →
      t.lastErr = s.lastErr ∧ t.errMask = s.errMask)

/-- R10, R112, R123: after an error the state is the one before, plus the bookkeeping and the response;
RATIO_UNDEFINED alone, of METRICS, keeps its four writes. -/
def Obligations.ErrorLeavesStateAsBefore : Prop :=
  ∀ (i : Instr) (s t : State) (e : Status) (d : BitVec 64),
    exec i s = .next t → t.port = .respond ⟨e, d⟩ → 2 ≤ (statusCode e).toNat →
    (e ≠ .ratioUndefined → t = failed e (statusCode e).toNat s) ∧
    (e = .ratioUndefined →
      (∃ a b, i = .metrics a b) ∧
      t = failed e 12
        { s with mFixed := t.mFixed, mHuff := t.mHuff, mRatio := 0#64, ratioValid := false })

/-- R65, R119: every command that ends leaves a response; its data is 0 unless the status is OK; and each
status comes only from the commands that the table of R119 lists for it. -/
def Obligations.ResponsesPerCommand : Prop :=
  ∀ (i : Instr) (s t : State), exec i s = .next t →
    ∃ (e : Status) (d : BitVec 64), t.port = .respond ⟨e, d⟩ ∧ (e ≠ .ok → d = 0#64) ∧
      (e = .endOfStream → i = .decSym) ∧
      e ≠ .illegalCommand ∧
      (e = .badOperand →
        (∃ a, i = .rdCsr a ∨ i = .ftGet a ∨ i = .nodeGet a ∨ i = .codeLen a ∨ i = .encSym a ∨ i = .bbRead a) ∨
        (∃ a b, i = .ftSet a b ∨ i = .codeGet a b ∨ i = .bbWrite a b ∨ i = .metrics a b) ∨
        (∃ b, i = .bbSetLen b)) ∧
      (e = .emptyAlphabet ∨ e = .weightOverflow → i = .build) ∧
      (e = .noTree → (∃ a, i = .nodeGet a) ∨ i = .genCodes ∨ i = .decSym) ∧
      (e = .noCodes →
        (∃ a, i = .codeLen a ∨ i = .encSym a) ∨ (∃ a b, i = .codeGet a b) ∨ (∃ b, i = .metrics 1#16 b)) ∧
      (e = .symbolNotInTable ∨ e = .streamOverflow → ∃ a, i = .encSym a) ∧
      (e = .truncatedStream ∨ e = .invalidCode → i = .decSym) ∧
      (e = .ratioUndefined → ∃ a b, i = .metrics a b)

/-- R66, R70, R122: an operand outside its static range ends the command with BAD_OPERAND, before any
check of the state. FT_SET's count and BB_WRITE's data have no range. -/
def Obligations.OutOfRangeOperandRaises : Prop :=
  ∀ (s : State) (a : BitVec 16) (b : BitVec 32),
    (0x00F < a.toNat → exec (.rdCsr a) s = .next (failed .badOperand 3 s)) ∧
    (255 < a.toNat → exec (.ftSet a b) s = .next (failed .badOperand 3 s) ∧
      exec (.ftGet a) s = .next (failed .badOperand 3 s) ∧
      exec (.codeLen a) s = .next (failed .badOperand 3 s) ∧
      exec (.encSym a) s = .next (failed .badOperand 3 s)) ∧
    (510 < a.toNat → exec (.nodeGet a) s = .next (failed .badOperand 3 s)) ∧
    (255 < a.toNat ∨ 3 < b.toNat → exec (.codeGet a b) s = .next (failed .badOperand 3 s)) ∧
    (s.bitbufWords ≤ a.toNat → exec (.bbRead a) s = .next (failed .badOperand 3 s) ∧
      exec (.bbWrite a b) s = .next (failed .badOperand 3 s)) ∧
    (32 * s.bitbufWords < b.toNat → exec (.bbSetLen b) s = .next (failed .badOperand 3 s)) ∧
    (1 < a.toNat ∨ 255 < b.toNat → exec (.metrics a b) s = .next (failed .badOperand 3 s))

/-! ### Whole-machine rules -/

/-- R18 to R28, and the frame of every command: which commands may change each register or array; every
other command leaves it as it was, every word of the bit buffer among them. The build parameter and the
model's own fields are changed by none. -/
def Obligations.RegisterWriters : Prop :=
  ∀ (i : Instr) (s t : State), exec i s = .next t →
    (i ≠ .ftClear → i ≠ .softReset → (∀ a c, i ≠ .ftSet a c) → t.freq = s.freq) ∧
    (i ≠ .build → t.node = s.node) ∧
    (i ≠ .build → i ≠ .softReset →
      t.root = s.root ∧ t.leafCount = s.leafCount ∧ t.nodeCount = s.nodeCount ∧
      t.totalWeight = s.totalWeight) ∧
    (i ≠ .build → i ≠ .ftClear → i ≠ .softReset → (∀ a c, i ≠ .ftSet a c) → t.treeValid = s.treeValid) ∧
    (i ≠ .genCodes → t.len = s.len ∧ t.bits = s.bits) ∧
    (i ≠ .genCodes → i ≠ .softReset → t.maxCodeLen = s.maxCodeLen) ∧
    (i ≠ .genCodes → i ≠ .build → i ≠ .ftClear → i ≠ .softReset → (∀ a c, i ≠ .ftSet a c) →
      t.codesValid = s.codesValid) ∧
    ((∀ a, i ≠ .encSym a) → (∀ a d, i ≠ .bbWrite a d) →
      t.bitbuf = s.bitbuf ∧ ∀ w, wordRead t w = wordRead s w) ∧
    ((∀ a, i ≠ .encSym a) → (∀ n, i ≠ .bbSetLen n) → i ≠ .encReset → i ≠ .softReset →
      t.streamLen = s.streamLen) ∧
    ((∀ a, i ≠ .encSym a) → i ≠ .encReset → i ≠ .softReset →
      t.encSymCount = s.encSymCount ∧ t.encBitCount = s.encBitCount) ∧
    (i ≠ .decSym → i ≠ .decReset → i ≠ .softReset →
      t.decBitPos = s.decBitPos ∧ t.decSymCount = s.decSymCount) ∧
    ((∀ a b, i ≠ .metrics a b) → i ≠ .softReset →
      t.mFixed = s.mFixed ∧ t.mHuff = s.mHuff ∧ t.mRatio = s.mRatio ∧ t.ratioValid = s.ratioValid) ∧
    t.bitbufWords = s.bitbufWords ∧ t.bitbufEpoch = s.bitbufEpoch ∧ t.resetSeen = s.resetSeen ∧
    t.inputs = s.inputs ∧ t.offer = s.offer ∧ t.delivered = s.delivered

/-- R21, R23, R32: what a command that completes does to TREE_VALID and CODES_VALID. -/
def Obligations.ValidityFlagsFollowTable : Prop :=
  ∀ (i : Instr) (s t : State) (d : BitVec 64),
    exec i s = .next t → t.port = .respond ⟨.ok, d⟩ →
    (i = .build → t.treeValid = true ∧ t.codesValid = false) ∧
    (i = .genCodes → t.treeValid = s.treeValid ∧ t.codesValid = true) ∧
    ((i = .ftClear ∨ i = .softReset ∨ ∃ a c, i = .ftSet a c) →
      t.treeValid = false ∧ t.codesValid = false) ∧
    (i ≠ .build → i ≠ .genCodes → i ≠ .ftClear → i ≠ .softReset → (∀ a c, i ≠ .ftSet a c) →
      t.treeValid = s.treeValid ∧ t.codesValid = s.codesValid)

/-- R52: the reading commands change nothing but the port and, when they raise an error, the error
bookkeeping; a second identical read gives the same response. -/
def Obligations.ReadsHaveNoSideEffect : Prop :=
  ∀ (a : BitVec 16) (b : BitVec 32) (i : Instr) (s t : State),
    i ∈ [Instr.ftGet a, .nodeGet a, .codeLen a, .codeGet a b, .bbRead a, .rdCsr a] →
    exec i s = .next t →
    t = { s with port := t.port, lastErr := t.lastErr, errMask := t.errMask } ∧
    (∀ d, t.port = .respond ⟨.ok, d⟩ → t = answered d s) ∧
    ∃ u, exec i t = .next u ∧ u.port = t.port

/-! ### Control commands and CSRs -/

/-- R115: NOP completes with 0 and changes nothing else; the all-zero word is its only legal word. -/
def Obligations.NopChangesNothing : Prop :=
  (∀ s : State, exec .nop s = .next (answered 0#64 s)) ∧
  (∀ w : Command, opcField w = 0x00#8 →
    (decode w = .ok .nop ↔ w = 0x0000000000000000#64) ∧ (w ≠ 0x0000000000000000#64 → illegalWord w))

/-- R33, R35, R116: RD_CSR of each implemented number completes with that register's value, zero-extended,
and changes nothing else. STATUS and HW_PARAMS have statements of their own. -/
def Obligations.CsrReadsGiveRegisters : Prop :=
  ∀ s : State,
    exec (.rdCsr 0x000#16) s = .next (answered 0x0000000048554646#64 s) ∧
    exec (.rdCsr 0x003#16) s = .next (answered (BitVec.ofNat 64 s.root.val) s) ∧
    exec (.rdCsr 0x004#16) s = .next (answered (BitVec.ofNat 64 s.leafCount.toNat) s) ∧
    exec (.rdCsr 0x005#16) s = .next (answered (BitVec.ofNat 64 s.nodeCount.toNat) s) ∧
    exec (.rdCsr 0x006#16) s = .next (answered (BitVec.ofNat 64 s.totalWeight.toNat) s) ∧
    exec (.rdCsr 0x007#16) s = .next (answered (BitVec.ofNat 64 s.maxCodeLen.toNat) s) ∧
    exec (.rdCsr 0x008#16) s = .next (answered (BitVec.ofNat 64 s.streamLen.toNat) s) ∧
    exec (.rdCsr 0x009#16) s = .next (answered (BitVec.ofNat 64 s.encSymCount.toNat) s) ∧
    exec (.rdCsr 0x00A#16) s = .next (answered (BitVec.ofNat 64 s.encBitCount.toNat) s) ∧
    exec (.rdCsr 0x00B#16) s = .next (answered (BitVec.ofNat 64 s.decBitPos.toNat) s) ∧
    exec (.rdCsr 0x00C#16) s = .next (answered (BitVec.ofNat 64 s.decSymCount.toNat) s) ∧
    exec (.rdCsr 0x00D#16) s = .next (answered s.mFixed s) ∧
    exec (.rdCsr 0x00E#16) s = .next (answered s.mHuff s) ∧
    exec (.rdCsr 0x00F#16) s = .next (answered s.mRatio s)

/-- R34: RD_CSR of STATUS completes with the flags in bits 0 to 2, LAST_ERR in [7:4], ERR_MASK in [31:16]
and 0 in every reserved bit; where the invariants hold the fields have their legal values. -/
def Obligations.StatusCsrFields : Prop :=
  ∀ s : State, ∃ v : BitVec 64,
    exec (.rdCsr 0x002#16) s = .next (answered v s) ∧
    v.toNat = s.treeValid.toNat + 2 * s.codesValid.toNat + 4 * s.ratioValid.toNat
      + 2 ^ 4 * s.lastErr.toNat + 2 ^ 16 * s.errMask.toNat ∧
    (Inv s → (s.lastErr = 0#4 ∨ (2 ≤ s.lastErr.toNat ∧ s.lastErr.toNat ≤ 12)) ∧
      ∀ k, k ∈ [16, 17, 29, 30, 31] → v.getLsbD k = false)

/-- R36: the fields of HW_PARAMS for every legal BITBUF_WORDS, and its value at the default 1024. -/
def Obligations.HwParamsFields : Prop :=
  ∀ s : State, 1 ≤ s.bitbufWords → s.bitbufWords ≤ 65536 →
    ∃ v : BitVec 64, exec (.rdCsr 0x001#16) s = .next (answered v s) ∧
      v.extractLsb' 0 8 = 8#8 ∧ v.extractLsb' 8 8 = 32#8 ∧ v.extractLsb' 16 8 = 255#8 ∧
      v.extractLsb' 24 8 = 1#8 ∧ (v.extractLsb' 32 17).toNat = s.bitbufWords ∧
      v.extractLsb' 49 15 = 0#15 ∧
      (s.bitbufWords = 1024 → v = 0x0000040001FF2008#64)

/-- R117: CLR_ERR clears the bookkeeping and nothing else; a malformed CLR_ERR sets ERR_MASK bit 2 and
clears nothing; its example. -/
def Obligations.ClrErrClearsBookkeeping : Prop :=
  (∀ s : State, exec .clrErr s = .next (answered 0#64 { s with lastErr := 0#4, errMask := 0#16 })) ∧
  (∀ (w : Command) (s : State), opcField w = 0x02#8 →
    (w = 0x0200000000000000#64 → execWord w s = exec .clrErr s) ∧
    (w ≠ 0x0200000000000000#64 → execWord w s = .next (failed .illegalCommand 2 s))) ∧
  (∃ t u, exec .build State.reset = .next t ∧ statusCsr t = 0x0000000000100040#64 ∧
    exec .clrErr t = .next u ∧ statusCsr u = 0#64)

/-- R118: SOFT_RESET completes with 0; every element of R38 takes its reset value but BITBUF, NODE, LEN and
BITS, which stay; a malformed one resets nothing; and its example. That the port then holds the response
and that the model's own fields stay is log entry 14. -/
def Obligations.SoftResetGivesResetState : Prop :=
  (∀ s : State, ∃ t,
    exec .softReset s = .next t ∧ t.port = .respond ⟨.ok, 0#64⟩ ∧
    (∀ sym, freqOf t sym = 0#32) ∧
    t = { s with
      freq := t.freq, root := 0, leafCount := 0#9, nodeCount := 0#9, totalWeight := 0#32,
      treeValid := false, maxCodeLen := 0#8, codesValid := false, streamLen := 0#32,
      encSymCount := 0#32, encBitCount := 0#32, decBitPos := 0#32, decSymCount := 0#32,
      mFixed := 0#64, mHuff := 0#64, mRatio := 0#64, ratioValid := false, lastErr := 0#4,
      errMask := 0#16, port := t.port } ∧
    exec (.ftGet 0x41#16) t = .next (answered 0#64 t) ∧
    exec .decSym t = .next (failed .noTree 6 t)) ∧
  (∀ (w : Command) (s : State), opcField w = 0x03#8 →
    (w = 0x0300000000000000#64 → execWord w s = exec .softReset s) ∧
    (w ≠ 0x0300000000000000#64 → execWord w s = .next (failed .illegalCommand 2 s)))

/-! ### Frequency table -/

/-- R75: FT_CLEAR empties FREQ and clears both validity flags, whatever they were, and changes nothing
else; its only legal word; its example. -/
def Obligations.FtClearEmptiesTable : Prop :=
  (∀ s : State, ∃ t,
    exec .ftClear s = .next t ∧ (∀ sym, freqOf t sym = 0#32) ∧
    t = answered 0#64 { s with freq := t.freq, treeValid := false, codesValid := false } ∧
    exec (.ftGet 0x41#16) t = .next (answered 0#64 t) ∧
    exec .build t = .next (failed .emptyAlphabet 4 t)) ∧
  (∀ w : Command, opcField w = 0x10#8 →
    (decode w = .ok .ftClear ↔ w = 0x1000000000000000#64) ∧ (w ≠ 0x1000000000000000#64 → illegalWord w))

/-- R76: FT_SET writes one count, 0 and the old value included, clears both validity flags and changes
nothing else; its words and its two errors; its example. -/
def Obligations.FtSetWritesCount : Prop :=
  (∀ (s : State) (a : BitVec 16) (c : BitVec 32), a.toNat ≤ 255 → ∃ t,
    exec (.ftSet a c) s = .next t ∧
    (∀ x : Symbol, freqOf t x = if x = a.setWidth 8 then c else freqOf s x) ∧
    t = answered 0#64 { s with freq := t.freq, treeValid := false, codesValid := false }) ∧
  (∀ (s : State) (a : BitVec 16) (c : BitVec 32), 255 < a.toNat →
    exec (.ftSet a c) s = .next (failed .badOperand 3 s)) ∧
  (∀ w : Command, opcField w = 0x11#8 →
    (rsvField w = 0#8 → decode w = .ok (.ftSet (aField w) (bField w))) ∧
    (rsvField w ≠ 0#8 → illegalWord w)) ∧
  decode 0x110000410000002D#64 = .ok (.ftSet 0x41#16 45#32)

/-- R77: FT_GET completes with the count, 0 for a symbol without an entry, whatever the validity flags,
and changes nothing; its words and its errors; its example. -/
def Obligations.FtGetReadsCount : Prop :=
  (∀ (s : State) (a : BitVec 16), a.toNat ≤ 255 →
    exec (.ftGet a) s = .next (answered (BitVec.ofNat 64 (freqOf s (a.setWidth 8)).toNat) s)) ∧
  (∀ (s : State) (a : BitVec 16), 255 < a.toNat → exec (.ftGet a) s = .next (failed .badOperand 3 s)) ∧
  (∀ w : Command, opcField w = 0x12#8 →
    (rsvField w = 0#8 → bField w = 0#32 → decode w = .ok (.ftGet (aField w))) ∧
    (rsvField w ≠ 0#8 ∨ bField w ≠ 0#32 → illegalWord w)) ∧
  (∀ s t : State, exec (.ftSet 0x4A#16 1#32) s = .next t →
    execWord 0x1200004A00000000#64 t = .next (answered 1#64 t))

/-! ### Tree builder -/

/-- R79: an empty alphabet is EMPTY_ALPHABET, checked first; a total above 2^32 − 1 is WEIGHT_OVERFLOW; both
change only the bookkeeping. -/
def Obligations.BuildFailures : Prop :=
  ∀ s : State,
    ((∀ sym, freqOf s sym = 0#32) → exec .build s = .next (failed .emptyAlphabet 4 s)) ∧
    ((∃ sym, freqOf s sym ≠ 0#32) → 2 ^ 32 - 1 < totalCount s.freq →
      exec .build s = .next (failed .weightOverflow 5 s))

/-- R78: with a nonempty alphabet of K symbols whose total fits, BUILD completes: ROOT = 2K − 2,
LEAF_COUNT = K, NODE_COUNT = 2K − 1, TOTAL_WEIGHT the total of FREQ, the flags, the response data; the
records at and above NODE_COUNT and everything else stay. -/
def Obligations.BuildCompletes : Prop :=
  ∀ s : State, (∃ sym, freqOf s sym ≠ 0#32) → totalCount s.freq ≤ 2 ^ 32 - 1 →
    1 ≤ alphabetSize s ∧ alphabetSize s ≤ 256 ∧
    ∃ t, exec .build s = .next t ∧
      t.root.val = 2 * alphabetSize s - 2 ∧
      t.leafCount.toNat = alphabetSize s ∧
      t.nodeCount.toNat = 2 * alphabetSize s - 1 ∧
      t.totalWeight.toNat = totalCount s.freq ∧
      t.totalWeight = nodeWeight t.node[t.root] ∧
      t.port = .respond ⟨.ok, BitVec.ofNat 64
        (2 ^ 48 * t.root.val + 2 ^ 32 * alphabetSize s + totalCount s.freq)⟩ ∧
      (∀ j : NodeIdx, 2 * alphabetSize s - 1 ≤ j.val → t.node[j] = s.node[j]) ∧
      t = { s with
        node := t.node, root := t.root, leafCount := t.leafCount, nodeCount := t.nodeCount,
        totalWeight := t.totalWeight, treeValid := true, codesValid := false, port := t.port }

/-- R85, for a BUILD that completes with K leaves: the leaves in ascending symbol order, then the internal
nodes; children come before their parent and differ; every index below 2K − 2 is the child of exactly one
node; ROOT = 2K − 2 is nobody's child; no leaf is deeper than K − 1. -/
def Obligations.BuiltTreeShape : Prop :=
  ∀ (s t : State) (d : BitVec 64), exec .build s = .next t → t.port = .respond ⟨.ok, d⟩ →
    (∀ j : NodeIdx, j.val < alphabetSize s →
      t.node[j] = .leaf (nodeSym t.node[j]) (freqOf s (nodeSym t.node[j])) ∧
      freqOf s (nodeSym t.node[j]) ≠ 0#32) ∧
    (∀ i j : NodeIdx, i.val < j.val → j.val < alphabetSize s →
      (nodeSym t.node[i]).toNat < (nodeSym t.node[j]).toNat) ∧
    (∀ sym, freqOf s sym ≠ 0#32 → ∃ j : NodeIdx, j.val < alphabetSize s ∧ nodeSym t.node[j] = sym) ∧
    (∀ j : NodeIdx, alphabetSize s ≤ j.val → j.val < 2 * alphabetSize s - 1 →
      ∃ w l r, t.node[j] = .internal w l r ∧ l.val < j.val ∧ r.val < j.val ∧ l ≠ r) ∧
    (∀ i : NodeIdx, i.val < 2 * alphabetSize s - 2 →
      ∃ j : NodeIdx, (j.val < 2 * alphabetSize s - 1 ∧ childOf i t.node[j]) ∧
        ∀ j' : NodeIdx, j'.val < 2 * alphabetSize s - 1 → childOf i t.node[j'] → j' = j) ∧
    t.root.val = 2 * alphabetSize s - 2 ∧
    (∀ j : NodeIdx, j.val < 2 * alphabetSize s - 1 → ¬ childOf t.root t.node[j]) ∧
    (∀ (c : Code) (sym : Symbol), leadsTo t.node t.root c sym → c.length ≤ alphabetSize s - 1) ∧
    alphabetSize s - 1 ≤ 255

/-- R40, for every state that meets the invariants with TREE_VALID = 1: a full binary tree whose internal
weights are the exact sums, one parent for each node but the root, no cycle, and TOTAL_WEIGHT the total
of FREQ, below 2^32. -/
def Obligations.ValidTreeInvariants : Prop :=
  ∀ s : State, Inv s → s.treeValid = true →
    (∀ (j : NodeIdx) (w : Weight) (l r : NodeIdx), j.val < s.nodeCount.toNat →
      s.node[j] = .internal w l r →
      l ≠ r ∧ l.val < j.val ∧ r.val < j.val ∧
      w.toNat = (nodeWeight s.node[l]).toNat + (nodeWeight s.node[r]).toNat) ∧
    (∀ i : NodeIdx, i.val < s.nodeCount.toNat → i ≠ s.root →
      ∃ j : NodeIdx, (j.val < s.nodeCount.toNat ∧ childOf i s.node[j]) ∧
        ∀ j' : NodeIdx, j'.val < s.nodeCount.toNat → childOf i s.node[j'] → j' = j) ∧
    s.totalWeight.toNat = totalCount s.freq ∧ totalCount s.freq < 2 ^ 32

/-- R78, R80, R81: at the merge that makes node `j`, LEFT precedes RIGHT by (WEIGHT, index), and RIGHT
precedes every other node that exists and is not yet the child of an earlier node. -/
def Obligations.MergesTakeTheTwoLeast : Prop :=
  ∀ (s t : State) (d : BitVec 64), exec .build s = .next t → t.port = .respond ⟨.ok, d⟩ →
    ∀ (j : NodeIdx) (w : Weight) (l r : NodeIdx),
      alphabetSize s ≤ j.val → j.val < 2 * alphabetSize s - 1 → t.node[j] = .internal w l r →
      ((nodeWeight t.node[l]).toNat < (nodeWeight t.node[r]).toNat ∨
        ((nodeWeight t.node[l]).toNat = (nodeWeight t.node[r]).toNat ∧ l.val < r.val)) ∧
      (∀ x : NodeIdx, x.val < j.val → x ≠ l → x ≠ r →
        (∀ j' : NodeIdx, j'.val < j.val → ¬ childOf x t.node[j']) →
        (nodeWeight t.node[r]).toNat < (nodeWeight t.node[x]).toNat ∨
          ((nodeWeight t.node[r]).toNat = (nodeWeight t.node[x]).toNat ∧ r.val < x.val))

/-- R82: for an alphabet of one symbol the single leaf is the root. -/
def Obligations.SingleSymbolTree : Prop :=
  ∀ (s : State) (sym : Symbol), freqOf s sym ≠ 0#32 → (∀ x, x ≠ sym → freqOf s x = 0#32) →
    ∃ t, exec .build s = .next t ∧ t.root = 0 ∧ t.node[(0 : NodeIdx)] = .leaf sym (freqOf s sym) ∧
      t.leafCount = 1#9 ∧ t.nodeCount = 1#9 ∧ t.treeValid = true

/-- R83: the tree BUILD makes has the least weighted path length among all full binary trees whose leaf
weights are the nonzero counts of FREQ. -/
def Obligations.BuildIsOptimal : Prop :=
  ∀ (s t : State) (d : BitVec 64), exec .build s = .next t → t.port = .respond ⟨.ok, d⟩ →
    ∃ leaves, visit t.node Config.nNodes t.root [] = some leaves ∧
      ∀ T : WeightTree, (leafWeights T).Perm ((alphabet s.freq).map fun e => e.2.toNat) →
        pathLength s leaves ≤ pathLengthAt 0 T

/-- R84: NODE_GET's checks in their order, its packed record, and that it changes nothing else; its words;
its examples. -/
def Obligations.NodeGetReadsRecord : Prop :=
  (∀ (s : State) (a : BitVec 16),
    (510 < a.toNat → exec (.nodeGet a) s = .next (failed .badOperand 3 s)) ∧
    (a.toNat ≤ 510 → s.treeValid = false → exec (.nodeGet a) s = .next (failed .noTree 6 s)) ∧
    (a.toNat ≤ 510 → s.treeValid = true → s.nodeCount.toNat ≤ a.toNat →
      exec (.nodeGet a) s = .next (failed .badOperand 3 s)) ∧
    (∀ i : NodeIdx, i.val = a.toNat → s.treeValid = true → a.toNat < s.nodeCount.toNat →
      (∀ sym w, s.node[i] = .leaf sym w →
        exec (.nodeGet a) s = .next (answered (BitVec.ofNat 64 (2 ^ 50 * sym.toNat + w.toNat)) s)) ∧
      (∀ w l r, s.node[i] = .internal w l r →
        exec (.nodeGet a) s = .next (answered
          (BitVec.ofNat 64 (2 ^ 63 + 2 ^ 41 * r.val + 2 ^ 32 * l.val + w.toNat)) s)))) ∧
  (∀ w : Command, opcField w = 0x21#8 →
    (rsvField w = 0#8 → bField w = 0#32 → decode w = .ok (.nodeGet (aField w))) ∧
    (rsvField w ≠ 0#8 ∨ bField w ≠ 0#32 → illegalWord w)) ∧
  packNode (.internal 3#32 9 8) = 0x8000100900000003#64 ∧
  packNode (.leaf 0x41#8 45#32) = 0x010400000000002D#64

/-! ### Code table -/

/-- R89, R91: GEN_CODES without a tree is NO_TREE; with a current tree it completes: a symbol outside the
alphabet gets LEN = 0 and BITS = 0, a symbol of the alphabet gets the edge bits of the path from ROOT to
its leaf, MAX_CODE_LEN is the longest, and nothing else changes. -/
def Obligations.GenCodesGivesPathCodes : Prop :=
  (∀ s : State, s.treeValid = false → exec .genCodes s = .next (failed .noTree 6 s)) ∧
  ∀ s : State, Inv s → s.treeValid = true → ∃ t,
    exec .genCodes s = .next t ∧
    t = answered (BitVec.ofNat 64 t.maxCodeLen.toNat)
      { s with len := t.len, bits := t.bits, maxCodeLen := t.maxCodeLen, codesValid := true } ∧
    (∀ sym, freqOf s sym = 0#32 → lenOf t sym = 0#8 ∧ bitsOf t sym = 0#256) ∧
    (2 ≤ alphabetSize s → ∀ sym, freqOf s sym ≠ 0#32 → leadsTo s.node s.root (tableCode t sym) sym) ∧
    (∀ sym, (lenOf t sym).toNat ≤ t.maxCodeLen.toNat) ∧
    (∃ sym, lenOf t sym = t.maxCodeLen)

/-- R90: when the root is a leaf its symbol receives the one-bit code "0", never the empty string. -/
def Obligations.SingleLeafCode : Prop :=
  ∀ (s : State) (sym : Symbol) (w : Weight), s.treeValid = true → s.node[s.root] = .leaf sym w →
    ∃ t, exec .genCodes s = .next t ∧ t.port = .respond ⟨.ok, 1#64⟩ ∧
      lenOf t sym = 1#8 ∧ bitsOf t sym = 0#256 ∧ tableCode t sym = [false] ∧
      (∀ x, x ≠ sym → lenOf t x = 0#8)

/-- R92, R41: with a current code table, exactly the symbols of the alphabet have a code, and they are the
leaf symbols of the tree; no code is a prefix of another, and every code has at least one bit. -/
def Obligations.CodesArePrefixFree : Prop :=
  ∀ s : State, Inv s → s.codesValid = true →
    (∀ sym, lenOf s sym ≠ 0#8 ↔ freqOf s sym ≠ 0#32) ∧
    (∀ sym, lenOf s sym ≠ 0#8 ↔
      ∃ (j : NodeIdx) (w : Weight), j.val < s.nodeCount.toNat ∧ s.node[j] = .leaf sym w) ∧
    (∀ x y, x ≠ y → lenOf s x ≠ 0#8 → lenOf s y ≠ 0#8 → ¬ (tableCode s x <+: tableCode s y)) ∧
    (∀ sym, freqOf s sym ≠ 0#32 → 1 ≤ (tableCode s sym).length)

/-- R93, R22: with a current code table no code is longer than K − 1 bits (1 when K = 1), the bits of BITS
at and above LEN are 0, bit 255 among them, and MAX_CODE_LEN is the longest length. -/
def Obligations.CodeLengthsAreBounded : Prop :=
  ∀ s : State, Inv s → s.codesValid = true →
    (2 ≤ alphabetSize s → ∀ sym, (lenOf s sym).toNat ≤ alphabetSize s - 1) ∧
    alphabetSize s - 1 ≤ 255 ∧
    (alphabetSize s = 1 → ∀ sym, freqOf s sym ≠ 0#32 → lenOf s sym = 1#8) ∧
    (∀ sym k, (lenOf s sym).toNat ≤ k → (bitsOf s sym).getLsbD k = false) ∧
    (∀ sym, (bitsOf s sym).getLsbD 255 = false) ∧
    (∀ sym, (lenOf s sym).toNat ≤ s.maxCodeLen.toNat) ∧ (∃ sym, lenOf s sym = s.maxCodeLen)

/-- R94: CODE_LEN's checks, its value (0 for a symbol outside the table), its words. -/
def Obligations.CodeLenReadsLength : Prop :=
  (∀ (s : State) (a : BitVec 16),
    (255 < a.toNat → exec (.codeLen a) s = .next (failed .badOperand 3 s)) ∧
    (a.toNat ≤ 255 → s.codesValid = false → exec (.codeLen a) s = .next (failed .noCodes 7 s)) ∧
    (a.toNat ≤ 255 → s.codesValid = true →
      exec (.codeLen a) s = .next (answered (BitVec.ofNat 64 (lenOf s (a.setWidth 8)).toNat) s))) ∧
  (∀ w : Command, opcField w = 0x31#8 →
    (rsvField w = 0#8 → bField w = 0#32 → decode w = .ok (.codeLen (aField w))) ∧
    (rsvField w ≠ 0#8 ∨ bField w ≠ 0#32 → illegalWord w))

/-- R95: CODE_GET's checks, its window of BITS, its words. -/
def Obligations.CodeGetReadsWindow : Prop :=
  (∀ (s : State) (a : BitVec 16) (b : BitVec 32),
    (255 < a.toNat ∨ 3 < b.toNat → exec (.codeGet a b) s = .next (failed .badOperand 3 s)) ∧
    (a.toNat ≤ 255 → b.toNat ≤ 3 → s.codesValid = false →
      exec (.codeGet a b) s = .next (failed .noCodes 7 s)) ∧
    (a.toNat ≤ 255 → b.toNat ≤ 3 → s.codesValid = true → ∃ d,
      exec (.codeGet a b) s = .next (answered d s) ∧
      ∀ k, k < 64 → d.getLsbD k = (bitsOf s (a.setWidth 8)).getLsbD (64 * b.toNat + k))) ∧
  (∀ w : Command, opcField w = 0x32#8 →
    (rsvField w = 0#8 → decode w = .ok (.codeGet (aField w) (bField w))) ∧
    (rsvField w ≠ 0#8 → illegalWord w))

/-! ### Encoder and bit buffer -/

/-- R96: ENC_RESET zeroes STREAM_LEN and the encoder counters and nothing else, so DEC_SYM then reports
END_OF_STREAM; its only legal word; its example. -/
def Obligations.EncResetStartsStream : Prop :=
  (∀ s : State, ∃ t,
    exec .encReset s = .next t ∧
    t = answered 0#64 { s with streamLen := 0#32, encSymCount := 0#32, encBitCount := 0#32 } ∧
    (s.treeValid = true → exec .decSym t = .next { t with port := .respond ⟨.endOfStream, 0#64⟩ }) ∧
    exec (.rdCsr 0x008#16) t = .next (answered 0#64 t) ∧
    exec (.rdCsr 0x009#16) t = .next (answered 0#64 t) ∧
    exec (.rdCsr 0x00A#16) t = .next (answered 0#64 t)) ∧
  (∀ w : Command, opcField w = 0x40#8 →
    (decode w = .ok .encReset ↔ w = 0x4000000000000000#64) ∧ (w ≠ 0x4000000000000000#64 → illegalWord w))

/-- R98, R122: ENC_SYM's own checks in their order; each appends no bit and changes no counter. -/
def Obligations.EncSymFailures : Prop :=
  ∀ (s : State) (a : BitVec 16), a.toNat ≤ 255 →
    (s.codesValid = false → exec (.encSym a) s = .next (failed .noCodes 7 s)) ∧
    (s.codesValid = true → lenOf s (a.setWidth 8) = 0#8 →
      exec (.encSym a) s = .next (failed .symbolNotInTable 8 s)) ∧
    (s.codesValid = true → lenOf s (a.setWidth 8) ≠ 0#8 →
      32 * s.bitbufWords < s.streamLen.toNat + (lenOf s (a.setWidth 8)).toNat →
      exec (.encSym a) s = .next (failed .streamOverflow 9 s))

/-- R98, R25: an ENC_SYM whose code fits completes with the number of bits appended; STREAM_LEN grows by it,
the counters advance modulo 2^32, and nothing but these and the bit buffer changes. -/
def Obligations.EncSymCompletes : Prop :=
  ∀ (s : State) (a : BitVec 16), a.toNat ≤ 255 → s.codesValid = true →
    lenOf s (a.setWidth 8) ≠ 0#8 → s.bitbufWords ≤ 65536 →
    s.streamLen.toNat + (lenOf s (a.setWidth 8)).toNat ≤ 32 * s.bitbufWords →
    ∃ t, exec (.encSym a) s = .next t ∧
      t.streamLen.toNat = s.streamLen.toNat + (lenOf s (a.setWidth 8)).toNat ∧
      t.encSymCount.toNat = (s.encSymCount.toNat + 1) % 2 ^ 32 ∧
      t.encBitCount.toNat = (s.encBitCount.toNat + (lenOf s (a.setWidth 8)).toNat) % 2 ^ 32 ∧
      t = answered (BitVec.ofNat 64 (lenOf s (a.setWidth 8)).toNat)
        { s with bitbuf := t.bitbuf, streamLen := t.streamLen, encSymCount := t.encSymCount,
                 encBitCount := t.encBitCount }

/-- R97, R98: the bits ENC_SYM appends at stream positions p0 to p0 + L − 1; below p0 nothing changes; a
word the packer enters at bit offset 0 is 0 after the last appended bit, and every other position keeps
its bit. -/
def Obligations.EncSymPacksBits : Prop :=
  ∀ (s t : State) (a : BitVec 16) (d : BitVec 64),
    s.bitbufWords ≤ 65536 → exec (.encSym a) s = .next t → t.port = .respond ⟨.ok, d⟩ →
    streamHas t s.streamLen.toNat (tableCode s (a.setWidth 8)) ∧
    (∀ p, p < s.streamLen.toNat → bitAt t p = bitAt s p) ∧
    (∀ p, s.streamLen.toNat + (lenOf s (a.setWidth 8)).toNat ≤ p →
      bitAt t p =
        if s.streamLen.toNat ≤ p / 32 * 32 ∧
            p / 32 * 32 < s.streamLen.toNat + (lenOf s (a.setWidth 8)).toNat then false
        else bitAt s p)

/-- R99: when ENC_SYM of each symbol of a sequence completes, the stream holds their codes, concatenated in
order, from the old STREAM_LEN on; every position below is unchanged, and STREAM_LEN has grown by their
lengths. -/
def Obligations.EncodingConcatenatesCodes : Prop :=
  ∀ (s t : State) (syms : List Symbol) (ds : List (BitVec 64)),
    s.codesValid = true → s.bitbufWords ≤ 65536 →
    completeAll (encodeSeq syms) s = some (t, ds) →
    streamHas t s.streamLen.toNat (codeSeq s syms) ∧
    (∀ p, p < s.streamLen.toNat → bitAt t p = bitAt s p) ∧
    t.streamLen.toNat = s.streamLen.toNat + (codeSeq s syms).length

/-- R100: BB_READ completes with the word, whatever STREAM_LEN, and changes nothing; its words and errors.
A word not written since reset reads as the free value (log entry 2), whatever it is. -/
def Obligations.BbReadReadsWord : Prop :=
  (∀ (s : State) (a : BitVec 16), a.toNat < s.bitbufWords →
    exec (.bbRead a) s = .next (answered (BitVec.ofNat 64 (wordRead s a.toNat).toNat) s)) ∧
  (∀ (s : State) (a : BitVec 16), s.bitbufWords ≤ a.toNat →
    exec (.bbRead a) s = .next (failed .badOperand 3 s)) ∧
  (∀ w : Command, opcField w = 0x50#8 →
    (rsvField w = 0#8 → bField w = 0#32 → decode w = .ok (.bbRead (aField w))) ∧
    (rsvField w ≠ 0#8 ∨ bField w ≠ 0#32 → illegalWord w))

/-- R101, R45, R46, R49: BB_WRITE writes one word; every other word stays; stream position p is bit
31 − (p & 31) of word p >> 5; nothing but BITBUF changes; its words and errors; its example. -/
def Obligations.BbWriteWritesWord : Prop :=
  (∀ (s : State) (a : BitVec 16) (v : BitVec 32), a.toNat < s.bitbufWords → ∃ t,
    exec (.bbWrite a v) s = .next t ∧
    (∀ w, wordRead t w = if w = a.toNat then v else wordRead s w) ∧
    (∀ p, p / 32 = a.toNat → bitRead t p = some (v.getLsbD (31 - p % 32))) ∧
    (∀ p, p / 32 ≠ a.toNat → bitRead t p = bitRead s p) ∧
    t = answered 0#64 { s with bitbuf := t.bitbuf }) ∧
  (∀ (s : State) (a : BitVec 16) (v : BitVec 32), s.bitbufWords ≤ a.toNat →
    exec (.bbWrite a v) s = .next (failed .badOperand 3 s)) ∧
  (∀ w : Command, opcField w = 0x51#8 →
    (rsvField w = 0#8 → decode w = .ok (.bbWrite (aField w) (bField w))) ∧
    (rsvField w ≠ 0#8 → illegalWord w)) ∧
  (∀ s : State, 1 ≤ s.bitbufWords → ∃ t u,
    execWord 0x5100000068000000#64 s = .next t ∧ execWord 0x5200000000000005#64 t = .next u ∧
    u.streamLen = 5#32 ∧ streamHas u 0 [false, true, true, false, true])

/-- R102: BB_SETLEN sets STREAM_LEN and nothing else; DEC_BITPOS at or beyond it makes DEC_SYM report
END_OF_STREAM; its words and errors; its examples at the default BITBUF_WORDS. -/
def Obligations.BbSetLenSetsLength : Prop :=
  (∀ (s : State) (n : BitVec 32), n.toNat ≤ 32 * s.bitbufWords →
    exec (.bbSetLen n) s = .next (answered 0#64 { s with streamLen := n })) ∧
  (∀ (s t : State) (n : BitVec 32), n.toNat ≤ 32 * s.bitbufWords → exec (.bbSetLen n) s = .next t →
    s.treeValid = true → n.toNat ≤ s.decBitPos.toNat →
    exec .decSym t = .next { t with port := .respond ⟨.endOfStream, 0#64⟩ }) ∧
  (∀ (s : State) (n : BitVec 32), 32 * s.bitbufWords < n.toNat →
    exec (.bbSetLen n) s = .next (failed .badOperand 3 s)) ∧
  (∀ w : Command, opcField w = 0x52#8 →
    (rsvField w = 0#8 → aField w = 0#16 → decode w = .ok (.bbSetLen (bField w))) ∧
    (rsvField w ≠ 0#8 ∨ aField w ≠ 0#16 → illegalWord w)) ∧
  (∀ s : State, s.bitbufWords = 1024 →
    execWord 0x5200000000008000#64 s = .next (answered 0#64 { s with streamLen := 32768#32 }) ∧
    exec (.bbSetLen 32769#32) s = .next (failed .badOperand 3 s))

/-! ### Decoder -/

/-- R104: DEC_RESET zeroes DEC_BITPOS and DEC_SYMCOUNT and nothing else, with or without a tree; its only
legal word; its example. -/
def Obligations.DecResetStartsDecoding : Prop :=
  (∀ s : State, ∃ t,
    exec .decReset s = .next t ∧ t = answered 0#64 { s with decBitPos := 0#32, decSymCount := 0#32 } ∧
    exec (.rdCsr 0x00B#16) t = .next (answered 0#64 t)) ∧
  (∀ w : Command, opcField w = 0x60#8 →
    (decode w = .ok .decReset ↔ w = 0x6000000000000000#64) ∧ (w ≠ 0x6000000000000000#64 → illegalWord w))

/-- R105, R109, R119: DEC_SYM without a tree is NO_TREE; at or beyond STREAM_LEN it reports END_OF_STREAM,
which changes the port alone. -/
def Obligations.DecSymNoTreeAndEnd : Prop :=
  ∀ s : State,
    (s.treeValid = false → exec .decSym s = .next (failed .noTree 6 s)) ∧
    (s.treeValid = true → s.streamLen.toNat ≤ s.decBitPos.toNat →
      exec .decSym s = .next { s with port := .respond ⟨.endOfStream, 0#64⟩ })

/-- R106: with a single-leaf tree a 0 bit emits the leaf's symbol and consumes exactly one bit; a 1 bit
raises INVALID_CODE and consumes nothing. -/
def Obligations.DecSymSingleLeaf : Prop :=
  ∀ (s : State) (sym : Symbol) (w : Weight), s.treeValid = true → s.node[s.root] = .leaf sym w →
    s.decBitPos.toNat < s.streamLen.toNat → s.streamLen.toNat ≤ bitbufBits s →
    (bitAt s s.decBitPos.toNat = false →
      exec .decSym s = .next (answered (BitVec.ofNat 64 (2 ^ 8 + sym.toNat))
        { s with decBitPos := s.decBitPos + 1#32, decSymCount := s.decSymCount + 1#32 })) ∧
    (bitAt s s.decBitPos.toNat = true → exec .decSym s = .next (failed .invalidCode 11 s))

/-- R105, R110: when the stream from DEC_BITPOS on holds the edge bits of a path from ROOT to a leaf, DEC_SYM
completes with that leaf's symbol and the number of bits consumed, and advances DEC_BITPOS and
DEC_SYMCOUNT; nothing else changes. -/
def Obligations.DecSymFollowsTree : Prop :=
  ∀ (s : State) (c : Code) (sym : Symbol), s.treeValid = true → c ≠ [] →
    leadsTo s.node s.root c sym → streamHas s s.decBitPos.toNat c →
    s.decBitPos.toNat + c.length ≤ s.streamLen.toNat → s.streamLen.toNat ≤ bitbufBits s →
    exec .decSym s = .next (answered (BitVec.ofNat 64 (2 ^ 8 * (c.length % 2 ^ 8) + sym.toNat))
      { s with decBitPos := BitVec.ofNat 32 (s.decBitPos.toNat + c.length),
               decSymCount := s.decSymCount + 1#32 })

/-- R105, R107: when the stream ends at an internal node, DEC_SYM raises TRUNCATED_STREAM; DEC_BITPOS,
DEC_SYMCOUNT and the bits of the partial code stay. -/
def Obligations.DecSymTruncated : Prop :=
  ∀ (s : State) (c : Code), s.treeValid = true → leadsInside s.node s.root c →
    streamHas s s.decBitPos.toNat c → c ≠ [] →
    s.decBitPos.toNat + c.length = s.streamLen.toNat → s.streamLen.toNat ≤ bitbufBits s →
    exec .decSym s = .next (failed .truncatedStream 10 s)

/-- R108: the round-trip law. With a valid tree and valid codes, when ENC_RESET and ENC_SYM of each symbol
of a sequence complete, DEC_RESET and as many DEC_SYM complete with the same symbols in order, and the
next DEC_SYM reports END_OF_STREAM. -/
def Obligations.RoundTripLaw : Prop :=
  ∀ (s t : State) (syms : List Symbol) (ds : List (BitVec 64)), Inv s → s.codesValid = true →
    completeAll (.encReset :: encodeSeq syms) s = some (t, ds) →
    ∃ u es v,
      completeAll (.decReset :: List.replicate syms.length .decSym) t = some (u, 0#64 :: es) ∧
      es.map (fun d => d.setWidth 8) = syms ∧
      exec .decSym u = .next v ∧ v.port = .respond ⟨.endOfStream, 0#64⟩

/-! ### Metrics -/

/-- R111, R113: METRICS with n and h from its source completes when h is not 0: M_FIXED = n · W, M_HUFF = h,
M_RATIO = floor(n · W · 2^16 / h), all exact; RATIO_VALID is set and nothing else changes. Source 1 needs
valid codes, source 0 does not. -/
def Obligations.MetricsComputesRatio : Prop :=
  ∀ (s : State) (a : BitVec 16) (b : BitVec 32) (n h : Nat), Inv s → b.toNat ≤ 255 → h ≠ 0 →
    ((a.toNat = 0 ∧ n = s.encSymCount.toNat ∧ h = s.encBitCount.toNat) ∨
      (a.toNat = 1 ∧ s.codesValid = true ∧ n = (symbols.map fun x => (freqOf s x).toNat).sum ∧
        h = (symbols.map fun x => (freqOf s x).toNat * (lenOf s x).toNat).sum)) →
    ∃ t, exec (.metrics a b) s = .next t ∧
      t.mFixed.toNat = n * b.toNat ∧ t.mHuff.toNat = h ∧
      t.mRatio.toNat = n * b.toNat * 2 ^ 16 / h ∧
      t = answered t.mRatio
        { s with mFixed := t.mFixed, mHuff := t.mHuff, mRatio := t.mRatio, ratioValid := true }

/-- R112, R122: METRICS of source 1 without valid codes is NO_CODES and writes nothing; a Huffman bit count
of 0 raises RATIO_UNDEFINED with M_FIXED and M_HUFF the computed totals, M_RATIO = 0, RATIO_VALID = 0 and
data 0. -/
def Obligations.MetricsUndefinedRatio : Prop :=
  ∀ (s : State) (a : BitVec 16) (b : BitVec 32), b.toNat ≤ 255 →
    (a.toNat = 1 → s.codesValid = false → exec (.metrics a b) s = .next (failed .noCodes 7 s)) ∧
    (a.toNat = 0 → s.encBitCount = 0#32 → ∃ t,
      exec (.metrics a b) s = .next t ∧ t.mFixed.toNat = s.encSymCount.toNat * b.toNat ∧
      t = failed .ratioUndefined 12
        { s with mFixed := t.mFixed, mHuff := 0#64, mRatio := 0#64, ratioValid := false }) ∧
    (a.toNat = 1 → s.codesValid = true → (∀ x, (freqOf s x).toNat * (lenOf s x).toNat = 0) → ∃ t,
      exec (.metrics a b) s = .next t ∧
      t.mFixed = BitVec.ofNat 64 ((symbols.map fun x => (freqOf s x).toNat).sum * b.toNat) ∧
      t = failed .ratioUndefined 12
        { s with mFixed := t.mFixed, mHuff := 0#64, mRatio := 0#64, ratioValid := false })

/-- R111, corner case: with valid codes the ratio of source 1 is never undefined: the Huffman bits of the
table are at least its symbols, of which there is one or more. -/
def Obligations.TableMetricsAreDefined : Prop :=
  ∀ s : State, Inv s → s.codesValid = true →
    1 ≤ (symbols.map fun x => (freqOf s x).toNat).sum ∧
    (symbols.map fun x => (freqOf s x).toNat).sum
      ≤ (symbols.map fun x => (freqOf s x).toNat * (lenOf s x).toNat).sum ∧
    ∀ b : BitVec 32, b.toNat ≤ 255 →
      ∃ t d, exec (.metrics 1#16 b) s = .next t ∧ t.port = .respond ⟨.ok, d⟩
end

