-- ==== Sys2Proof/Laws/Decode.lean ====
section
/-! SUPPORT. The four fields of a command word put together and taken apart (R64). -/

namespace Sys2Proof

/-- A word of four fields as a number (R72). -/
theorem toNat_word (o r : BitVec 8) (a : BitVec 16) (b : BitVec 32) :
    (o ++ r ++ a ++ b : BitVec 64).toNat
      = o.toNat * 2 ^ 56 + r.toNat * 2 ^ 48 + a.toNat * 2 ^ 32 + b.toNat := by
  rw [BitVec.toNat_append, BitVec.toNat_append, BitVec.toNat_append,
    ← Nat.shiftLeft_add_eq_or_of_lt r.isLt, ← Nat.shiftLeft_add_eq_or_of_lt a.isLt,
    ← Nat.shiftLeft_add_eq_or_of_lt b.isLt]
  simp only [Nat.shiftLeft_eq]
  omega

theorem opcField_append (o r : BitVec 8) (a : BitVec 16) (b : BitVec 32) : opcField (o ++ r ++ a ++ b) = o := by
  apply BitVec.eq_of_toNat_eq
  rw [opcField, BitVec.extractLsb'_toNat, toNat_word, Nat.shiftRight_eq_div_pow]
  have := o.isLt; have := r.isLt; have := a.isLt; have := b.isLt
  omega

theorem rsvField_append (o r : BitVec 8) (a : BitVec 16) (b : BitVec 32) : rsvField (o ++ r ++ a ++ b) = r := by
  apply BitVec.eq_of_toNat_eq
  rw [rsvField, BitVec.extractLsb'_toNat, toNat_word, Nat.shiftRight_eq_div_pow]
  have := o.isLt; have := r.isLt; have := a.isLt; have := b.isLt
  omega

theorem aField_append (o r : BitVec 8) (a : BitVec 16) (b : BitVec 32) : aField (o ++ r ++ a ++ b) = a := by
  apply BitVec.eq_of_toNat_eq
  rw [aField, BitVec.extractLsb'_toNat, toNat_word, Nat.shiftRight_eq_div_pow]
  have := a.isLt; have := b.isLt
  omega

theorem bField_append (o r : BitVec 8) (a : BitVec 16) (b : BitVec 32) : bField (o ++ r ++ a ++ b) = b := by
  apply BitVec.eq_of_toNat_eq
  rw [bField, BitVec.extractLsb'_toNat, toNat_word, Nat.shiftRight_eq_div_pow]
  have := b.isLt
  omega

/-- A word is its four fields. -/
theorem append_fields (w : Command) : opcField w ++ rsvField w ++ aField w ++ bField w = w := by
  apply BitVec.eq_of_toNat_eq
  rw [toNat_word]
  simp only [opcField, rsvField, aField, bField, BitVec.extractLsb'_toNat, Nat.shiftRight_eq_div_pow]
  have := w.isLt
  omega

/-- The fields of an encoded command (R72). -/
theorem fields_encode (i : Instr) :
    opcField (encode i) = opcOf i ∧ rsvField (encode i) = 0#8 ∧ aField (encode i) = aOf i ∧
      bField (encode i) = bOf i :=
  ⟨opcField_append .., rsvField_append .., aField_append .., bField_append ..⟩

end Sys2Proof
end

