-- ==== Sys2Proof/Laws/State.lean ====
section
/-! SUPPORT. One lemma per field per update of the shared operations, so that no later proof unfolds a record
update. -/

namespace Sys2Proof.Machine

/-! `respond` writes the port alone. -/

@[simp] theorem respond_freq (e : Status) (d : BitVec 64) (s : State) : (respond e d s).freq = s.freq := rfl
@[simp] theorem respond_node (e : Status) (d : BitVec 64) (s : State) : (respond e d s).node = s.node := rfl
@[simp] theorem respond_root (e : Status) (d : BitVec 64) (s : State) : (respond e d s).root = s.root := rfl
@[simp] theorem respond_leafCount (e : Status) (d : BitVec 64) (s : State) : (respond e d s).leafCount = s.leafCount := rfl
@[simp] theorem respond_nodeCount (e : Status) (d : BitVec 64) (s : State) : (respond e d s).nodeCount = s.nodeCount := rfl
@[simp] theorem respond_totalWeight (e : Status) (d : BitVec 64) (s : State) : (respond e d s).totalWeight = s.totalWeight := rfl
@[simp] theorem respond_treeValid (e : Status) (d : BitVec 64) (s : State) : (respond e d s).treeValid = s.treeValid := rfl
@[simp] theorem respond_len (e : Status) (d : BitVec 64) (s : State) : (respond e d s).len = s.len := rfl
@[simp] theorem respond_bits (e : Status) (d : BitVec 64) (s : State) : (respond e d s).bits = s.bits := rfl
@[simp] theorem respond_maxCodeLen (e : Status) (d : BitVec 64) (s : State) : (respond e d s).maxCodeLen = s.maxCodeLen := rfl
@[simp] theorem respond_codesValid (e : Status) (d : BitVec 64) (s : State) : (respond e d s).codesValid = s.codesValid := rfl
@[simp] theorem respond_bitbuf (e : Status) (d : BitVec 64) (s : State) : (respond e d s).bitbuf = s.bitbuf := rfl
@[simp] theorem respond_streamLen (e : Status) (d : BitVec 64) (s : State) : (respond e d s).streamLen = s.streamLen := rfl
@[simp] theorem respond_encSymCount (e : Status) (d : BitVec 64) (s : State) : (respond e d s).encSymCount = s.encSymCount := rfl
@[simp] theorem respond_encBitCount (e : Status) (d : BitVec 64) (s : State) : (respond e d s).encBitCount = s.encBitCount := rfl
@[simp] theorem respond_decBitPos (e : Status) (d : BitVec 64) (s : State) : (respond e d s).decBitPos = s.decBitPos := rfl
@[simp] theorem respond_decSymCount (e : Status) (d : BitVec 64) (s : State) : (respond e d s).decSymCount = s.decSymCount := rfl
@[simp] theorem respond_mFixed (e : Status) (d : BitVec 64) (s : State) : (respond e d s).mFixed = s.mFixed := rfl
@[simp] theorem respond_mHuff (e : Status) (d : BitVec 64) (s : State) : (respond e d s).mHuff = s.mHuff := rfl
@[simp] theorem respond_mRatio (e : Status) (d : BitVec 64) (s : State) : (respond e d s).mRatio = s.mRatio := rfl
@[simp] theorem respond_ratioValid (e : Status) (d : BitVec 64) (s : State) : (respond e d s).ratioValid = s.ratioValid := rfl
@[simp] theorem respond_lastErr (e : Status) (d : BitVec 64) (s : State) : (respond e d s).lastErr = s.lastErr := rfl
@[simp] theorem respond_errMask (e : Status) (d : BitVec 64) (s : State) : (respond e d s).errMask = s.errMask := rfl
@[simp] theorem respond_port (e : Status) (d : BitVec 64) (s : State) : (respond e d s).port = .respond ⟨e, d⟩ := rfl
@[simp] theorem respond_bitbufWords (e : Status) (d : BitVec 64) (s : State) : (respond e d s).bitbufWords = s.bitbufWords := rfl
@[simp] theorem respond_bitbufEpoch (e : Status) (d : BitVec 64) (s : State) : (respond e d s).bitbufEpoch = s.bitbufEpoch := rfl
@[simp] theorem respond_resetSeen (e : Status) (d : BitVec 64) (s : State) : (respond e d s).resetSeen = s.resetSeen := rfl
@[simp] theorem respond_inputs (e : Status) (d : BitVec 64) (s : State) : (respond e d s).inputs = s.inputs := rfl
@[simp] theorem respond_offer (e : Status) (d : BitVec 64) (s : State) : (respond e d s).offer = s.offer := rfl
@[simp] theorem respond_delivered (e : Status) (d : BitVec 64) (s : State) : (respond e d s).delivered = s.delivered := rfl

/-! `bookError` writes LAST_ERR and ERR_MASK (R121). -/

@[simp] theorem bookError_freq (e : Status) (s : State) : (bookError e s).freq = s.freq := rfl
@[simp] theorem bookError_node (e : Status) (s : State) : (bookError e s).node = s.node := rfl
@[simp] theorem bookError_root (e : Status) (s : State) : (bookError e s).root = s.root := rfl
@[simp] theorem bookError_leafCount (e : Status) (s : State) : (bookError e s).leafCount = s.leafCount := rfl
@[simp] theorem bookError_nodeCount (e : Status) (s : State) : (bookError e s).nodeCount = s.nodeCount := rfl
@[simp] theorem bookError_totalWeight (e : Status) (s : State) : (bookError e s).totalWeight = s.totalWeight := rfl
@[simp] theorem bookError_treeValid (e : Status) (s : State) : (bookError e s).treeValid = s.treeValid := rfl
@[simp] theorem bookError_len (e : Status) (s : State) : (bookError e s).len = s.len := rfl
@[simp] theorem bookError_bits (e : Status) (s : State) : (bookError e s).bits = s.bits := rfl
@[simp] theorem bookError_maxCodeLen (e : Status) (s : State) : (bookError e s).maxCodeLen = s.maxCodeLen := rfl
@[simp] theorem bookError_codesValid (e : Status) (s : State) : (bookError e s).codesValid = s.codesValid := rfl
@[simp] theorem bookError_bitbuf (e : Status) (s : State) : (bookError e s).bitbuf = s.bitbuf := rfl
@[simp] theorem bookError_streamLen (e : Status) (s : State) : (bookError e s).streamLen = s.streamLen := rfl
@[simp] theorem bookError_encSymCount (e : Status) (s : State) : (bookError e s).encSymCount = s.encSymCount := rfl
@[simp] theorem bookError_encBitCount (e : Status) (s : State) : (bookError e s).encBitCount = s.encBitCount := rfl
@[simp] theorem bookError_decBitPos (e : Status) (s : State) : (bookError e s).decBitPos = s.decBitPos := rfl
@[simp] theorem bookError_decSymCount (e : Status) (s : State) : (bookError e s).decSymCount = s.decSymCount := rfl
@[simp] theorem bookError_mFixed (e : Status) (s : State) : (bookError e s).mFixed = s.mFixed := rfl
@[simp] theorem bookError_mHuff (e : Status) (s : State) : (bookError e s).mHuff = s.mHuff := rfl
@[simp] theorem bookError_mRatio (e : Status) (s : State) : (bookError e s).mRatio = s.mRatio := rfl
@[simp] theorem bookError_ratioValid (e : Status) (s : State) : (bookError e s).ratioValid = s.ratioValid := rfl
@[simp] theorem bookError_lastErr (e : Status) (s : State) : (bookError e s).lastErr = statusCode e := rfl
@[simp] theorem bookError_errMask (e : Status) (s : State) : (bookError e s).errMask = s.errMask ||| errBit e := rfl
@[simp] theorem bookError_port (e : Status) (s : State) : (bookError e s).port = s.port := rfl
@[simp] theorem bookError_bitbufWords (e : Status) (s : State) : (bookError e s).bitbufWords = s.bitbufWords := rfl
@[simp] theorem bookError_bitbufEpoch (e : Status) (s : State) : (bookError e s).bitbufEpoch = s.bitbufEpoch := rfl
@[simp] theorem bookError_resetSeen (e : Status) (s : State) : (bookError e s).resetSeen = s.resetSeen := rfl
@[simp] theorem bookError_inputs (e : Status) (s : State) : (bookError e s).inputs = s.inputs := rfl
@[simp] theorem bookError_offer (e : Status) (s : State) : (bookError e s).offer = s.offer := rfl
@[simp] theorem bookError_delivered (e : Status) (s : State) : (bookError e s).delivered = s.delivered := rfl

/-! `invalidateTreeAndCodes` clears two flags (R21, R23). -/

@[simp] theorem invalidateTreeAndCodes_freq (s : State) : (invalidateTreeAndCodes s).freq = s.freq := rfl
@[simp] theorem invalidateTreeAndCodes_node (s : State) : (invalidateTreeAndCodes s).node = s.node := rfl
@[simp] theorem invalidateTreeAndCodes_root (s : State) : (invalidateTreeAndCodes s).root = s.root := rfl
@[simp] theorem invalidateTreeAndCodes_leafCount (s : State) : (invalidateTreeAndCodes s).leafCount = s.leafCount := rfl
@[simp] theorem invalidateTreeAndCodes_nodeCount (s : State) : (invalidateTreeAndCodes s).nodeCount = s.nodeCount := rfl
@[simp] theorem invalidateTreeAndCodes_totalWeight (s : State) : (invalidateTreeAndCodes s).totalWeight = s.totalWeight := rfl
@[simp] theorem invalidateTreeAndCodes_treeValid (s : State) : (invalidateTreeAndCodes s).treeValid = false := rfl
@[simp] theorem invalidateTreeAndCodes_len (s : State) : (invalidateTreeAndCodes s).len = s.len := rfl
@[simp] theorem invalidateTreeAndCodes_bits (s : State) : (invalidateTreeAndCodes s).bits = s.bits := rfl
@[simp] theorem invalidateTreeAndCodes_maxCodeLen (s : State) : (invalidateTreeAndCodes s).maxCodeLen = s.maxCodeLen := rfl
@[simp] theorem invalidateTreeAndCodes_codesValid (s : State) : (invalidateTreeAndCodes s).codesValid = false := rfl
@[simp] theorem invalidateTreeAndCodes_bitbuf (s : State) : (invalidateTreeAndCodes s).bitbuf = s.bitbuf := rfl
@[simp] theorem invalidateTreeAndCodes_streamLen (s : State) : (invalidateTreeAndCodes s).streamLen = s.streamLen := rfl
@[simp] theorem invalidateTreeAndCodes_encSymCount (s : State) : (invalidateTreeAndCodes s).encSymCount = s.encSymCount := rfl
@[simp] theorem invalidateTreeAndCodes_encBitCount (s : State) : (invalidateTreeAndCodes s).encBitCount = s.encBitCount := rfl
@[simp] theorem invalidateTreeAndCodes_decBitPos (s : State) : (invalidateTreeAndCodes s).decBitPos = s.decBitPos := rfl
@[simp] theorem invalidateTreeAndCodes_decSymCount (s : State) : (invalidateTreeAndCodes s).decSymCount = s.decSymCount := rfl
@[simp] theorem invalidateTreeAndCodes_mFixed (s : State) : (invalidateTreeAndCodes s).mFixed = s.mFixed := rfl
@[simp] theorem invalidateTreeAndCodes_mHuff (s : State) : (invalidateTreeAndCodes s).mHuff = s.mHuff := rfl
@[simp] theorem invalidateTreeAndCodes_mRatio (s : State) : (invalidateTreeAndCodes s).mRatio = s.mRatio := rfl
@[simp] theorem invalidateTreeAndCodes_ratioValid (s : State) : (invalidateTreeAndCodes s).ratioValid = s.ratioValid := rfl
@[simp] theorem invalidateTreeAndCodes_lastErr (s : State) : (invalidateTreeAndCodes s).lastErr = s.lastErr := rfl
@[simp] theorem invalidateTreeAndCodes_errMask (s : State) : (invalidateTreeAndCodes s).errMask = s.errMask := rfl
@[simp] theorem invalidateTreeAndCodes_port (s : State) : (invalidateTreeAndCodes s).port = s.port := rfl
@[simp] theorem invalidateTreeAndCodes_bitbufWords (s : State) : (invalidateTreeAndCodes s).bitbufWords = s.bitbufWords := rfl
@[simp] theorem invalidateTreeAndCodes_bitbufEpoch (s : State) : (invalidateTreeAndCodes s).bitbufEpoch = s.bitbufEpoch := rfl
@[simp] theorem invalidateTreeAndCodes_resetSeen (s : State) : (invalidateTreeAndCodes s).resetSeen = s.resetSeen := rfl
@[simp] theorem invalidateTreeAndCodes_inputs (s : State) : (invalidateTreeAndCodes s).inputs = s.inputs := rfl
@[simp] theorem invalidateTreeAndCodes_offer (s : State) : (invalidateTreeAndCodes s).offer = s.offer := rfl
@[simp] theorem invalidateTreeAndCodes_delivered (s : State) : (invalidateTreeAndCodes s).delivered = s.delivered := rfl

/-! `setFreq` writes FREQ (R76). -/

@[simp] theorem setFreq_freq (sym : Symbol) (c : Weight) (s : State) : (setFreq sym c s).freq = s.freq.set sym.toNat c := rfl
@[simp] theorem setFreq_node (sym : Symbol) (c : Weight) (s : State) : (setFreq sym c s).node = s.node := rfl
@[simp] theorem setFreq_root (sym : Symbol) (c : Weight) (s : State) : (setFreq sym c s).root = s.root := rfl
@[simp] theorem setFreq_leafCount (sym : Symbol) (c : Weight) (s : State) : (setFreq sym c s).leafCount = s.leafCount := rfl
@[simp] theorem setFreq_nodeCount (sym : Symbol) (c : Weight) (s : State) : (setFreq sym c s).nodeCount = s.nodeCount := rfl
@[simp] theorem setFreq_totalWeight (sym : Symbol) (c : Weight) (s : State) : (setFreq sym c s).totalWeight = s.totalWeight := rfl
@[simp] theorem setFreq_treeValid (sym : Symbol) (c : Weight) (s : State) : (setFreq sym c s).treeValid = s.treeValid := rfl
@[simp] theorem setFreq_len (sym : Symbol) (c : Weight) (s : State) : (setFreq sym c s).len = s.len := rfl
@[simp] theorem setFreq_bits (sym : Symbol) (c : Weight) (s : State) : (setFreq sym c s).bits = s.bits := rfl
@[simp] theorem setFreq_maxCodeLen (sym : Symbol) (c : Weight) (s : State) : (setFreq sym c s).maxCodeLen = s.maxCodeLen := rfl
@[simp] theorem setFreq_codesValid (sym : Symbol) (c : Weight) (s : State) : (setFreq sym c s).codesValid = s.codesValid := rfl
@[simp] theorem setFreq_bitbuf (sym : Symbol) (c : Weight) (s : State) : (setFreq sym c s).bitbuf = s.bitbuf := rfl
@[simp] theorem setFreq_streamLen (sym : Symbol) (c : Weight) (s : State) : (setFreq sym c s).streamLen = s.streamLen := rfl
@[simp] theorem setFreq_encSymCount (sym : Symbol) (c : Weight) (s : State) : (setFreq sym c s).encSymCount = s.encSymCount := rfl
@[simp] theorem setFreq_encBitCount (sym : Symbol) (c : Weight) (s : State) : (setFreq sym c s).encBitCount = s.encBitCount := rfl
@[simp] theorem setFreq_decBitPos (sym : Symbol) (c : Weight) (s : State) : (setFreq sym c s).decBitPos = s.decBitPos := rfl
@[simp] theorem setFreq_decSymCount (sym : Symbol) (c : Weight) (s : State) : (setFreq sym c s).decSymCount = s.decSymCount := rfl
@[simp] theorem setFreq_mFixed (sym : Symbol) (c : Weight) (s : State) : (setFreq sym c s).mFixed = s.mFixed := rfl
@[simp] theorem setFreq_mHuff (sym : Symbol) (c : Weight) (s : State) : (setFreq sym c s).mHuff = s.mHuff := rfl
@[simp] theorem setFreq_mRatio (sym : Symbol) (c : Weight) (s : State) : (setFreq sym c s).mRatio = s.mRatio := rfl
@[simp] theorem setFreq_ratioValid (sym : Symbol) (c : Weight) (s : State) : (setFreq sym c s).ratioValid = s.ratioValid := rfl
@[simp] theorem setFreq_lastErr (sym : Symbol) (c : Weight) (s : State) : (setFreq sym c s).lastErr = s.lastErr := rfl
@[simp] theorem setFreq_errMask (sym : Symbol) (c : Weight) (s : State) : (setFreq sym c s).errMask = s.errMask := rfl
@[simp] theorem setFreq_port (sym : Symbol) (c : Weight) (s : State) : (setFreq sym c s).port = s.port := rfl
@[simp] theorem setFreq_bitbufWords (sym : Symbol) (c : Weight) (s : State) : (setFreq sym c s).bitbufWords = s.bitbufWords := rfl
@[simp] theorem setFreq_bitbufEpoch (sym : Symbol) (c : Weight) (s : State) : (setFreq sym c s).bitbufEpoch = s.bitbufEpoch := rfl
@[simp] theorem setFreq_resetSeen (sym : Symbol) (c : Weight) (s : State) : (setFreq sym c s).resetSeen = s.resetSeen := rfl
@[simp] theorem setFreq_inputs (sym : Symbol) (c : Weight) (s : State) : (setFreq sym c s).inputs = s.inputs := rfl
@[simp] theorem setFreq_offer (sym : Symbol) (c : Weight) (s : State) : (setFreq sym c s).offer = s.offer := rfl
@[simp] theorem setFreq_delivered (sym : Symbol) (c : Weight) (s : State) : (setFreq sym c s).delivered = s.delivered := rfl

/-! `wordWrite` writes BITBUF (R49). -/

@[simp] theorem wordWrite_freq (w : Nat) (v : BufWord) (s : State) : (wordWrite w v s).freq = s.freq := rfl
@[simp] theorem wordWrite_node (w : Nat) (v : BufWord) (s : State) : (wordWrite w v s).node = s.node := rfl
@[simp] theorem wordWrite_root (w : Nat) (v : BufWord) (s : State) : (wordWrite w v s).root = s.root := rfl
@[simp] theorem wordWrite_leafCount (w : Nat) (v : BufWord) (s : State) : (wordWrite w v s).leafCount = s.leafCount := rfl
@[simp] theorem wordWrite_nodeCount (w : Nat) (v : BufWord) (s : State) : (wordWrite w v s).nodeCount = s.nodeCount := rfl
@[simp] theorem wordWrite_totalWeight (w : Nat) (v : BufWord) (s : State) : (wordWrite w v s).totalWeight = s.totalWeight := rfl
@[simp] theorem wordWrite_treeValid (w : Nat) (v : BufWord) (s : State) : (wordWrite w v s).treeValid = s.treeValid := rfl
@[simp] theorem wordWrite_len (w : Nat) (v : BufWord) (s : State) : (wordWrite w v s).len = s.len := rfl
@[simp] theorem wordWrite_bits (w : Nat) (v : BufWord) (s : State) : (wordWrite w v s).bits = s.bits := rfl
@[simp] theorem wordWrite_maxCodeLen (w : Nat) (v : BufWord) (s : State) : (wordWrite w v s).maxCodeLen = s.maxCodeLen := rfl
@[simp] theorem wordWrite_codesValid (w : Nat) (v : BufWord) (s : State) : (wordWrite w v s).codesValid = s.codesValid := rfl
@[simp] theorem wordWrite_bitbuf (w : Nat) (v : BufWord) (s : State) : (wordWrite w v s).bitbuf = s.bitbuf.insert w v := rfl
@[simp] theorem wordWrite_streamLen (w : Nat) (v : BufWord) (s : State) : (wordWrite w v s).streamLen = s.streamLen := rfl
@[simp] theorem wordWrite_encSymCount (w : Nat) (v : BufWord) (s : State) : (wordWrite w v s).encSymCount = s.encSymCount := rfl
@[simp] theorem wordWrite_encBitCount (w : Nat) (v : BufWord) (s : State) : (wordWrite w v s).encBitCount = s.encBitCount := rfl
@[simp] theorem wordWrite_decBitPos (w : Nat) (v : BufWord) (s : State) : (wordWrite w v s).decBitPos = s.decBitPos := rfl
@[simp] theorem wordWrite_decSymCount (w : Nat) (v : BufWord) (s : State) : (wordWrite w v s).decSymCount = s.decSymCount := rfl
@[simp] theorem wordWrite_mFixed (w : Nat) (v : BufWord) (s : State) : (wordWrite w v s).mFixed = s.mFixed := rfl
@[simp] theorem wordWrite_mHuff (w : Nat) (v : BufWord) (s : State) : (wordWrite w v s).mHuff = s.mHuff := rfl
@[simp] theorem wordWrite_mRatio (w : Nat) (v : BufWord) (s : State) : (wordWrite w v s).mRatio = s.mRatio := rfl
@[simp] theorem wordWrite_ratioValid (w : Nat) (v : BufWord) (s : State) : (wordWrite w v s).ratioValid = s.ratioValid := rfl
@[simp] theorem wordWrite_lastErr (w : Nat) (v : BufWord) (s : State) : (wordWrite w v s).lastErr = s.lastErr := rfl
@[simp] theorem wordWrite_errMask (w : Nat) (v : BufWord) (s : State) : (wordWrite w v s).errMask = s.errMask := rfl
@[simp] theorem wordWrite_port (w : Nat) (v : BufWord) (s : State) : (wordWrite w v s).port = s.port := rfl
@[simp] theorem wordWrite_bitbufWords (w : Nat) (v : BufWord) (s : State) : (wordWrite w v s).bitbufWords = s.bitbufWords := rfl
@[simp] theorem wordWrite_bitbufEpoch (w : Nat) (v : BufWord) (s : State) : (wordWrite w v s).bitbufEpoch = s.bitbufEpoch := rfl
@[simp] theorem wordWrite_resetSeen (w : Nat) (v : BufWord) (s : State) : (wordWrite w v s).resetSeen = s.resetSeen := rfl
@[simp] theorem wordWrite_inputs (w : Nat) (v : BufWord) (s : State) : (wordWrite w v s).inputs = s.inputs := rfl
@[simp] theorem wordWrite_offer (w : Nat) (v : BufWord) (s : State) : (wordWrite w v s).offer = s.offer := rfl
@[simp] theorem wordWrite_delivered (w : Nat) (v : BufWord) (s : State) : (wordWrite w v s).delivered = s.delivered := rfl

/-! `bitWrite` writes BITBUF (R47). -/

@[simp] theorem bitWrite_freq (p : Nat) (b : Bool) (s : State) : (bitWrite p b s).freq = s.freq := rfl
@[simp] theorem bitWrite_node (p : Nat) (b : Bool) (s : State) : (bitWrite p b s).node = s.node := rfl
@[simp] theorem bitWrite_root (p : Nat) (b : Bool) (s : State) : (bitWrite p b s).root = s.root := rfl
@[simp] theorem bitWrite_leafCount (p : Nat) (b : Bool) (s : State) : (bitWrite p b s).leafCount = s.leafCount := rfl
@[simp] theorem bitWrite_nodeCount (p : Nat) (b : Bool) (s : State) : (bitWrite p b s).nodeCount = s.nodeCount := rfl
@[simp] theorem bitWrite_totalWeight (p : Nat) (b : Bool) (s : State) : (bitWrite p b s).totalWeight = s.totalWeight := rfl
@[simp] theorem bitWrite_treeValid (p : Nat) (b : Bool) (s : State) : (bitWrite p b s).treeValid = s.treeValid := rfl
@[simp] theorem bitWrite_len (p : Nat) (b : Bool) (s : State) : (bitWrite p b s).len = s.len := rfl
@[simp] theorem bitWrite_bits (p : Nat) (b : Bool) (s : State) : (bitWrite p b s).bits = s.bits := rfl
@[simp] theorem bitWrite_maxCodeLen (p : Nat) (b : Bool) (s : State) : (bitWrite p b s).maxCodeLen = s.maxCodeLen := rfl
@[simp] theorem bitWrite_codesValid (p : Nat) (b : Bool) (s : State) : (bitWrite p b s).codesValid = s.codesValid := rfl
@[simp] theorem bitWrite_bitbuf (p : Nat) (b : Bool) (s : State) : (bitWrite p b s).bitbuf = s.bitbuf.insert (p / 32) (setBitOfWord (wordRead s (p / 32)) p b) := rfl
@[simp] theorem bitWrite_streamLen (p : Nat) (b : Bool) (s : State) : (bitWrite p b s).streamLen = s.streamLen := rfl
@[simp] theorem bitWrite_encSymCount (p : Nat) (b : Bool) (s : State) : (bitWrite p b s).encSymCount = s.encSymCount := rfl
@[simp] theorem bitWrite_encBitCount (p : Nat) (b : Bool) (s : State) : (bitWrite p b s).encBitCount = s.encBitCount := rfl
@[simp] theorem bitWrite_decBitPos (p : Nat) (b : Bool) (s : State) : (bitWrite p b s).decBitPos = s.decBitPos := rfl
@[simp] theorem bitWrite_decSymCount (p : Nat) (b : Bool) (s : State) : (bitWrite p b s).decSymCount = s.decSymCount := rfl
@[simp] theorem bitWrite_mFixed (p : Nat) (b : Bool) (s : State) : (bitWrite p b s).mFixed = s.mFixed := rfl
@[simp] theorem bitWrite_mHuff (p : Nat) (b : Bool) (s : State) : (bitWrite p b s).mHuff = s.mHuff := rfl
@[simp] theorem bitWrite_mRatio (p : Nat) (b : Bool) (s : State) : (bitWrite p b s).mRatio = s.mRatio := rfl
@[simp] theorem bitWrite_ratioValid (p : Nat) (b : Bool) (s : State) : (bitWrite p b s).ratioValid = s.ratioValid := rfl
@[simp] theorem bitWrite_lastErr (p : Nat) (b : Bool) (s : State) : (bitWrite p b s).lastErr = s.lastErr := rfl
@[simp] theorem bitWrite_errMask (p : Nat) (b : Bool) (s : State) : (bitWrite p b s).errMask = s.errMask := rfl
@[simp] theorem bitWrite_port (p : Nat) (b : Bool) (s : State) : (bitWrite p b s).port = s.port := rfl
@[simp] theorem bitWrite_bitbufWords (p : Nat) (b : Bool) (s : State) : (bitWrite p b s).bitbufWords = s.bitbufWords := rfl
@[simp] theorem bitWrite_bitbufEpoch (p : Nat) (b : Bool) (s : State) : (bitWrite p b s).bitbufEpoch = s.bitbufEpoch := rfl
@[simp] theorem bitWrite_resetSeen (p : Nat) (b : Bool) (s : State) : (bitWrite p b s).resetSeen = s.resetSeen := rfl
@[simp] theorem bitWrite_inputs (p : Nat) (b : Bool) (s : State) : (bitWrite p b s).inputs = s.inputs := rfl
@[simp] theorem bitWrite_offer (p : Nat) (b : Bool) (s : State) : (bitWrite p b s).offer = s.offer := rfl
@[simp] theorem bitWrite_delivered (p : Nat) (b : Bool) (s : State) : (bitWrite p b s).delivered = s.delivered := rfl

/-! `appendBit` writes BITBUF and STREAM_LEN (R97). -/

@[simp] theorem appendBit_freq (b : Bool) (s : State) : (appendBit b s).freq = s.freq := by
  unfold appendBit; dsimp only; split <;> rfl
@[simp] theorem appendBit_node (b : Bool) (s : State) : (appendBit b s).node = s.node := by
  unfold appendBit; dsimp only; split <;> rfl
@[simp] theorem appendBit_root (b : Bool) (s : State) : (appendBit b s).root = s.root := by
  unfold appendBit; dsimp only; split <;> rfl
@[simp] theorem appendBit_leafCount (b : Bool) (s : State) : (appendBit b s).leafCount = s.leafCount := by
  unfold appendBit; dsimp only; split <;> rfl
@[simp] theorem appendBit_nodeCount (b : Bool) (s : State) : (appendBit b s).nodeCount = s.nodeCount := by
  unfold appendBit; dsimp only; split <;> rfl
@[simp] theorem appendBit_totalWeight (b : Bool) (s : State) : (appendBit b s).totalWeight = s.totalWeight := by
  unfold appendBit; dsimp only; split <;> rfl
@[simp] theorem appendBit_treeValid (b : Bool) (s : State) : (appendBit b s).treeValid = s.treeValid := by
  unfold appendBit; dsimp only; split <;> rfl
@[simp] theorem appendBit_len (b : Bool) (s : State) : (appendBit b s).len = s.len := by
  unfold appendBit; dsimp only; split <;> rfl
@[simp] theorem appendBit_bits (b : Bool) (s : State) : (appendBit b s).bits = s.bits := by
  unfold appendBit; dsimp only; split <;> rfl
@[simp] theorem appendBit_maxCodeLen (b : Bool) (s : State) : (appendBit b s).maxCodeLen = s.maxCodeLen := by
  unfold appendBit; dsimp only; split <;> rfl
@[simp] theorem appendBit_codesValid (b : Bool) (s : State) : (appendBit b s).codesValid = s.codesValid := by
  unfold appendBit; dsimp only; split <;> rfl
@[simp] theorem appendBit_streamLen (b : Bool) (s : State) : (appendBit b s).streamLen = BitVec.ofNat 32 (s.streamLen.toNat + 1) := rfl
@[simp] theorem appendBit_encSymCount (b : Bool) (s : State) : (appendBit b s).encSymCount = s.encSymCount := by
  unfold appendBit; dsimp only; split <;> rfl
@[simp] theorem appendBit_encBitCount (b : Bool) (s : State) : (appendBit b s).encBitCount = s.encBitCount := by
  unfold appendBit; dsimp only; split <;> rfl
@[simp] theorem appendBit_decBitPos (b : Bool) (s : State) : (appendBit b s).decBitPos = s.decBitPos := by
  unfold appendBit; dsimp only; split <;> rfl
@[simp] theorem appendBit_decSymCount (b : Bool) (s : State) : (appendBit b s).decSymCount = s.decSymCount := by
  unfold appendBit; dsimp only; split <;> rfl
@[simp] theorem appendBit_mFixed (b : Bool) (s : State) : (appendBit b s).mFixed = s.mFixed := by
  unfold appendBit; dsimp only; split <;> rfl
@[simp] theorem appendBit_mHuff (b : Bool) (s : State) : (appendBit b s).mHuff = s.mHuff := by
  unfold appendBit; dsimp only; split <;> rfl
@[simp] theorem appendBit_mRatio (b : Bool) (s : State) : (appendBit b s).mRatio = s.mRatio := by
  unfold appendBit; dsimp only; split <;> rfl
@[simp] theorem appendBit_ratioValid (b : Bool) (s : State) : (appendBit b s).ratioValid = s.ratioValid := by
  unfold appendBit; dsimp only; split <;> rfl
@[simp] theorem appendBit_lastErr (b : Bool) (s : State) : (appendBit b s).lastErr = s.lastErr := by
  unfold appendBit; dsimp only; split <;> rfl
@[simp] theorem appendBit_errMask (b : Bool) (s : State) : (appendBit b s).errMask = s.errMask := by
  unfold appendBit; dsimp only; split <;> rfl
@[simp] theorem appendBit_port (b : Bool) (s : State) : (appendBit b s).port = s.port := by
  unfold appendBit; dsimp only; split <;> rfl
@[simp] theorem appendBit_bitbufWords (b : Bool) (s : State) : (appendBit b s).bitbufWords = s.bitbufWords := by
  unfold appendBit; dsimp only; split <;> rfl
@[simp] theorem appendBit_bitbufEpoch (b : Bool) (s : State) : (appendBit b s).bitbufEpoch = s.bitbufEpoch := by
  unfold appendBit; dsimp only; split <;> rfl
@[simp] theorem appendBit_resetSeen (b : Bool) (s : State) : (appendBit b s).resetSeen = s.resetSeen := by
  unfold appendBit; dsimp only; split <;> rfl
@[simp] theorem appendBit_inputs (b : Bool) (s : State) : (appendBit b s).inputs = s.inputs := by
  unfold appendBit; dsimp only; split <;> rfl
@[simp] theorem appendBit_offer (b : Bool) (s : State) : (appendBit b s).offer = s.offer := by
  unfold appendBit; dsimp only; split <;> rfl
@[simp] theorem appendBit_delivered (b : Bool) (s : State) : (appendBit b s).delivered = s.delivered := by
  unfold appendBit; dsimp only; split <;> rfl

/-! `appendBits` writes BITBUF and STREAM_LEN (R97). -/

@[simp] theorem appendBits_freq (c : Code) (s : State) : (appendBits c s).freq = s.freq := by
  induction c generalizing s with
  | nil => rfl
  | cons b c ih => rw [appendBits, ih]; simp
@[simp] theorem appendBits_node (c : Code) (s : State) : (appendBits c s).node = s.node := by
  induction c generalizing s with
  | nil => rfl
  | cons b c ih => rw [appendBits, ih]; simp
@[simp] theorem appendBits_root (c : Code) (s : State) : (appendBits c s).root = s.root := by
  induction c generalizing s with
  | nil => rfl
  | cons b c ih => rw [appendBits, ih]; simp
@[simp] theorem appendBits_leafCount (c : Code) (s : State) : (appendBits c s).leafCount = s.leafCount := by
  induction c generalizing s with
  | nil => rfl
  | cons b c ih => rw [appendBits, ih]; simp
@[simp] theorem appendBits_nodeCount (c : Code) (s : State) : (appendBits c s).nodeCount = s.nodeCount := by
  induction c generalizing s with
  | nil => rfl
  | cons b c ih => rw [appendBits, ih]; simp
@[simp] theorem appendBits_totalWeight (c : Code) (s : State) : (appendBits c s).totalWeight = s.totalWeight := by
  induction c generalizing s with
  | nil => rfl
  | cons b c ih => rw [appendBits, ih]; simp
@[simp] theorem appendBits_treeValid (c : Code) (s : State) : (appendBits c s).treeValid = s.treeValid := by
  induction c generalizing s with
  | nil => rfl
  | cons b c ih => rw [appendBits, ih]; simp
@[simp] theorem appendBits_len (c : Code) (s : State) : (appendBits c s).len = s.len := by
  induction c generalizing s with
  | nil => rfl
  | cons b c ih => rw [appendBits, ih]; simp
@[simp] theorem appendBits_bits (c : Code) (s : State) : (appendBits c s).bits = s.bits := by
  induction c generalizing s with
  | nil => rfl
  | cons b c ih => rw [appendBits, ih]; simp
@[simp] theorem appendBits_maxCodeLen (c : Code) (s : State) : (appendBits c s).maxCodeLen = s.maxCodeLen := by
  induction c generalizing s with
  | nil => rfl
  | cons b c ih => rw [appendBits, ih]; simp
@[simp] theorem appendBits_codesValid (c : Code) (s : State) : (appendBits c s).codesValid = s.codesValid := by
  induction c generalizing s with
  | nil => rfl
  | cons b c ih => rw [appendBits, ih]; simp
@[simp] theorem appendBits_encSymCount (c : Code) (s : State) : (appendBits c s).encSymCount = s.encSymCount := by
  induction c generalizing s with
  | nil => rfl
  | cons b c ih => rw [appendBits, ih]; simp
@[simp] theorem appendBits_encBitCount (c : Code) (s : State) : (appendBits c s).encBitCount = s.encBitCount := by
  induction c generalizing s with
  | nil => rfl
  | cons b c ih => rw [appendBits, ih]; simp
@[simp] theorem appendBits_decBitPos (c : Code) (s : State) : (appendBits c s).decBitPos = s.decBitPos := by
  induction c generalizing s with
  | nil => rfl
  | cons b c ih => rw [appendBits, ih]; simp
@[simp] theorem appendBits_decSymCount (c : Code) (s : State) : (appendBits c s).decSymCount = s.decSymCount := by
  induction c generalizing s with
  | nil => rfl
  | cons b c ih => rw [appendBits, ih]; simp
@[simp] theorem appendBits_mFixed (c : Code) (s : State) : (appendBits c s).mFixed = s.mFixed := by
  induction c generalizing s with
  | nil => rfl
  | cons b c ih => rw [appendBits, ih]; simp
@[simp] theorem appendBits_mHuff (c : Code) (s : State) : (appendBits c s).mHuff = s.mHuff := by
  induction c generalizing s with
  | nil => rfl
  | cons b c ih => rw [appendBits, ih]; simp
@[simp] theorem appendBits_mRatio (c : Code) (s : State) : (appendBits c s).mRatio = s.mRatio := by
  induction c generalizing s with
  | nil => rfl
  | cons b c ih => rw [appendBits, ih]; simp
@[simp] theorem appendBits_ratioValid (c : Code) (s : State) : (appendBits c s).ratioValid = s.ratioValid := by
  induction c generalizing s with
  | nil => rfl
  | cons b c ih => rw [appendBits, ih]; simp
@[simp] theorem appendBits_lastErr (c : Code) (s : State) : (appendBits c s).lastErr = s.lastErr := by
  induction c generalizing s with
  | nil => rfl
  | cons b c ih => rw [appendBits, ih]; simp
@[simp] theorem appendBits_errMask (c : Code) (s : State) : (appendBits c s).errMask = s.errMask := by
  induction c generalizing s with
  | nil => rfl
  | cons b c ih => rw [appendBits, ih]; simp
@[simp] theorem appendBits_port (c : Code) (s : State) : (appendBits c s).port = s.port := by
  induction c generalizing s with
  | nil => rfl
  | cons b c ih => rw [appendBits, ih]; simp
@[simp] theorem appendBits_bitbufWords (c : Code) (s : State) : (appendBits c s).bitbufWords = s.bitbufWords := by
  induction c generalizing s with
  | nil => rfl
  | cons b c ih => rw [appendBits, ih]; simp
@[simp] theorem appendBits_bitbufEpoch (c : Code) (s : State) : (appendBits c s).bitbufEpoch = s.bitbufEpoch := by
  induction c generalizing s with
  | nil => rfl
  | cons b c ih => rw [appendBits, ih]; simp
@[simp] theorem appendBits_resetSeen (c : Code) (s : State) : (appendBits c s).resetSeen = s.resetSeen := by
  induction c generalizing s with
  | nil => rfl
  | cons b c ih => rw [appendBits, ih]; simp
@[simp] theorem appendBits_inputs (c : Code) (s : State) : (appendBits c s).inputs = s.inputs := by
  induction c generalizing s with
  | nil => rfl
  | cons b c ih => rw [appendBits, ih]; simp
@[simp] theorem appendBits_offer (c : Code) (s : State) : (appendBits c s).offer = s.offer := by
  induction c generalizing s with
  | nil => rfl
  | cons b c ih => rw [appendBits, ih]; simp
@[simp] theorem appendBits_delivered (c : Code) (s : State) : (appendBits c s).delivered = s.delivered := by
  induction c generalizing s with
  | nil => rfl
  | cons b c ih => rw [appendBits, ih]; simp

/-! `advance` uses up one pin sample and keeps the offer (log entries 5, 6). -/

@[simp] theorem advance_freq (s : State) : (advance s).freq = s.freq := rfl
@[simp] theorem advance_node (s : State) : (advance s).node = s.node := rfl
@[simp] theorem advance_root (s : State) : (advance s).root = s.root := rfl
@[simp] theorem advance_leafCount (s : State) : (advance s).leafCount = s.leafCount := rfl
@[simp] theorem advance_nodeCount (s : State) : (advance s).nodeCount = s.nodeCount := rfl
@[simp] theorem advance_totalWeight (s : State) : (advance s).totalWeight = s.totalWeight := rfl
@[simp] theorem advance_treeValid (s : State) : (advance s).treeValid = s.treeValid := rfl
@[simp] theorem advance_len (s : State) : (advance s).len = s.len := rfl
@[simp] theorem advance_bits (s : State) : (advance s).bits = s.bits := rfl
@[simp] theorem advance_maxCodeLen (s : State) : (advance s).maxCodeLen = s.maxCodeLen := rfl
@[simp] theorem advance_codesValid (s : State) : (advance s).codesValid = s.codesValid := rfl
@[simp] theorem advance_bitbuf (s : State) : (advance s).bitbuf = s.bitbuf := rfl
@[simp] theorem advance_streamLen (s : State) : (advance s).streamLen = s.streamLen := rfl
@[simp] theorem advance_encSymCount (s : State) : (advance s).encSymCount = s.encSymCount := rfl
@[simp] theorem advance_encBitCount (s : State) : (advance s).encBitCount = s.encBitCount := rfl
@[simp] theorem advance_decBitPos (s : State) : (advance s).decBitPos = s.decBitPos := rfl
@[simp] theorem advance_decSymCount (s : State) : (advance s).decSymCount = s.decSymCount := rfl
@[simp] theorem advance_mFixed (s : State) : (advance s).mFixed = s.mFixed := rfl
@[simp] theorem advance_mHuff (s : State) : (advance s).mHuff = s.mHuff := rfl
@[simp] theorem advance_mRatio (s : State) : (advance s).mRatio = s.mRatio := rfl
@[simp] theorem advance_ratioValid (s : State) : (advance s).ratioValid = s.ratioValid := rfl
@[simp] theorem advance_lastErr (s : State) : (advance s).lastErr = s.lastErr := rfl
@[simp] theorem advance_errMask (s : State) : (advance s).errMask = s.errMask := rfl
@[simp] theorem advance_port (s : State) : (advance s).port = s.port := rfl
@[simp] theorem advance_bitbufWords (s : State) : (advance s).bitbufWords = s.bitbufWords := rfl
@[simp] theorem advance_bitbufEpoch (s : State) : (advance s).bitbufEpoch = s.bitbufEpoch := rfl
@[simp] theorem advance_resetSeen (s : State) : (advance s).resetSeen = s.resetSeen := rfl
@[simp] theorem advance_inputs (s : State) : (advance s).inputs = s.inputs.tail := rfl
@[simp] theorem advance_offer (s : State) : (advance s).offer = offerKept s := rfl
@[simp] theorem advance_delivered (s : State) : (advance s).delivered = s.delivered := rfl

end Sys2Proof.Machine
end

