-- ==== Sys2Proof/Laws/Memory.lean ====
section
/-! SUPPORT. The laws of the bit buffer: a read after a write, the canonical form, and the bit view of R45 to
R47 (20_memory.md). -/

namespace Sys2Proof.Machine

/-- A word reads as written; every other word as before. -/
theorem Memory.find_insert (m : Memory) (k k' : Nat) (v : BufWord) :
    (Memory.insert m k v).find k' = if k = k' then some v else Memory.find m k' := by
  induction m with
  | nil => simp [Memory.insert, Memory.find]
  | cons e m ih =>
    obtain ⟨a, x⟩ := e
    unfold Memory.insert
    split
    · simp [Memory.find]
    · split
      · next h =>
        subst h
        by_cases hk : k = k' <;> simp [Memory.find, hk]
      · by_cases ha : a = k'
        · subst ha; simp [Memory.find, *]
        · simp [Memory.find, ha, ih]

/-- Writing a word that exists keeps the canonical form, from any lower bound on the indices. -/
theorem Memory.wfFrom_insert {words lo k : Nat} {m : Memory} (v : BufWord)
    (h : Memory.wfFrom words lo m = true) (hlo : lo ≤ k) (hk : k < words) :
    Memory.wfFrom words lo (Memory.insert m k v) = true := by
  induction m generalizing lo with
  | nil => simp [Memory.insert, Memory.wfFrom, hlo, hk]
  | cons e m ih =>
    obtain ⟨a, x⟩ := e
    simp only [Memory.wfFrom, Bool.and_eq_true, decide_eq_true_eq] at h
    obtain ⟨⟨hl, ha⟩, hm⟩ := h
    unfold Memory.insert
    split
    · simp only [Memory.wfFrom, Bool.and_eq_true, decide_eq_true_eq]
      exact ⟨⟨hlo, hk⟩, ⟨by omega, ha⟩, hm⟩
    · split
      · next hka =>
        subst hka
        simp only [Memory.wfFrom, Bool.and_eq_true, decide_eq_true_eq]
        exact ⟨⟨hlo, hk⟩, hm⟩
      · simp only [Memory.wfFrom, Bool.and_eq_true, decide_eq_true_eq]
        exact ⟨⟨hl, ha⟩, ih hm (by omega)⟩

/-- Writing a word that exists keeps the canonical form. -/
theorem Memory.wf_insert {words k : Nat} {m : Memory} (v : BufWord) (h : Memory.wf words m = true)
    (hk : k < words) : Memory.wf words (Memory.insert m k v) = true :=
  Memory.wfFrom_insert v h (Nat.zero_le k) hk

/-- In canonical form no word below the bound is listed. -/
theorem Memory.find_below {words lo k : Nat} {m : Memory} (h : Memory.wfFrom words lo m = true)
    (hk : k < lo) : Memory.find m k = none := by
  induction m generalizing lo with
  | nil => rfl
  | cons e m ih =>
    obtain ⟨a, x⟩ := e
    simp only [Memory.wfFrom, Bool.and_eq_true, decide_eq_true_eq] at h
    have hak : a ≠ k := by omega
    simp only [Memory.find, hak, if_false]
    exact ih h.2 (by omega)

/-- WordRead after WordWrite (R48, R49). -/
theorem wordRead_wordWrite (s : State) (w w' : Nat) (v : BufWord) :
    wordRead (wordWrite w v s) w' = if w = w' then v else wordRead s w' := by
  simp only [wordRead, wordWrite_bitbuf, wordWrite_bitbufEpoch, Memory.find_insert]
  by_cases h : w = w' <;> simp [h]

/-- WordRead depends on BITBUF and the epoch alone. -/
theorem wordRead_congr {s t : State} (hb : t.bitbuf = s.bitbuf) (he : t.bitbufEpoch = s.bitbufEpoch)
    (w : Nat) : wordRead t w = wordRead s w := by
  simp [wordRead, hb, he]

/-- The bit a word gets at a stream position, and the bits it keeps at the others (R47). -/
theorem bitOfWord_setBitOfWord (v : BufWord) (p q : Nat) (b : Bool) :
    bitOfWord (setBitOfWord v p b) q = if p % 32 = q % 32 then b else bitOfWord v q := by
  have hq : 31 - q % 32 < 32 := by omega
  have key : (1#32 <<< (31 - p % 32)).getLsbD (31 - q % 32) = decide (p % 32 = q % 32) := by
    simp only [BitVec.getLsbD_shiftLeft, hq, BitVec.getLsbD_one, decide_true, Bool.true_and]
    by_cases h : p % 32 = q % 32
    · simp [h]
    · simp only [h, decide_false, Bool.and_eq_false_iff]
      by_cases h2 : 31 - q % 32 < 31 - p % 32
      · simp [h2]
      · simp only [h2, decide_false, Bool.not_false]
        right; simp; omega
  unfold bitOfWord setBitOfWord
  cases b
  · simp only [Bool.false_eq_true, if_false, BitVec.getLsbD_and, BitVec.getLsbD_not, key, hq, decide_true,
      Bool.true_and]
    split <;> simp_all
  · simp only [if_true, BitVec.getLsbD_or, key]
    split <;> simp_all

/-- The bit at a stream position after BitWrite (R46, R47). -/
theorem bitAt_bitWrite (s : State) (p q : Nat) (b : Bool) :
    bitAt (bitWrite p b s) q = if p = q then b else bitAt s q := by
  have hr : ∀ w, wordRead (bitWrite p b s) w
      = if p / 32 = w then setBitOfWord (wordRead s (p / 32)) p b else wordRead s w := by
    intro w; exact wordRead_wordWrite s (p / 32) w _
  unfold bitAt
  rw [hr]
  by_cases h : p / 32 = q / 32
  · rw [if_pos h, bitOfWord_setBitOfWord]
    by_cases h2 : p % 32 = q % 32
    · have : p = q := by omega
      simp [this]
    · have : p ≠ q := by rintro rfl; exact h2 rfl
      simp [this, h2, h]
  · have : p ≠ q := by rintro rfl; exact h rfl
    simp [h, this]

/-- The zero word has a 0 at every stream position. -/
theorem bitOfWord_zero (p : Nat) : bitOfWord 0#32 p = false := by simp [bitOfWord]

/-- The bit at a stream position after AppendBit (R97): the new bit at the old end; the rest of a word
entered at offset 0 is 0; every other position is as before. -/
theorem bitAt_appendBit (s : State) (b : Bool) (q : Nat) :
    bitAt (appendBit b s) q =
      if q = s.streamLen.toNat then b
      else if s.streamLen.toNat % 32 = 0 ∧ q / 32 = s.streamLen.toNat / 32 then false
      else bitAt s q := by
  have h0 : bitAt (appendBit b s) q = bitAt (bitWrite s.streamLen.toNat b
      (if s.streamLen.toNat % 32 = 0 then wordWrite (s.streamLen.toNat / 32) 0#32 s else s)) q := rfl
  rw [h0, bitAt_bitWrite]
  by_cases hq : s.streamLen.toNat = q
  · simp [hq]
  · rw [if_neg hq, if_neg (Ne.symm hq)]
    by_cases hm : s.streamLen.toNat % 32 = 0
    · rw [if_pos hm]
      unfold bitAt
      rw [wordRead_wordWrite]
      by_cases hw : s.streamLen.toNat / 32 = q / 32
      · simp [hw, hm, bitOfWord_zero]
      · simp [hw, Ne.symm hw]
    · rw [if_neg hm, if_neg (by simp [hm])]

/-- AppendBit within the buffer keeps its canonical form. -/
theorem wf_appendBit {s : State} (b : Bool) {words : Nat} (h : s.bitbuf.wf words = true)
    (hp : s.streamLen.toNat < 32 * words) : (appendBit b s).bitbuf.wf words = true := by
  have hk : s.streamLen.toNat / 32 < words := by omega
  have h0 : (appendBit b s).bitbuf = (bitWrite s.streamLen.toNat b
      (if s.streamLen.toNat % 32 = 0 then wordWrite (s.streamLen.toNat / 32) 0#32 s else s)).bitbuf := rfl
  rw [h0]
  split
  · exact Memory.wf_insert _ (Memory.wf_insert _ h hk) hk
  · exact Memory.wf_insert _ h hk

/-- STREAM_LEN after AppendBits grows by the number of bits, where it does not leave 32 bits. -/
theorem streamLen_appendBits (c : Code) (s : State) (h : s.streamLen.toNat + c.length < 2 ^ 32) :
    (appendBits c s).streamLen.toNat = s.streamLen.toNat + c.length := by
  induction c generalizing s with
  | nil => rfl
  | cons b c ih =>
    simp only [List.length_cons] at h
    have hs : (appendBit b s).streamLen.toNat = s.streamLen.toNat + 1 := by
      rw [appendBit_streamLen, BitVec.toNat_ofNat]; exact Nat.mod_eq_of_lt (by omega)
    rw [appendBits, ih _ (by omega), hs, List.length_cons]
    omega

/-- AppendBits within the buffer keeps its canonical form. -/
theorem wf_appendBits (c : Code) {s : State} {words : Nat} (h : s.bitbuf.wf words = true)
    (hp : s.streamLen.toNat + c.length ≤ 32 * words) (hb : 32 * words < 2 ^ 32) :
    (appendBits c s).bitbuf.wf words = true := by
  induction c generalizing s with
  | nil => exact h
  | cons b c ih =>
    simp only [List.length_cons] at hp
    have hs : (appendBit b s).streamLen.toNat = s.streamLen.toNat + 1 := by
      rw [appendBit_streamLen, BitVec.toNat_ofNat]; exact Nat.mod_eq_of_lt (by omega)
    exact ih (wf_appendBit b h (by omega)) (by omega)

end Sys2Proof.Machine
end

