-- ==== Sys2Proof/Laws/Ops.lean ====
section
/-! SUPPORT. What the shared operations answer, and which operands the operand kinds admit. -/

namespace Sys2Proof.Machine

/-! ### How a command ends -/

/-- `complete` answers one next state. -/
@[simp] theorem complete_eq_next {d : BitVec 64} {s t : State} :
    complete d s = .next t ↔ respond .ok d s = t := by simp [complete]

/-- `raise` answers one next state: the bookkeeping, then the response. -/
@[simp] theorem raise_eq_next {e : Status} {s t : State} :
    raise e s = .next t ↔ respond e 0#64 (bookError e s) = t := by simp [raise]

/-- `info` answers one next state: the response alone. -/
@[simp] theorem info_eq_next {e : Status} {s t : State} :
    info e s = .next t ↔ respond e 0#64 s = t := by simp [info]

/-- `complete` is `answered`. -/
theorem complete_answered (d : BitVec 64) (s : State) : complete d s = .next (answered d s) := rfl

/-- `raise` is `failed`, with the code of the status. -/
theorem raise_failed (e : Status) (s : State) : raise e s = .next (failed e (statusCode e).toNat s) := by
  cases e <;> rfl

/-- The statuses below 2 are OK and END_OF_STREAM (R119). -/
theorem isError_eq_false {e : Status} : isError e = false ↔ e = .ok ∨ e = .endOfStream := by
  cases e <;> decide

/-! ### Operand kinds (R66) -/

theorem symOperand_eq_some {a : BitVec 16} {x : Symbol} :
    symOperand a = some x ↔ a.toNat ≤ 255 ∧ x = a.setWidth 8 := by
  unfold symOperand
  split <;> simp [eq_comm, *]

theorem symOperand_eq_none {a : BitVec 16} : symOperand a = none ↔ 255 < a.toNat := by
  unfold symOperand
  split <;> simp_all

/-- A symbol in field A is read back. -/
theorem symOperand_setWidth (x : Symbol) : symOperand (x.setWidth 16) = some x := by
  rw [symOperand_eq_some]
  have := x.isLt
  refine ⟨?_, ?_⟩
  · rw [BitVec.toNat_setWidth, Nat.mod_eq_of_lt (by omega)]; omega
  · rw [BitVec.setWidth_setWidth_of_le x (by decide), BitVec.setWidth_eq]

theorem idxOperand_eq_none {a : BitVec 16} : idxOperand a = none ↔ 510 < a.toNat := by
  unfold idxOperand
  split
  · simp; omega
  · simp; omega

theorem idxOperand_eq_some {a : BitVec 16} {i : NodeIdx} : idxOperand a = some i ↔ i.val = a.toNat := by
  have hi := i.isLt
  unfold idxOperand
  split
  · simp only [Option.some.injEq, Fin.ext_iff, eq_comm]
  · simp only [reduceCtorEq, false_iff]; omega

theorem wordOperand_eq_none {words : Nat} {a : BitVec 16} :
    wordOperand words a = none ↔ words ≤ a.toNat := by
  unfold wordOperand
  split <;> simp_all

theorem wordOperand_eq_some {words : Nat} {a : BitVec 16} {w : Nat} :
    wordOperand words a = some w ↔ a.toNat < words ∧ w = a.toNat := by
  unfold wordOperand
  split <;> simp [eq_comm, *]

theorem lenOperand_eq_none {words : Nat} {b : BitVec 32} :
    lenOperand words b = none ↔ 32 * words < b.toNat := by
  unfold lenOperand
  split <;> simp_all

theorem lenOperand_eq_some {words : Nat} {b n : BitVec 32} :
    lenOperand words b = some n ↔ b.toNat ≤ 32 * words ∧ n = b := by
  unfold lenOperand
  split <;> simp [eq_comm, *]

theorem winOperand_eq_none {b : BitVec 32} : winOperand b = none ↔ 3 < b.toNat := by
  unfold winOperand
  split <;> simp_all

theorem winOperand_eq_some {b : BitVec 32} {n : Nat} :
    winOperand b = some n ↔ b.toNat ≤ 3 ∧ n = b.toNat := by
  unfold winOperand
  split <;> simp [eq_comm, *]

theorem widthOperand_eq_none {b : BitVec 32} : widthOperand b = none ↔ 255 < b.toNat := by
  unfold widthOperand
  split <;> simp_all

theorem widthOperand_eq_some {b : BitVec 32} {n : Nat} :
    widthOperand b = some n ↔ b.toNat ≤ 255 ∧ n = b.toNat := by
  unfold widthOperand
  split <;> simp [eq_comm, *]

theorem srcOperand_eq_none {a : BitVec 16} : srcOperand a = none ↔ 1 < a.toNat := by
  unfold srcOperand
  split <;> simp_all
  omega

theorem csrOperand_eq_none {a : BitVec 16} : csrOperand a = none ↔ 0x00F < a.toNat := by
  unfold csrOperand
  split <;> simp_all
  omega

/-! ### The arrays -/

/-- FREQ after one write (R76). -/
theorem freqOf_setFreq (s : State) (x y : Symbol) (c : Weight) :
    freqOf (setFreq x c s) y = if y = x then c else freqOf s y := by
  unfold freqOf
  simp only [setFreq_freq, Vector.getElem_set]
  by_cases h : y = x
  · simp [h]
  · have hxy : x.toNat ≠ y.toNat := fun e => h (BitVec.eq_of_toNat_eq e.symm)
    simp [h, hxy]

end Sys2Proof.Machine
end

