-- ==== Sys2Proof/Laws/PerInstr.lean ====
section
/-! SUPPORT. The families of statements made for every command. Family `TableRow`: the word of a command
matches its row of spec/opcode_table.json, whose match and mask are written out here. -/

namespace Sys2Proof.Laws.TableRow

/-- The match of the command's row of the opcode table. -/
def tableMatch : Instr → BitVec 64
  | .nop => 0x0000000000000000#64
  | .rdCsr _ => 0x0100000000000000#64
  | .clrErr => 0x0200000000000000#64
  | .softReset => 0x0300000000000000#64
  | .ftClear => 0x1000000000000000#64
  | .ftSet _ _ => 0x1100000000000000#64
  | .ftGet _ => 0x1200000000000000#64
  | .build => 0x2000000000000000#64
  | .nodeGet _ => 0x2100000000000000#64
  | .genCodes => 0x3000000000000000#64
  | .codeLen _ => 0x3100000000000000#64
  | .codeGet _ _ => 0x3200000000000000#64
  | .encReset => 0x4000000000000000#64
  | .encSym _ => 0x4100000000000000#64
  | .bbRead _ => 0x5000000000000000#64
  | .bbWrite _ _ => 0x5100000000000000#64
  | .bbSetLen _ => 0x5200000000000000#64
  | .decReset => 0x6000000000000000#64
  | .decSym => 0x6100000000000000#64
  | .metrics _ _ => 0x7000000000000000#64

/-- The mask of the command's row of the opcode table. -/
def tableMask : Instr → BitVec 64
  | .nop | .clrErr | .softReset | .ftClear | .build | .genCodes | .encReset | .decReset | .decSym =>
    0xFFFFFFFFFFFFFFFF#64
  | .rdCsr _ | .ftGet _ | .nodeGet _ | .codeLen _ | .encSym _ | .bbRead _ => 0xFFFF0000FFFFFFFF#64
  | .ftSet _ _ | .codeGet _ _ | .bbWrite _ _ | .metrics _ _ => 0xFFFF000000000000#64
  | .bbSetLen _ => 0xFFFFFFFF00000000#64

/-- The word of the command, under the mask of its row, is the row's match. -/
def Statement (i : Instr) : Prop := encode i &&& tableMask i = tableMatch i

/-- A word of four fields under a mask, field by field. -/
theorem masked (opc : BitVec 8) (a ma : BitVec 16) (b mb : BitVec 32) :
    (opc ++ 0#8 ++ a ++ b : BitVec 64) &&& (0xFF#8 ++ 0xFF#8 ++ ma ++ mb : BitVec 64)
      = opc ++ 0#8 ++ (a &&& ma) ++ (b &&& mb) := by
  have h : opc &&& 0xFF#8 = opc := BitVec.and_allOnes
  rw [BitVec.and_append, BitVec.and_append, BitVec.and_append, h]
  rfl

theorem nop : Statement .nop := by unfold Statement; decide
theorem rdCsr (csr : BitVec 16) : Statement (.rdCsr csr) := by
  refine (masked _ _ 0#16 _ 0xFFFFFFFF#32).trans ?_; simp [aOf, bOf, opcOf, tableMatch]
theorem clrErr : Statement .clrErr := by unfold Statement; decide
theorem softReset : Statement .softReset := by unfold Statement; decide
theorem ftClear : Statement .ftClear := by unfold Statement; decide
theorem ftSet (sym : BitVec 16) (count : BitVec 32) : Statement (.ftSet sym count) := by
  refine (masked _ _ 0#16 _ 0#32).trans ?_; simp [aOf, bOf, opcOf, tableMatch]
theorem ftGet (sym : BitVec 16) : Statement (.ftGet sym) := by
  refine (masked _ _ 0#16 _ 0xFFFFFFFF#32).trans ?_; simp [aOf, bOf, opcOf, tableMatch]
theorem build : Statement .build := by unfold Statement; decide
theorem nodeGet (idx : BitVec 16) : Statement (.nodeGet idx) := by
  refine (masked _ _ 0#16 _ 0xFFFFFFFF#32).trans ?_; simp [aOf, bOf, opcOf, tableMatch]
theorem genCodes : Statement .genCodes := by unfold Statement; decide
theorem codeLen (sym : BitVec 16) : Statement (.codeLen sym) := by
  refine (masked _ _ 0#16 _ 0xFFFFFFFF#32).trans ?_; simp [aOf, bOf, opcOf, tableMatch]
theorem codeGet (sym : BitVec 16) (win : BitVec 32) : Statement (.codeGet sym win) := by
  refine (masked _ _ 0#16 _ 0#32).trans ?_; simp [aOf, bOf, opcOf, tableMatch]
theorem encReset : Statement .encReset := by unfold Statement; decide
theorem encSym (sym : BitVec 16) : Statement (.encSym sym) := by
  refine (masked _ _ 0#16 _ 0xFFFFFFFF#32).trans ?_; simp [aOf, bOf, opcOf, tableMatch]
theorem bbRead (word : BitVec 16) : Statement (.bbRead word) := by
  refine (masked _ _ 0#16 _ 0xFFFFFFFF#32).trans ?_; simp [aOf, bOf, opcOf, tableMatch]
theorem bbWrite (word : BitVec 16) (data : BitVec 32) : Statement (.bbWrite word data) := by
  refine (masked _ _ 0#16 _ 0#32).trans ?_; simp [aOf, bOf, opcOf, tableMatch]
theorem bbSetLen (len : BitVec 32) : Statement (.bbSetLen len) := by
  refine (masked _ _ 0xFFFF#16 _ 0#32).trans ?_; simp [aOf, bOf, opcOf, tableMatch]
theorem decReset : Statement .decReset := by unfold Statement; decide
theorem decSym : Statement .decSym := by unfold Statement; decide
theorem metrics (src : BitVec 16) (width : BitVec 32) : Statement (.metrics src width) := by
  refine (masked _ _ 0#16 _ 0#32).trans ?_; simp [aOf, bOf, opcOf, tableMatch]

end Sys2Proof.Laws.TableRow
end

