-- ==== Sys2Proof/Laws/Step.lean ====
section
/-! SUPPORT. What one step can do, said once. -/

namespace Sys2Proof.Machine

/-- A step that answers a next state is a reset, an acceptance or a wait in IDLE, the execution of the
accepted word, or a transfer or a wait in RESPOND (R61, R134). -/
theorem step_cases {s t : State} (h : step s = .next t) :
    ((pinsNow s).rstN = false ∧ t = resetStep s) ∨
    ((pinsNow s).rstN = true ∧ s.resetSeen = true ∧ offerBroken s = false ∧
      ((s.port = .idle ∧ t = idleStep s) ∨
       (∃ w, s.port = .busy w ∧ execWord w (advance s) = .next t) ∨
       (∃ r, s.port = .respond r ∧ t = respondStep r s))) := by
  unfold step at h
  split at h
  · next hr => exact .inl ⟨hr, by simpa using h.symm⟩
  · next hr =>
    split at h
    · simp at h
    · next hs =>
      split at h
      · simp at h
      · next ho =>
        refine .inr ⟨by simpa using hr, by simpa using hs, by simpa using ho, ?_⟩
        split at h
        · next hp => exact .inl ⟨hp, by simpa using h.symm⟩
        · next w hp => exact .inr (.inl ⟨w, hp, h⟩)
        · next r hp => exact .inr (.inr ⟨r, hp, by simpa using h.symm⟩)

/-- The execution of a word is ILLEGAL_COMMAND or the meaning of the command it decodes to (R70). -/
theorem execWord_cases (w : Command) (s : State) :
    (∃ e, decode w = .error e ∧ execWord w s = raise .illegalCommand s) ∨
    (∃ i, decode w = .ok i ∧ execWord w s = exec i s) := by
  unfold execWord
  split
  · next e h => exact .inl ⟨e, h, rfl⟩
  · next i h => exact .inr ⟨i, h, rfl⟩

end Sys2Proof.Machine
end

