-- ==== Sys2Proof/Tests/Slice0.lean ====
section
/-! SUPPORT. Small tests against the examples of the spec (95_test_vectors.md and the rules' own examples), the
smoke test of WellFormed, and a witness for each statement that has hypotheses. -/

namespace Sys2Proof.Tests

open Sys2Proof.Machine

-- one kernel evaluation after the other, so that they do not take memory side by side
set_option Elab.async false

/-! ### Small states -/

/-- FREQ = A:1, B:1 (R78's example; 95 §1.1). -/
def abFreq : State := setFreq 0x42#8 1#32 (setFreq 0x41#8 1#32 State.reset)

/-- The tree of A:1, B:1. -/
def abTree : State := buildState abFreq

/-- The tree of A:1, B:1 with its codes "0" and "1" (95 §1.1). -/
def abCodes : State := genCodesState [(0x41#8, [false]), (0x42#8, [true])] abTree

/-- The source's ten frequencies (R88; 95 §1.2). -/
def srcFreq : State :=
  [(0x41#8, 45#32), (0x42#8, 13#32), (0x43#8, 12#32), (0x44#8, 16#32), (0x45#8, 9#32), (0x46#8, 5#32),
    (0x47#8, 4#32), (0x48#8, 3#32), (0x49#8, 2#32), (0x4A#8, 1#32)].foldl
    (fun s e => setFreq e.1 e.2 s) State.reset

/-- The tree of R88. -/
def srcTree : State := buildState srcFreq

/-- The tree of R88 with the codes of A "0", B "100" and J "101010" in its table (95 §1.2). -/
def srcCodes : State :=
  genCodesState [(0x41#8, [false]), (0x42#8, [true, false, false]),
    (0x4A#8, [true, false, true, false, true, false])] srcTree

/-- FREQ = Z:7 and its single-leaf tree (95 §1.3). -/
def zTree : State := buildState (setFreq 0x5A#8 7#32 State.reset)

/-- The single-leaf tree with its code "0". -/
def zCodes : State := genCodesState [(0x5A#8, [false])] zTree

/-- A stream of `n` bits whose first word is `v`. -/
def withStream (v : BufWord) (n : Nat) (s : State) : State :=
  { wordWrite 0 v s with streamLen := BitVec.ofNat 32 n }

/-- The response after a result. -/
def resp : Result → Option (Status × BitVec 64)
  | .next t => match t.port with
    | .respond r => some (r.status, r.data)
    | _ => none
  | _ => none

/-- One value of the state after a result. -/
def look {α : Type} (f : State → α) : Result → Option α
  | .next t => some (f t)
  | _ => none

/-- The result is a next state that holds a response of this status. -/
def endsWith (e : Status) (r : Result) : Bool :=
  match resp r with
  | some (x, _) => decide (x = e)
  | none => false

/-- What `endsWith` says. -/
theorem endsWith_spec {e : Status} {r : Result} (h : endsWith e r = true) :
    ∃ t d, r = .next t ∧ t.port = .respond ⟨e, d⟩ := by
  unfold endsWith resp at h
  split at h
  · next x d heq =>
    split at heq
    · next t =>
      split at heq
      · next r' hp =>
        simp only [Option.some.injEq, Prod.mk.injEq] at heq
        refine ⟨t, r'.data, rfl, ?_⟩
        rw [hp, ← of_decide_eq_true h, ← heq.1]
      · simp at heq
    · simp at heq
  · simp at h

/-- The sequence of commands completes. -/
theorem completeAll_spec {is : List Instr} {s : State} (h : (completeAll is s).isSome = true) :
    ∃ t ds, completeAll is s = some (t, ds) := by
  obtain ⟨⟨t, ds⟩, h⟩ := Option.isSome_iff_exists.mp h
  exact ⟨t, ds, h⟩

/-! ### Decoding: a word of every command, from 95 §2 and §3 and R67 -/

theorem test_decode_control :
    decode 0x0000000000000000#64 = .ok .nop ∧ decode 0x0100000800000000#64 = .ok (.rdCsr 8#16) ∧
    decode 0x0200000000000000#64 = .ok .clrErr ∧ decode 0x0300000000000000#64 = .ok .softReset := by decide

theorem test_decode_freq_table :
    decode 0x1000000000000000#64 = .ok .ftClear ∧
    decode 0x110000410000002D#64 = .ok (.ftSet 0x41#16 45#32) ∧
    decode 0x1200004A00000000#64 = .ok (.ftGet 0x4A#16) := by decide

theorem test_decode_tree :
    decode 0x2000000000000000#64 = .ok .build ∧ decode 0x2100000A00000000#64 = .ok (.nodeGet 10#16) := by decide

theorem test_decode_code_table :
    decode 0x3000000000000000#64 = .ok .genCodes ∧ decode 0x3100004A00000000#64 = .ok (.codeLen 0x4A#16) ∧
    decode 0x3200004A00000003#64 = .ok (.codeGet 0x4A#16 3#32) := by decide

theorem test_decode_encoder :
    decode 0x4000000000000000#64 = .ok .encReset ∧ decode 0x4100004200000000#64 = .ok (.encSym 0x42#16) := by decide

theorem test_decode_bit_buffer :
    decode 0x5000000000000000#64 = .ok (.bbRead 0#16) ∧
    decode 0x51000000A8000000#64 = .ok (.bbWrite 0#16 0xA8000000#32) ∧
    decode 0x5200000000000006#64 = .ok (.bbSetLen 6#32) := by decide

theorem test_decode_decoder :
    decode 0x6000000000000000#64 = .ok .decReset ∧ decode 0x6100000000000000#64 = .ok .decSym := by decide

theorem test_decode_metrics : decode 0x7000000100000004#64 = .ok (.metrics 1#16 4#32) := by decide

/-- V-X2, V-X3, V-X4, V-X5, V-X7, V-X12, V-X16 of 95 §2.1. -/
theorem test_decode_illegal :
    decode 0x0000000000000001#64 = .error .unusedNotZero ∧
    decode 0x0400000000000000#64 = .error .unassignedOpcode ∧
    decode 0xFF00000000000000#64 = .error .unassignedOpcode ∧
    decode 0x1101004100000001#64 = .error .reservedNotZero ∧
    decode 0x1200004100000001#64 = .error .unusedNotZero ∧
    decode 0x5200000100000000#64 = .error .unusedNotZero ∧
    decode 0x0100000000000001#64 = .error .unusedNotZero := by decide

/-! ### WellFormed: one ill-formed command for each check -/

theorem test_illFormed :
    Instr.wellFormed 1024 (.rdCsr 0x010#16) = false ∧ Instr.wellFormed 1024 (.ftSet 256#16 1#32) = false ∧
    Instr.wellFormed 1024 (.ftGet 256#16) = false ∧ Instr.wellFormed 1024 (.nodeGet 511#16) = false ∧
    Instr.wellFormed 1024 (.codeLen 256#16) = false ∧ Instr.wellFormed 1024 (.codeGet 256#16 0#32) = false ∧
    Instr.wellFormed 1024 (.codeGet 0x41#16 4#32) = false ∧ Instr.wellFormed 1024 (.encSym 256#16) = false ∧
    Instr.wellFormed 1024 (.bbRead 1024#16) = false ∧ Instr.wellFormed 1024 (.bbWrite 1024#16 0#32) = false ∧
    Instr.wellFormed 1024 (.bbSetLen 32769#32) = false ∧ Instr.wellFormed 1024 (.metrics 2#16 4#32) = false ∧
    Instr.wellFormed 1024 (.metrics 0#16 256#32) = false := by decide

theorem test_wellFormed_bounds :
    Instr.wellFormed 1024 (.rdCsr 0x00F#16) = true ∧ Instr.wellFormed 1024 (.nodeGet 510#16) = true ∧
    Instr.wellFormed 1024 (.bbRead 1023#16) = true ∧ Instr.wellFormed 1024 (.bbSetLen 32768#32) = true ∧
    Instr.wellFormed 1024 (.codeGet 255#16 3#32) = true ∧ Instr.wellFormed 1024 (.metrics 1#16 255#32) = true := by decide

/-! ### One step of each command -/

/-- V-X1. -/
theorem test_nop : resp (exec .nop State.reset) = some (.ok, 0#64) := by decide

/-- V-K2. -/
theorem test_rdCsr_hwParams :
    resp (exec (.rdCsr 1#16) State.reset) = some (.ok, 0x0000040001FF2008#64) := by decide

/-- V-K3: BITBUF_WORDS = 1. -/
theorem test_rdCsr_hwParams_one :
    resp (exec (.rdCsr 1#16) (State.resetFor 1 0)) = some (.ok, 0x0000000101FF2008#64) := by decide

/-- V-X17, with the bookkeeping of R121. -/
theorem test_rdCsr_unimplemented :
    look (fun t => (t.lastErr, t.errMask)) (exec (.rdCsr 0x010#16) State.reset) = some (3#4, 0x0008#16) := by decide

/-- V-K6. -/
theorem test_clrErr :
    look statusCsr (exec .clrErr { State.reset with lastErr := 4#4, errMask := 0x0010#16 }) = some 0#64 := by decide

/-- V-K7: BITBUF is kept, the tree is gone. -/
theorem test_softReset :
    look (fun t => (wordRead t 0, t.treeValid, freqOf t 0x41#8))
      (exec .softReset (withStream 0x40000000#32 2 abCodes)) = some (0x40000000#32, false, 0#32) := by
  decide +kernel

/-- R75's example. -/
theorem test_ftClear :
    look (fun t => (freqOf t 0x41#8, t.treeValid)) (exec .ftClear abTree) = some (0#32, false) := by decide +kernel

/-- R76's example. -/
theorem test_ftSet :
    look (fun t => (freqOf t 0x41#8, freqOf t 0x42#8, t.codesValid)) (exec (.ftSet 0x41#16 45#32) abCodes)
      = some (45#32, 1#32, false) := by decide +kernel

/-- V-X6. -/
theorem test_ftSet_bad : resp (exec (.ftSet 256#16 1#32) State.reset) = some (.badOperand, 0#64) := by decide

/-- R77's example, with the last symbol of the alphabet. -/
theorem test_ftGet : resp (exec (.ftGet 0xFF#16) (setFreq 0xFF#8 7#32 State.reset)) = some (.ok, 7#64) := by
  decide +kernel

/-- The worked tree of R88: BUILD's data. -/
theorem test_build_source : resp (exec .build srcFreq) = some (.ok, 0x0012000A0000006E#64) := by decide +kernel

/-- V-B2: the total is 2^32. -/
theorem test_build_overflow :
    resp (exec .build (setFreq 0#8 0xFFFFFFFF#32 (setFreq 1#8 1#32 State.reset)))
      = some (.weightOverflow, 0#64) := by decide +kernel

/-- R84's first example. -/
theorem test_nodeGet : resp (exec (.nodeGet 10#16) srcTree) = some (.ok, 0x8000100900000003#64) := by
  decide +kernel

/-- 95 §2.2, index 19. -/
theorem test_nodeGet_above : resp (exec (.nodeGet 19#16) srcTree) = some (.badOperand, 0#64) := by
  decide +kernel

/-- R89's example: MAX_CODE_LEN 6, J "101010". -/
theorem test_genCodes :
    look (fun t => (t.maxCodeLen, lenOf t 0x4A#8, bitsOf t 0x4A#8)) (exec .genCodes srcTree)
      = some (6#8, 6#8, 0x2A#256) := by decide +kernel

/-- V-C6: a single leaf gets "0". -/
theorem test_genCodes_single :
    look (fun t => (t.maxCodeLen, lenOf t 0x5A#8, bitsOf t 0x5A#8)) (exec .genCodes zTree)
      = some (1#8, 1#8, 0#256) := by decide +kernel

/-- V-C3. -/
theorem test_codeLen : resp (exec (.codeLen 0x4A#16) srcCodes) = some (.ok, 6#64) := by decide +kernel

/-- V-C2. -/
theorem test_codeLen_noCodes : resp (exec (.codeLen 0x41#16) srcTree) = some (.noCodes, 0#64) := by decide +kernel

/-- V-C4. -/
theorem test_codeGet : resp (exec (.codeGet 0x4A#16 0#32) srcCodes) = some (.ok, 0x2A#64) := by decide +kernel

/-- A bit above 64 is seen through window 1 (R95). -/
theorem test_codeGet_window :
    codeWindow (1#256 <<< 70) 1 = 64#64 ∧ codeWindow (1#256 <<< 70) 0 = 0#64 := by decide

/-- V-E10. -/
theorem test_encReset :
    look (fun t => (t.streamLen, wordRead t 0)) (exec .encReset (withStream 0x4A800000#32 10 srcCodes))
      = some (0#32, 0x4A800000#32) := by decide +kernel

/-- V-E2: the sixth J straddles words 0 and 1, and word 1 is zeroed on entry. -/
theorem test_encSym_straddle :
    look (fun t => (wordRead t 0, wordRead t 1, t.streamLen))
      (exec (.encSym 0x4A#16) (withStream 0xAAAAAAA8#32 30 (wordWrite 1 0xFFFFFFFF#32 srcCodes)))
      = some (0xAAAAAAAA#32, 0xA0000000#32, 36#32) := by decide +kernel

/-- V-E3: a word entered mid-way keeps its other bits. -/
theorem test_encSym_midword :
    look (fun t => (wordRead t 0, t.encBitCount)) (exec (.encSym 0x41#16) (withStream 0xFFFFFFFF#32 4 srcCodes))
      = some (0xF7FFFFFF#32, 1#32) := by decide +kernel

/-- V-E9. -/
theorem test_bbRead : resp (exec (.bbRead 3#16) (wordWrite 3 0x12345678#32 State.reset)) = some (.ok, 0x12345678#64) := by
  decide

/-- A word no one wrote: BB_READ completes, with the free value (log entry 2). -/
theorem test_bbRead_unwritten :
    resp (exec (.bbRead 5#16) State.reset) = some (.ok, (Config.bitbufFree 0 5).setWidth 64) := rfl

/-- R101: the first stream bit is bit 31 (R45). -/
theorem test_bbWrite :
    look (fun t => (bitAt t 0, bitAt t 1, bitAt t 32)) (exec (.bbWrite 0#16 0x80000000#32) (wordWrite 1 0#32 State.reset))
      = some (true, false, false) := by decide

/-- R102's examples. -/
theorem test_bbSetLen :
    look (fun t => t.streamLen) (exec (.bbSetLen 32768#32) State.reset) = some 32768#32 ∧
    resp (exec (.bbSetLen 32769#32) State.reset) = some (.badOperand, 0#64) := by decide

/-- R104. -/
theorem test_decReset :
    look (fun t => (t.decBitPos, t.decSymCount)) (exec .decReset { State.reset with decBitPos := 10#32, decSymCount := 3#32 })
      = some (0#32, 0#32) := by decide

/-- V-D2, the third symbol: J from position 4 of "0100101010". -/
theorem test_decSym :
    resp (exec .decSym { withStream 0x4A800000#32 10 srcTree with decBitPos := 4#32 }) = some (.ok, 0x064A#64) := by
  decide +kernel

/-- V-D3: "10101" is truncated; nothing moves. -/
theorem test_decSym_truncated :
    look (fun t => (t.lastErr, t.decBitPos)) (exec .decSym (withStream 0xA8000000#32 5 srcTree)) = some (10#4, 0#32) := by
  decide +kernel

/-- V-M1. -/
theorem test_metrics_table :
    resp (exec (.metrics 1#16 4#32) (genCodesState [(0x41#8, [false]), (0x42#8, [true, false, false]),
      (0x43#8, [true, true, true, true]), (0x44#8, [true, true, false]), (0x45#8, [true, false, true, true]),
      (0x46#8, [true, true, true, false, true]), (0x47#8, [true, true, true, false, false]),
      (0x48#8, [true, false, true, false, false]), (0x49#8, [true, false, true, false, true, true]),
      (0x4A#8, [true, false, true, false, true, false])] srcTree)) = some (.ok, 0x17F21#64) := by decide +kernel

/-- V-M4. -/
theorem test_metrics_undefined :
    look (fun t => (t.lastErr, t.ratioValid)) (exec (.metrics 0#16 8#32) { State.reset with ratioValid := true })
      = some (12#4, false) := by decide

/-- A placed word is executed by the next step, and an illegal one ends with ILLEGAL_COMMAND (V-X3). -/
theorem test_step_illegal :
    look (fun t => statusCsr t) (step (State.reset.withFetchWord 64 0x0400000000000000)) = some 0x0000000000040020#64 := by
  decide

/-- R61: an offer is accepted in IDLE. -/
theorem test_step_accept :
    look (fun t => t.port) (step { State.reset with inputs := [⟨true, true, 0x2000000000000000#64, false⟩] })
      = some (.busy 0x2000000000000000#64) := by decide

/-! ### The invariants hold in states with a tree and codes -/

theorem inv_of_tree {s : State} (hw : 1 ≤ s.bitbufWords ∧ s.bitbufWords ≤ 65536)
    (hm : s.bitbuf.wf s.bitbufWords = true) (ht : s.treeValid = true) (hT : TreeCurrent s)
    (hc : s.codesValid = true → CodesCurrent s) (hs : s.streamLen.toNat ≤ bitbufBits s)
    (he : s.lastErr = 0#4 ∧ s.errMask = 0#16)
    (hk : 1 ≤ s.leafCount.toNat ∧ s.leafCount.toNat ≤ 256 ∧ s.nodeCount.toNat = 2 * s.leafCount.toNat - 1) :
    Inv s where
  words := hw
  memory := hm
  codesNeedTree := fun _ => ht
  tree := fun _ => hT
  codes := hc
  stream := hs
  errors := ⟨by simp [he], .inl he.1, fun h => absurd he.1 h, by rw [he.2]; decide⟩
  counts := fun _ => hk

theorem treeCurrent_abTree : TreeCurrent abTree :=
  ⟨by decide +kernel, by decide +kernel, by decide +kernel, by decide +kernel, by decide +kernel, by decide +kernel,
    by decide +kernel⟩

theorem treeCurrent_zTree : TreeCurrent zTree :=
  ⟨by decide +kernel, by decide +kernel, by decide +kernel, by decide +kernel, by decide +kernel, by decide +kernel,
    by decide +kernel⟩

/-- GEN_CODES leaves a current code table. -/
theorem codesCurrent_genCodes {s : State} {codes : List (Symbol × Code)}
    (h : treeCodes s.node s.root = some codes) : CodesCurrent (genCodesState codes s) :=
  ⟨codes, h, rfl, rfl, rfl⟩

theorem codesCurrent_abCodes : CodesCurrent abCodes := codesCurrent_genCodes (by decide +kernel)

theorem codesCurrent_zCodes : CodesCurrent zCodes := codesCurrent_genCodes (by decide +kernel)

/-- TreeCurrent does not look at the code table. -/
theorem treeCurrent_genCodes {s : State} (codes : List (Symbol × Code)) (h : TreeCurrent s) :
    TreeCurrent (genCodesState codes s) :=
  ⟨h.nonempty, h.fits, h.nodes, h.root, h.leafCount, h.nodeCount, h.totalWeight⟩

theorem treeCurrent_abCodes : TreeCurrent abCodes := treeCurrent_genCodes _ treeCurrent_abTree

theorem treeCurrent_zCodes : TreeCurrent zCodes := treeCurrent_genCodes _ treeCurrent_zTree

theorem inv_abTree : Inv abTree :=
  inv_of_tree (by decide) rfl rfl treeCurrent_abTree (fun h => by cases h) (by decide) ⟨rfl, rfl⟩ (by decide +kernel)

theorem inv_abCodes : Inv abCodes :=
  inv_of_tree (by decide) rfl rfl treeCurrent_abCodes (fun _ => codesCurrent_abCodes) (by decide) ⟨rfl, rfl⟩
    (by decide +kernel)

theorem inv_zCodes : Inv zCodes :=
  inv_of_tree (by decide) rfl rfl treeCurrent_zCodes (fun _ => codesCurrent_zCodes) (by decide) ⟨rfl, rfl⟩
    (by decide +kernel)

theorem inv_reset : Inv State.reset where
  words := by decide
  memory := rfl
  codesNeedTree := fun h => by cases h
  tree := fun h => by cases h
  codes := fun h => by cases h
  stream := by decide
  errors := ⟨by decide, .inl rfl, fun h => absurd rfl h, by decide⟩
  counts := fun h => by cases h

/-! ### Witnesses: for each statement with hypotheses, states and operands that meet them together -/

/-- A word `illegalWord` is said of. -/
theorem illegalWord_spec {w : Command} {e : DecodeError} (h : decode w = .error e) : illegalWord w := by
  intro i hi
  rw [h] at hi
  cases hi

theorem witness_EncodeDecodeInverse : decode 0x7000000100000004#64 = .ok (.metrics 1#16 4#32) := by decide

/-- One word for each ground of R68: OPC, RSV, A, B. -/
theorem witness_LegalWordsExactly :
    illegalWord 0x0400000000000000#64 ∧ illegalWord 0x1101004100000001#64 ∧
    illegalWord 0x5200000100000000#64 ∧ illegalWord 0x1200004100000001#64 :=
  ⟨illegalWord_spec (e := .unassignedOpcode) (by decide), illegalWord_spec (e := .reservedNotZero) (by decide),
    illegalWord_spec (e := .unusedNotZero) (by decide), illegalWord_spec (e := .unusedNotZero) (by decide)⟩

/-- BUILD accepted, and the host offering another word meanwhile. -/
def busyState : State :=
  { State.reset with
    port := .busy 0x2000000000000000#64
    inputs := [⟨true, true, 0#64, false⟩] }

/-- The same with an unassigned opcode accepted. -/
def busyIllegal : State := { busyState with port := .busy 0x0400000000000000#64 }

/-- A word that is a command, and one that is none. -/
theorem witness_StepRunsDecodedCommand :
    (busyState.port = .busy 0x2000000000000000#64 ∧ decode 0x2000000000000000#64 = .ok .build ∧
      (pinsNow busyState).rstN = true ∧ busyState.resetSeen = true ∧ offerBroken busyState = false) ∧
    (busyIllegal.port = .busy 0x0400000000000000#64 ∧ illegalWord 0x0400000000000000#64 ∧
      (pinsNow busyIllegal).rstN = true ∧ busyIllegal.resetSeen = true ∧ offerBroken busyIllegal = false) :=
  ⟨by decide, rfl, illegalWord_spec (e := .unassignedOpcode) (by decide), rfl, rfl, rfl⟩

/-- The least and the greatest opcode. -/
theorem witness_PlacedCommandRunsNext :
    decodeTableWord 64 0 = some .nop ∧
    decodeTableWord 64 0x70000001000000FF = some (.metrics 1#16 255#32) := by decide

/-- An IDLE block that samples these pins. -/
def idleWith (valid : Bool) : State := { State.reset with inputs := [⟨true, valid, 5#64, false⟩] }

/-- A block that holds a response and samples these pins. -/
def respondWith (ready : Bool) : State :=
  { State.reset with port := .respond ⟨.ok, 7#64⟩, inputs := [⟨true, false, 0#64, ready⟩] }

theorem witness_PortHandshake :
    ((pinsNow (idleWith true)).rstN = true ∧ (idleWith true).resetSeen = true ∧
      offerBroken (idleWith true) = false ∧ (idleWith true).port = .idle ∧
      (pinsNow (idleWith true)).cmdValid = true) ∧
    ((pinsNow (idleWith false)).rstN = true ∧ (idleWith false).resetSeen = true ∧
      offerBroken (idleWith false) = false ∧ (idleWith false).port = .idle ∧
      (pinsNow (idleWith false)).cmdValid = false) ∧
    ((pinsNow (respondWith true)).rstN = true ∧ (respondWith true).resetSeen = true ∧
      offerBroken (respondWith true) = false ∧ (respondWith true).port = .respond ⟨.ok, 7#64⟩ ∧
      (pinsNow (respondWith true)).rspReady = true) ∧
    ((pinsNow (respondWith false)).rstN = true ∧ (respondWith false).resetSeen = true ∧
      offerBroken (respondWith false) = false ∧ (respondWith false).port = .respond ⟨.ok, 7#64⟩ ∧
      (pinsNow (respondWith false)).rspReady = false) := by decide

theorem witness_ResetStepGivesResetState :
    (pinsNow { busyState with inputs := [⟨false, true, 0#64, true⟩] }).rstN = false := by decide

theorem witness_StepKeepsInvariant : Inv abCodes ∧ ∃ t, step abCodes = .next t :=
  ⟨inv_abCodes, idleStep abCodes, rfl⟩

/-- A block with a tree and codes that executes DEC_SYM. -/
def busyCodes : State := { abCodes with port := .busy 0x6100000000000000#64 }

/-- The invariants do not look at the port. -/
theorem inv_port {s : State} (p : Port) (h : Inv s) : Inv { s with port := p } where
  words := h.words
  memory := h.memory
  codesNeedTree := h.codesNeedTree
  tree := fun v => have c := h.tree v
    ⟨c.nonempty, c.fits, c.nodes, c.root, c.leafCount, c.nodeCount, c.totalWeight⟩
  codes := h.codes
  stream := h.stream
  errors := ⟨h.errors.bothZero, h.errors.range, h.errors.inMask, h.errors.reserved⟩
  counts := h.counts

theorem witness_EveryStepAnswers :
    Inv busyCodes ∧ busyCodes.resetSeen = true ∧ offerBroken busyCodes = false ∧
    busyCodes.port = .busy 0x6100000000000000#64 ∧ (pinsNow busyCodes).rstN = true :=
  ⟨inv_port _ inv_abCodes, rfl, rfl, rfl, rfl⟩

/-- A status of 2 or more, of a command and of an illegal word, and one below 2. -/
theorem witness_ErrorBookkeeping :
    (∃ t d, execWord 0x2000000000000000#64 State.reset = .next t ∧ t.port = .respond ⟨.emptyAlphabet, d⟩) ∧
    2 ≤ (statusCode .emptyAlphabet).toNat ∧
    (∃ t d, execWord 0xFF00000000000000#64 State.reset = .next t ∧ t.port = .respond ⟨.illegalCommand, d⟩) ∧
    2 ≤ (statusCode .illegalCommand).toNat ∧
    (∃ t d, execWord 0#64 State.reset = .next t ∧ t.port = .respond ⟨.ok, d⟩) ∧
    (statusCode .ok).toNat < 2 ∧ decode 0#64 ≠ .ok .clrErr ∧ decode 0#64 ≠ .ok .softReset :=
  ⟨endsWith_spec (by decide +kernel), by decide, endsWith_spec (by decide +kernel), by decide,
    endsWith_spec (by decide +kernel), by decide, by decide, by decide⟩

theorem witness_ErrorLeavesStateAsBefore :
    (∃ t d, exec .decSym State.reset = .next t ∧ t.port = .respond ⟨.noTree, d⟩) ∧
    2 ≤ (statusCode .noTree).toNat ∧
    (∃ t d, exec (.metrics 0#16 8#32) State.reset = .next t ∧ t.port = .respond ⟨.ratioUndefined, d⟩) ∧
    2 ≤ (statusCode .ratioUndefined).toNat :=
  ⟨endsWith_spec (by decide), by decide, endsWith_spec (by decide), by decide⟩

/-- Each status of R119 but ILLEGAL_COMMAND, which no command that decodes ends with. -/
theorem witness_ResponsesPerCommand :
    endsWith .endOfStream (exec .decSym abTree) = true ∧
    endsWith .badOperand (exec (.bbSetLen 32769#32) State.reset) = true ∧
    endsWith .emptyAlphabet (exec .build State.reset) = true ∧
    endsWith .weightOverflow
      (exec .build (setFreq 0#8 0xFFFFFFFF#32 (setFreq 1#8 1#32 State.reset))) = true ∧
    endsWith .noTree (exec .genCodes State.reset) = true ∧
    endsWith .noCodes (exec (.metrics 1#16 8#32) State.reset) = true ∧
    endsWith .symbolNotInTable (exec (.encSym 0x43#16) abCodes) = true ∧
    endsWith .streamOverflow (exec (.encSym 0x41#16) { abCodes with streamLen := 32768#32 }) = true ∧
    endsWith .truncatedStream (exec .decSym (withStream 0xA8000000#32 5 srcTree)) = true ∧
    endsWith .invalidCode (exec .decSym (withStream 0x80000000#32 1 zTree)) = true ∧
    endsWith .ratioUndefined (exec (.metrics 0#16 8#32) State.reset) = true := by decide +kernel

/-- The first value out of each range. -/
theorem witness_OutOfRangeOperandRaises :
    0x00F < (0x010#16).toNat ∧ 255 < (256#16).toNat ∧ 510 < (511#16).toNat ∧ 3 < (4#32).toNat ∧
    State.reset.bitbufWords ≤ (1024#16).toNat ∧ 32 * State.reset.bitbufWords < (32769#32).toNat ∧
    1 < (2#16).toNat ∧ 255 < (256#32).toNat := by decide

theorem witness_RegisterWriters :
    ∃ t d, exec (.encSym 0x41#16) abCodes = .next t ∧ t.port = .respond ⟨.ok, d⟩ :=
  endsWith_spec (by decide +kernel)

theorem witness_ValidityFlagsFollowTable :
    (∃ t d, exec .build abFreq = .next t ∧ t.port = .respond ⟨.ok, d⟩) ∧
    (∃ t d, exec .genCodes abTree = .next t ∧ t.port = .respond ⟨.ok, d⟩) ∧
    (∃ t d, exec (.ftSet 255#16 0#32) abCodes = .next t ∧ t.port = .respond ⟨.ok, d⟩) ∧
    (∃ t d, exec .decReset abCodes = .next t ∧ t.port = .respond ⟨.ok, d⟩) :=
  ⟨endsWith_spec (by decide +kernel), endsWith_spec (by decide +kernel), endsWith_spec (by decide +kernel),
    endsWith_spec (by decide +kernel)⟩

theorem witness_ReadsHaveNoSideEffect :
    Instr.nodeGet 2#16 ∈ [Instr.ftGet 2#16, .nodeGet 2#16, .codeLen 2#16, .codeGet 2#16 0#32, .bbRead 2#16,
      .rdCsr 2#16] ∧
    (∃ t d, exec (.nodeGet 2#16) abTree = .next t ∧ t.port = .respond ⟨.ok, d⟩) ∧
    (∃ t d, exec (.nodeGet 3#16) abTree = .next t ∧ t.port = .respond ⟨.badOperand, d⟩) :=
  ⟨by decide, endsWith_spec (by decide +kernel), endsWith_spec (by decide +kernel)⟩

/-- The word clauses of NopChangesNothing, ClrErrClearsBookkeeping, SoftResetGivesResetState,
FtClearEmptiesTable, EncResetStartsStream and DecResetStartsDecoding: the legal word and another. -/
theorem witness_wordClauses :
    opcField 0x0000000000000000#64 = 0x00#8 ∧ opcField 0x0000000000000001#64 = 0x00#8 ∧
    opcField 0x0200000000000000#64 = 0x02#8 ∧ opcField 0x0200000000000001#64 = 0x02#8 ∧
    opcField 0x0300000000000000#64 = 0x03#8 ∧ opcField 0x0300000100000000#64 = 0x03#8 ∧
    opcField 0x1000000000000000#64 = 0x10#8 ∧ opcField 0x1001000000000000#64 = 0x10#8 ∧
    opcField 0x4000000000000000#64 = 0x40#8 ∧ opcField 0x4000000000000001#64 = 0x40#8 ∧
    opcField 0x6000000000000000#64 = 0x60#8 ∧ opcField 0x6000000100000000#64 = 0x60#8 := by decide

/-- The word clauses of the commands with operands: a legal word, and one with RSV or an unused field
not 0. -/
theorem witness_wordClauses_operands :
    (opcField 0x110000410000002D#64 = 0x11#8 ∧ rsvField 0x110000410000002D#64 = 0#8) ∧
    (opcField 0x110100410000002D#64 = 0x11#8 ∧ rsvField 0x110100410000002D#64 ≠ 0#8) ∧
    (opcField 0x1200004A00000000#64 = 0x12#8 ∧ bField 0x1200004A00000000#64 = 0#32) ∧
    (opcField 0x1200004A00000001#64 = 0x12#8 ∧ bField 0x1200004A00000001#64 ≠ 0#32) ∧
    (opcField 0x2100000A00000000#64 = 0x21#8 ∧ rsvField 0x2180000A00000000#64 ≠ 0#8) ∧
    (opcField 0x3100004A00000000#64 = 0x31#8 ∧ bField 0x3100004A80000000#64 ≠ 0#32) ∧
    (opcField 0x3200004A00000003#64 = 0x32#8 ∧ rsvField 0x3201004A00000003#64 ≠ 0#8) ∧
    (opcField 0x5000000000000000#64 = 0x50#8 ∧ bField 0x5000000000000001#64 ≠ 0#32) ∧
    (opcField 0x51000000A8000000#64 = 0x51#8 ∧ rsvField 0x51FF0000A8000000#64 ≠ 0#8) ∧
    (opcField 0x5200000000008000#64 = 0x52#8 ∧ aField 0x5200000000008000#64 = 0#16 ∧
      aField 0x5200000100008000#64 ≠ 0#16) := by decide

theorem witness_StatusCsrFields : Inv abCodes := inv_abCodes

/-- The least, the default and the greatest BITBUF_WORDS. -/
theorem witness_HwParamsFields :
    1 ≤ (State.resetFor 1 0).bitbufWords ∧ State.reset.bitbufWords = 1024 ∧
    (State.resetFor 65536 0).bitbufWords ≤ 65536 := by decide

/-- FtSetWritesCount, FtGetReadsCount: the last symbol, and the first operand that is none. -/
theorem witness_symbolOperands : (255#16).toNat ≤ 255 ∧ 255 < (256#16).toNat := by decide

theorem witness_FtGetReadsCount :
    ∃ t d, exec (.ftSet 0x4A#16 1#32) State.reset = .next t ∧ t.port = .respond ⟨.ok, d⟩ :=
  endsWith_spec (by decide +kernel)

theorem witness_BuildFailures :
    (∀ sym, freqOf State.reset sym = 0#32) ∧
    (∃ sym, freqOf (setFreq 0#8 0xFFFFFFFF#32 (setFreq 1#8 1#32 State.reset)) sym ≠ 0#32) ∧
    2 ^ 32 - 1 < totalCount (setFreq 0#8 0xFFFFFFFF#32 (setFreq 1#8 1#32 State.reset)).freq := by
  refine ⟨by decide +kernel, ⟨0#8, ?_⟩, ?_⟩ <;> decide +kernel

/-- The total exactly 2^32 − 1. -/
theorem witness_BuildCompletes :
    (∃ sym, freqOf (setFreq 0#8 0xFFFFFFFE#32 (setFreq 1#8 1#32 State.reset)) sym ≠ 0#32) ∧
    totalCount (setFreq 0#8 0xFFFFFFFE#32 (setFreq 1#8 1#32 State.reset)).freq = 2 ^ 32 - 1 := by
  refine ⟨⟨0#8, ?_⟩, ?_⟩ <;> decide +kernel

/-- BuiltTreeShape, MergesTakeTheTwoLeast and BuildIsOptimal: the source's ten symbols. -/
theorem witness_buildOk : ∃ t d, exec .build srcFreq = .next t ∧ t.port = .respond ⟨.ok, d⟩ :=
  endsWith_spec (by decide +kernel)

/-- MergesTakeTheTwoLeast: an internal node of the tree of R88 (95 §2.2: node 10 is made of nodes 8 and 9). -/
theorem witness_mergedNode : alphabetSize srcFreq ≤ 10 ∧ 10 < 2 * alphabetSize srcFreq - 1 ∧
    srcTree.node[(10 : NodeIdx)] = .internal 3#32 9 8 := by decide +kernel

/-- BuildIsOptimal: a full binary tree over the leaf weights of A:1, B:1. -/
theorem witness_BuildIsOptimal :
    (leafWeights (.node (.leaf 1) (.leaf 1))).Perm ((alphabet abFreq.freq).map fun e => e.2.toNat) := by
  decide +kernel

theorem witness_ValidTreeInvariants :
    Inv abTree ∧ abTree.treeValid = true ∧ 2 < abTree.nodeCount.toNat ∧
    abTree.node[(2 : NodeIdx)] = .internal 2#32 0 1 :=
  ⟨inv_abTree, rfl, by decide +kernel, by decide +kernel⟩

theorem witness_SingleSymbolTree :
    freqOf (setFreq 0x5A#8 7#32 State.reset) 0x5A#8 ≠ 0#32 ∧
    ∀ x, x ≠ 0x5A#8 → freqOf (setFreq 0x5A#8 7#32 State.reset) x = 0#32 := by decide +kernel

/-- NODE_COUNT − 1, a leaf and the root of the tree of A:1, B:1, and NODE_COUNT. -/
theorem witness_NodeGetReadsRecord :
    State.reset.treeValid = false ∧ abTree.treeValid = true ∧ (510#16).toNat ≤ 510 ∧ 510 < (511#16).toNat ∧
    (2#16).toNat < abTree.nodeCount.toNat ∧ abTree.nodeCount.toNat ≤ (3#16).toNat ∧
    abTree.node[(0 : NodeIdx)] = .leaf 0x41#8 1#32 ∧ abTree.node[(2 : NodeIdx)] = .internal 2#32 0 1 := by
  decide +kernel

theorem witness_GenCodesGivesPathCodes :
    State.reset.treeValid = false ∧ Inv abTree ∧ abTree.treeValid = true ∧ 2 ≤ alphabetSize abTree ∧
    freqOf abTree 0x41#8 ≠ 0#32 ∧ freqOf abTree 0x43#8 = 0#32 :=
  ⟨rfl, inv_abTree, rfl, by decide +kernel, by decide +kernel, by decide +kernel⟩

theorem witness_SingleLeafCode : zTree.treeValid = true ∧ zTree.node[zTree.root] = .leaf 0x5A#8 7#32 := by
  decide +kernel

theorem witness_CodesArePrefixFree :
    Inv abCodes ∧ abCodes.codesValid = true ∧ lenOf abCodes 0x41#8 ≠ 0#8 ∧ lenOf abCodes 0x42#8 ≠ 0#8 :=
  ⟨inv_abCodes, rfl, by decide +kernel, by decide +kernel⟩

/-- Two symbols, and one. -/
theorem witness_CodeLengthsAreBounded :
    (Inv abCodes ∧ abCodes.codesValid = true ∧ 2 ≤ alphabetSize abCodes) ∧
    (Inv zCodes ∧ zCodes.codesValid = true ∧ alphabetSize zCodes = 1 ∧ freqOf zCodes 0x5A#8 ≠ 0#32) :=
  ⟨⟨inv_abCodes, rfl, by decide +kernel⟩, inv_zCodes, rfl, by decide +kernel, by decide +kernel⟩

/-- CodeLenReadsLength and CodeGetReadsWindow: without and with codes, at the last symbol and window. -/
theorem witness_codeReads :
    State.reset.codesValid = false ∧ abCodes.codesValid = true ∧ (255#16).toNat ≤ 255 ∧ (3#32).toNat ≤ 3 ∧
    255 < (256#16).toNat ∧ 3 < (4#32).toNat := by decide

theorem witness_EncResetStartsStream : abCodes.treeValid = true := rfl

/-- EncSymFailures and EncSymCompletes: the code fits exactly, and is one bit too long. -/
theorem witness_encSym :
    State.reset.codesValid = false ∧ abCodes.codesValid = true ∧ lenOf abCodes 0x43#8 = 0#8 ∧
    lenOf abCodes 0x41#8 ≠ 0#8 ∧ abCodes.bitbufWords ≤ 65536 ∧
    { abCodes with streamLen := 32767#32 }.streamLen.toNat + (lenOf abCodes 0x41#8).toNat
      = 32 * abCodes.bitbufWords ∧
    32 * abCodes.bitbufWords
      < { abCodes with streamLen := 32768#32 }.streamLen.toNat + (lenOf abCodes 0x41#8).toNat := by
  decide +kernel

/-- The packer at the last position of the buffer. -/
theorem witness_EncSymPacksBits :
    abCodes.bitbufWords ≤ 65536 ∧
    ∃ t d, exec (.encSym 0x42#16) { abCodes with streamLen := 32767#32 } = .next t ∧
      t.port = .respond ⟨.ok, d⟩ := ⟨by decide, endsWith_spec (by decide +kernel)⟩

theorem witness_EncodingConcatenatesCodes :
    abCodes.codesValid = true ∧ abCodes.bitbufWords ≤ 65536 ∧
    ∃ t ds, completeAll (encodeSeq [0x41#8, 0x42#8, 0x42#8]) abCodes = some (t, ds) :=
  ⟨rfl, by decide, completeAll_spec (by decide +kernel)⟩

/-- BbReadReadsWord and BbWriteWritesWord: the last word, and the first that does not exist. -/
theorem witness_bitBufferWords :
    (1023#16).toNat < State.reset.bitbufWords ∧ State.reset.bitbufWords ≤ (1024#16).toNat ∧
    1023 = 32767 / 32 ∧ 1 ≤ State.reset.bitbufWords := by decide

theorem witness_BbSetLenSetsLength :
    (32768#32).toNat ≤ 32 * State.reset.bitbufWords ∧ 32 * State.reset.bitbufWords < (32769#32).toNat ∧
    State.reset.bitbufWords = 1024 ∧
    (∃ t d, exec (.bbSetLen 0#32) abTree = .next t ∧ t.port = .respond ⟨.ok, d⟩) ∧
    abTree.treeValid = true ∧ (0#32).toNat ≤ abTree.decBitPos.toNat :=
  ⟨by decide, by decide, by decide, endsWith_spec (by decide), rfl, by decide⟩

theorem witness_DecSymNoTreeAndEnd :
    State.reset.treeValid = false ∧ abTree.treeValid = true ∧
    abTree.streamLen.toNat ≤ abTree.decBitPos.toNat := by decide

/-- A 0 bit and a 1 bit. -/
theorem witness_DecSymSingleLeaf :
    zTree.treeValid = true ∧ zTree.node[zTree.root] = .leaf 0x5A#8 7#32 ∧
    (withStream 0x40000000#32 1 zTree).decBitPos.toNat < (withStream 0x40000000#32 1 zTree).streamLen.toNat ∧
    (withStream 0x40000000#32 1 zTree).streamLen.toNat ≤ bitbufBits zTree ∧
    bitAt (withStream 0x40000000#32 1 zTree) 0 = false ∧
    bitAt (withStream 0x80000000#32 1 zTree) 0 = true := by decide +kernel

/-- The stream "1" is B's code, and ends with it. -/
theorem witness_DecSymFollowsTree :
    (withStream 0x80000000#32 1 abTree).treeValid = true ∧ [true] ≠ ([] : Code) ∧
    leadsTo (withStream 0x80000000#32 1 abTree).node (withStream 0x80000000#32 1 abTree).root [true] 0x42#8 ∧
    streamHas (withStream 0x80000000#32 1 abTree) 0 [true] ∧
    0 + [true].length ≤ (withStream 0x80000000#32 1 abTree).streamLen.toNat ∧
    (withStream 0x80000000#32 1 abTree).streamLen.toNat ≤ bitbufBits (withStream 0x80000000#32 1 abTree) :=
  ⟨rfl, by decide, ⟨2#32, 0, 1, by decide +kernel, 1#32, by decide +kernel⟩,
    by unfold streamHas; decide +kernel, by decide, by decide⟩

/-- The stream "1" with the tree of R88, whose node at path "1" is internal. -/
theorem witness_DecSymTruncated :
    (withStream 0x80000000#32 1 srcTree).treeValid = true ∧
    leadsInside (withStream 0x80000000#32 1 srcTree).node (withStream 0x80000000#32 1 srcTree).root [true] ∧
    streamHas (withStream 0x80000000#32 1 srcTree) 0 [true] ∧ [true] ≠ ([] : Code) ∧
    0 + [true].length = (withStream 0x80000000#32 1 srcTree).streamLen.toNat ∧
    (withStream 0x80000000#32 1 srcTree).streamLen.toNat ≤ bitbufBits (withStream 0x80000000#32 1 srcTree) :=
  ⟨rfl, ⟨110#32, 0, 17, by decide +kernel, 65#32, 15, 16, by decide +kernel⟩,
    by unfold streamHas; decide +kernel, by decide, by decide, by decide⟩

theorem witness_RoundTripLaw :
    Inv abCodes ∧ abCodes.codesValid = true ∧
    ∃ t ds, completeAll (.encReset :: encodeSeq [0x42#8, 0x41#8, 0x42#8]) abCodes = some (t, ds) :=
  ⟨inv_abCodes, rfl, completeAll_spec (by decide +kernel)⟩

/-- Both sources: one symbol encoded in one bit, and the table A:1, B:1 with its codes. -/
theorem witness_MetricsComputesRatio :
    (Inv abCodes ∧ (255#32).toNat ≤ 255 ∧ (1#16).toNat = 1 ∧ abCodes.codesValid = true ∧
      2 = (symbols.map fun x => (freqOf abCodes x).toNat).sum ∧
      2 = (symbols.map fun x => (freqOf abCodes x).toNat * (lenOf abCodes x).toNat).sum) ∧
    (∃ s : State, Inv s ∧ (0#16).toNat = 0 ∧ 1 = s.encSymCount.toNat ∧ 1 = s.encBitCount.toNat) :=
  ⟨⟨inv_abCodes, by decide, by decide, rfl, by decide +kernel, by decide +kernel⟩,
    { State.reset with encSymCount := 1#32, encBitCount := 1#32 },
    ⟨inv_reset.words, rfl, (by intro h; cases h), (by intro h; cases h), (by intro h; cases h), by decide,
      ⟨by decide, .inl rfl, fun h => absurd rfl h, by decide⟩, by intro h; cases h⟩, rfl, rfl, rfl⟩

/-- No codes; nothing encoded; codes valid over a table of no bits (a state no run reaches). -/
theorem witness_MetricsUndefinedRatio :
    (255#32).toNat ≤ 255 ∧ (1#16).toNat = 1 ∧ State.reset.codesValid = false ∧ (0#16).toNat = 0 ∧
    State.reset.encBitCount = 0#32 ∧ { State.reset with codesValid := true }.codesValid = true ∧
    ∀ x, (freqOf { State.reset with codesValid := true } x).toNat
      * (lenOf { State.reset with codesValid := true } x).toNat = 0 := by decide +kernel

theorem witness_TableMetricsAreDefined :
    Inv zCodes ∧ zCodes.codesValid = true ∧ (0#32).toNat ≤ 255 ∧ (255#32).toNat ≤ 255 :=
  ⟨inv_zCodes, rfl, by decide, by decide⟩

end Sys2Proof.Tests
end

section
/-! PROOFS. How a command can end, said once for all commands, and the state after an error (R10, R112, R119,
R121, R123). -/

namespace Sys2Proof.Machine

/-! ### How a command can end -/

/-- The errors that a command raises over the state before it: the raised-by column of R119, read by command.
RATIO_UNDEFINED is not one of them (R112), and ILLEGAL_COMMAND is of no command (R68). -/
def plainErrors : Instr → List Status
  | .nop | .clrErr | .softReset | .ftClear | .encReset | .decReset => []
  | .rdCsr _ | .ftSet _ _ | .ftGet _ | .bbRead _ | .bbWrite _ _ | .bbSetLen _ => [.badOperand]
  | .build => [.emptyAlphabet, .weightOverflow]
  | .nodeGet _ => [.badOperand, .noTree]
  | .genCodes => [.noTree]
  | .codeLen _ | .codeGet _ _ => [.badOperand, .noCodes]
  | .encSym _ => [.badOperand, .noCodes, .symbolNotInTable, .streamOverflow]
  | .decSym => [.noTree, .truncatedStream, .invalidCode]
  | .metrics a _ => if a = 1#16 then [.badOperand, .noCodes] else [.badOperand]

theorem ratioUndefined_notMem_plainErrors (i : Instr) : .ratioUndefined ∉ plainErrors i := by
  cases i with
  | metrics a b => by_cases ha : a = 1#16 <;> simp [plainErrors, ha]
  | _ => simp [plainErrors]

/-- The ways command `i` can end from state `s` (R10). -/
inductive EndsFrom (i : Instr) (s : State) : Result → Prop
  | completes (d : BitVec 64) (u : State) : EndsFrom i s (complete d u)
  | endOfStream (hi : i = .decSym) : EndsFrom i s (info .endOfStream s)
  | raises (e : Status) (he : e ∈ plainErrors i) : EndsFrom i s (raise e s)
  | ratioUndefined (a : BitVec 16) (b : BitVec 32) (fixed : Nat) (hi : i = .metrics a b) :
    EndsFrom i s (raise .ratioUndefined (metricsState fixed 0 0 false s))
  | faults (r : Fault) : EndsFrom i s (.fault r)

section
variable (s : State)

theorem execBuild_ends : EndsFrom .build s (execBuild s) := by
  unfold execBuild
  split_ifs
  · exact .raises _ (by simp [plainErrors])
  · exact .raises _ (by simp [plainErrors])
  · exact .completes _ _

theorem execNodeGet_ends (a : BitVec 16) : EndsFrom (.nodeGet a) s (execNodeGet a s) := by
  unfold execNodeGet
  split
  · exact .raises _ (by simp [plainErrors])
  · split_ifs
    · exact .raises _ (by simp [plainErrors])
    · exact .raises _ (by simp [plainErrors])
    · exact .completes _ _

theorem execGenCodes_ends : EndsFrom .genCodes s (execGenCodes s) := by
  unfold execGenCodes
  split
  · exact .raises _ (by simp [plainErrors])
  · split
    · exact .faults _
    · exact .completes _ _

theorem execCodeLen_ends (a : BitVec 16) : EndsFrom (.codeLen a) s (execCodeLen a s) := by
  unfold execCodeLen
  split
  · exact .raises _ (by simp [plainErrors])
  · split_ifs
    · exact .raises _ (by simp [plainErrors])
    · exact .completes _ _

theorem execCodeGet_ends (a : BitVec 16) (b : BitVec 32) : EndsFrom (.codeGet a b) s (execCodeGet a b s) := by
  unfold execCodeGet
  split
  · split_ifs
    · exact .raises _ (by simp [plainErrors])
    · exact .completes _ _
  · exact .raises _ (by simp [plainErrors])

theorem execEncSym_ends (a : BitVec 16) : EndsFrom (.encSym a) s (execEncSym a s) := by
  unfold execEncSym
  split
  · exact .raises _ (by simp [plainErrors])
  · split_ifs
    · exact .raises _ (by simp [plainErrors])
    · exact .raises _ (by simp [plainErrors])
    · exact .raises _ (by simp [plainErrors])
    · exact .completes _ _

/-- A root that is a leaf reads one bit (R106); an internal root is walked from (R105). -/
theorem execDecSym_ends : EndsFrom .decSym s (execDecSym s) := by
  unfold execDecSym
  dsimp only
  split_ifs
  · exact .raises _ (by simp [plainErrors])
  · exact .endOfStream rfl
  · split
    · split
      · exact .faults _
      · exact .raises _ (by simp [plainErrors])
      · exact .completes _ _
    · split
      · exact .completes _ _
      · exact .raises _ (by simp [plainErrors])
      · exact .faults _

/-- Source 1 is the table (R111). -/
theorem srcOperand_eq_table {a : BitVec 16} : srcOperand a = some .table ↔ a = 1#16 := by
  unfold srcOperand
  split <;> simp_all [← BitVec.toNat_inj]

theorem finishMetrics_ends (a : BitVec 16) (b : BitVec 32) (fixed huff : Nat) :
    EndsFrom (.metrics a b) s (finishMetrics fixed huff s) := by
  unfold finishMetrics
  split
  · next h => subst h; exact .ratioUndefined a b fixed rfl
  · exact .completes _ _

theorem execMetrics_ends (a : BitVec 16) (b : BitVec 32) : EndsFrom (.metrics a b) s (execMetrics a b s) := by
  unfold execMetrics
  split
  · next src width hsrc hwidth =>
    split
    · next h =>
      have ha : a = 1#16 := srcOperand_eq_table.mp (h.1 ▸ hsrc)
      exact .raises _ (by simp [plainErrors, ha])
    · exact finishMetrics_ends s a b _ _
  · exact .raises _ (by by_cases ha : a = 1#16 <;> simp [plainErrors, ha])

end

/-- The ways a command can end, whatever the command. The six that only check an operand share one
argument. -/
theorem exec_ends (i : Instr) (s : State) : EndsFrom i s (exec i s) := by
  cases i with
  | nop | clrErr | softReset | ftClear | encReset | decReset => exact .completes _ _
  | rdCsr _ | ftSet _ _ | ftGet _ | bbRead _ | bbWrite _ _ | bbSetLen _ =>
    simp only [exec, execRdCsr, execFtSet, execFtGet, execBbRead, execBbWrite, execBbSetLen]
    split
    · exact .raises _ (by simp [plainErrors])
    · exact .completes _ _
  | build => exact execBuild_ends s
  | nodeGet a => exact execNodeGet_ends s a
  | genCodes => exact execGenCodes_ends s
  | codeLen a => exact execCodeLen_ends s a
  | codeGet a b => exact execCodeGet_ends s a b
  | encSym a => exact execEncSym_ends s a
  | decSym => exact execDecSym_ends s
  | metrics a b => exact execMetrics_ends s a b

/-- A command that answers a next state completed, found the end of the stream, or failed over the state
before it, or over the one with the writes of RATIO_UNDEFINED. -/
theorem exec_next_cases {i : Instr} {s t : State} (h : exec i s = .next t) :
    (∃ d u, t = respond .ok d u) ∨
    (i = .decSym ∧ t = respond .endOfStream 0#64 s) ∨
    (∃ e ∈ plainErrors i, t = failed e (statusCode e).toNat s) ∨
    (∃ a b fixed, i = .metrics a b ∧ t = failed .ratioUndefined 12 (metricsState fixed 0 0 false s)) := by
  have hends := exec_ends i s
  generalize hr : exec i s = r at hends
  rw [h] at hr
  cases hends with
  | completes d u => exact .inl ⟨d, u, (complete_eq_next.mp hr.symm).symm⟩
  | endOfStream hi => exact .inr (.inl ⟨hi, (info_eq_next.mp hr.symm).symm⟩)
  | raises e he =>
    rw [raise_failed] at hr
    exact .inr (.inr (.inl ⟨e, he, Host.Outcome.next.inj hr⟩))
  | ratioUndefined a b fixed hi =>
    rw [raise_failed] at hr
    exact .inr (.inr (.inr ⟨a, b, fixed, hi, Host.Outcome.next.inj hr⟩))
  | faults r => cases hr

/-! ### The state after an error -/

@[simp] theorem failed_port (e : Status) (code : Nat) (s : State) :
    (failed e code s).port = .respond ⟨e, 0#64⟩ := rfl

/-- The error of a command is one of its plain errors or RATIO_UNDEFINED, and it fixes the state after. -/
theorem exec_error_cases {i : Instr} {s t : State} {e : Status} {d : BitVec 64} (h : exec i s = .next t)
    (hp : t.port = .respond ⟨e, d⟩) (he : isError e = true) :
    (e ∈ plainErrors i ∧ t = failed e (statusCode e).toNat s) ∨
    (e = .ratioUndefined ∧ ∃ a b fixed, i = .metrics a b ∧
      t = failed e 12 (metricsState fixed 0 0 false s)) := by
  obtain ⟨d', u, rfl⟩ | ⟨-, rfl⟩ | ⟨e', he', rfl⟩ | ⟨a, b, fixed, hi, rfl⟩ := exec_next_cases h
  · obtain ⟨rfl, -⟩ : Status.ok = e ∧ d' = d := by simpa using hp
    cases he
  · obtain ⟨rfl, -⟩ : Status.endOfStream = e ∧ 0#64 = d := by simpa using hp
    cases he
  · obtain ⟨rfl, -⟩ : e' = e ∧ 0#64 = d := by simpa using hp
    exact .inl ⟨he', rfl⟩
  · obtain ⟨rfl, -⟩ : Status.ratioUndefined = e ∧ 0#64 = d := by simpa using hp
    exact .inr ⟨rfl, a, b, fixed, hi, rfl⟩

/-- Settles O15: every error but RATIO_UNDEFINED is raised over the state before the command, and
RATIO_UNDEFINED over that state with its four writes. -/
theorem errorLeavesStateAsBefore : Obligations.ErrorLeavesStateAsBefore := by
  intro i s t e d h hp he
  obtain ⟨hmem, ht⟩ | ⟨rfl, a, b, fixed, hi, rfl⟩ := exec_error_cases h hp (decide_eq_true he)
  · exact ⟨fun _ => ht, fun hr => absurd (hr ▸ hmem) (ratioUndefined_notMem_plainErrors i)⟩
  · exact ⟨fun hne => absurd rfl hne, fun _ => ⟨⟨a, b, hi⟩, rfl⟩⟩

end Sys2Proof.Machine
end

section
/-! PROOFS. The state a command leaves when it completes, said once for all commands, and the frames that
follow from it (R18 to R28, R32). -/

namespace Sys2Proof.Machine

/-! ### What a completed command has written -/

/-- `Completes i s u`: where `i` completes from `s`, `u` is the state after it, but for the response (R10). -/
inductive Completes : Instr → State → State → Prop
  | reads {i : Instr} {s : State}
      (hi : i = .nop ∨
        (∃ a, i = .rdCsr a ∨ i = .ftGet a ∨ i = .nodeGet a ∨ i = .codeLen a ∨ i = .bbRead a) ∨
        ∃ a b, i = .codeGet a b) : Completes i s s
  | clrErr (s : State) : Completes .clrErr s { s with lastErr := 0#4, errMask := 0#16 }
  | softReset (s : State) : Completes .softReset s (softResetState s)
  | ftClear (s : State) :
      Completes .ftClear s (invalidateTreeAndCodes { s with freq := Vector.replicate 256 0#32 })
  | ftSet (a : BitVec 16) (c : Weight) (sym : Symbol) (s : State) :
      Completes (.ftSet a c) s (invalidateTreeAndCodes (setFreq sym c s))
  | build {s : State} (hne : alphabetSize s ≠ 0) (hfits : totalCount s.freq < 2 ^ 32) :
      Completes .build s (buildState s)
  | genCodes {s : State} {codes : List (Symbol × Code)} (ht : s.treeValid = true)
      (hc : treeCodes s.node s.root = some codes) : Completes .genCodes s (genCodesState codes s)
  | encReset (s : State) :
      Completes .encReset s { s with streamLen := 0#32, encSymCount := 0#32, encBitCount := 0#32 }
  | encSym (a : BitVec 16) {sym : Symbol} {s : State}
      (hfits : s.streamLen.toNat + (lenOf s sym).toNat ≤ bitbufBits s) :
      Completes (.encSym a) s (encSymState sym s)
  | bbWrite (a : BitVec 16) (v : BufWord) {w : Nat} {s : State} (hw : w < s.bitbufWords) :
      Completes (.bbWrite a v) s (wordWrite w v s)
  | bbSetLen {n : BitVec 32} {s : State} (hn : n.toNat ≤ bitbufBits s) :
      Completes (.bbSetLen n) s { s with streamLen := n }
  | decReset (s : State) : Completes .decReset s { s with decBitPos := 0#32, decSymCount := 0#32 }
  | decSym (q : Nat) (s : State) :
      Completes .decSym s { s with decBitPos := BitVec.ofNat 32 q, decSymCount := s.decSymCount + 1#32 }
  | metrics (a : BitVec 16) (b : BitVec 32) (fixed huff ratio : Nat) (s : State) :
      Completes (.metrics a b) s (metricsState fixed huff ratio true s)

/-- The next state of a result holds the response (OK, d). -/
def endsOk (r : Result) (d : BitVec 64) (t : State) : Prop := r = .next t ∧ t.port = .respond ⟨.ok, d⟩

@[simp] theorem endsOk_complete {d d' : BitVec 64} {u t : State} :
    endsOk (complete d' u) d t ↔ d' = d ∧ respond .ok d u = t := by
  constructor
  · rintro ⟨h, hp⟩
    obtain rfl := complete_eq_next.mp h
    obtain rfl : d' = d := by simpa using hp
    exact ⟨rfl, rfl⟩
  · rintro ⟨rfl, rfl⟩; exact ⟨rfl, rfl⟩

@[simp] theorem not_endsOk_info {d : BitVec 64} {s t : State} : ¬ endsOk (info .endOfStream s) d t := by
  rintro ⟨h, hp⟩
  obtain rfl := info_eq_next.mp h
  simp at hp

@[simp] theorem not_endsOk_raise {e : Status} {d : BitVec 64} {s t : State} (he : e ≠ .ok) :
    ¬ endsOk (raise e s) d t := by
  rintro ⟨h, hp⟩
  obtain rfl := raise_eq_next.mp h
  simp [he] at hp

@[simp] theorem not_endsOk_fault {r : Fault} {d : BitVec 64} {t : State} : ¬ endsOk (.fault r) d t := by
  rintro ⟨h, -⟩; cases h

section
variable {s t : State} {d : BitVec 64}

theorem execBuild_endsOk (h : endsOk (execBuild s) d t) : ∃ u, Completes .build s u ∧ respond .ok d u = t := by
  unfold execBuild at h
  split_ifs at h with hne hfits
  · simp at h
  · simp at h
  · exact ⟨_, .build hne (by omega), (endsOk_complete.mp h).2⟩

theorem execGenCodes_endsOk (h : endsOk (execGenCodes s) d t) :
    ∃ u, Completes .genCodes s u ∧ respond .ok d u = t := by
  unfold execGenCodes at h
  split at h
  · simp at h
  · next ht =>
    split at h
    · simp at h
    · next codes hc => exact ⟨_, .genCodes (by simpa using ht) hc, (endsOk_complete.mp h).2⟩

theorem execNodeGet_endsOk {a : BitVec 16} (h : endsOk (execNodeGet a s) d t) : respond .ok d s = t := by
  unfold execNodeGet at h
  split at h
  · simp at h
  · split_ifs at h <;> simp_all

theorem execCodeLen_endsOk {a : BitVec 16} (h : endsOk (execCodeLen a s) d t) : respond .ok d s = t := by
  unfold execCodeLen at h
  split at h
  · simp at h
  · split_ifs at h <;> simp_all

theorem execCodeGet_endsOk {a : BitVec 16} {b : BitVec 32} (h : endsOk (execCodeGet a b s) d t) :
    respond .ok d s = t := by
  unfold execCodeGet at h
  split at h
  · split_ifs at h <;> simp_all
  · simp at h

theorem execEncSym_endsOk {a : BitVec 16} (h : endsOk (execEncSym a s) d t) :
    ∃ u, Completes (.encSym a) s u ∧ respond .ok d u = t := by
  unfold execEncSym at h
  split at h
  · simp at h
  · split_ifs at h with hc hl hfits
    · simp at h
    · simp at h
    · simp at h
    · exact ⟨_, .encSym a (by omega), (endsOk_complete.mp h).2⟩

theorem execDecSym_endsOk (h : endsOk (execDecSym s) d t) :
    ∃ u, Completes .decSym s u ∧ respond .ok d u = t := by
  have emitted {sym : Symbol} {q : Nat} (h : endsOk (emitSymbol sym q s) d t) :
      ∃ u, Completes .decSym s u ∧ respond .ok d u = t := ⟨_, .decSym q s, (endsOk_complete.mp h).2⟩
  unfold execDecSym at h
  dsimp only at h
  split_ifs at h
  · simp at h
  · simp at h
  · split at h
    · split at h
      · simp at h
      · simp at h
      · exact emitted h
    · split at h
      · exact emitted h
      · simp at h
      · simp at h

theorem execMetrics_endsOk {a : BitVec 16} {b : BitVec 32} (h : endsOk (execMetrics a b s) d t) :
    ∃ u, Completes (.metrics a b) s u ∧ respond .ok d u = t := by
  unfold execMetrics at h
  split at h
  · split at h
    · simp at h
    · unfold finishMetrics at h
      split at h
      · simp at h
      · exact ⟨_, .metrics a b _ _ _ s, (endsOk_complete.mp h).2⟩
  · simp at h

end

/-- A command that completes leaves the state that `Completes` says, with the response. -/
theorem exec_endsOk {i : Instr} {s t : State} {d : BitVec 64} (h : endsOk (exec i s) d t) :
    ∃ u, Completes i s u ∧ respond .ok d u = t := by
  have reads (hi) (ht : respond .ok d s = t) : ∃ u, Completes i s u ∧ respond .ok d u = t := ⟨s, .reads hi, ht⟩
  cases i with
  | nop => exact reads (by simp) (endsOk_complete.mp h).2
  | clrErr => exact ⟨_, .clrErr s, (endsOk_complete.mp h).2⟩
  | softReset => exact ⟨_, .softReset s, (endsOk_complete.mp h).2⟩
  | ftClear => exact ⟨_, .ftClear s, (endsOk_complete.mp h).2⟩
  | encReset => exact ⟨_, .encReset s, (endsOk_complete.mp h).2⟩
  | decReset => exact ⟨_, .decReset s, (endsOk_complete.mp h).2⟩
  | rdCsr a | ftGet a | bbRead a =>
    simp only [exec, execRdCsr, execFtGet, execBbRead] at h
    split at h
    · simp at h
    · exact reads (by simp) (endsOk_complete.mp h).2
  | ftSet a c =>
    simp only [exec, execFtSet] at h
    split at h
    · simp at h
    · next sym _ => exact ⟨_, .ftSet a c sym s, (endsOk_complete.mp h).2⟩
  | bbWrite a v =>
    simp only [exec, execBbWrite] at h
    split at h
    · simp at h
    · next w hw =>
      obtain ⟨hlt, rfl⟩ := wordOperand_eq_some.mp hw
      exact ⟨_, .bbWrite a v hlt, (endsOk_complete.mp h).2⟩
  | bbSetLen n =>
    simp only [exec, execBbSetLen] at h
    split at h
    · simp at h
    · next n' hn =>
      obtain ⟨hle, rfl⟩ := lenOperand_eq_some.mp hn
      exact ⟨_, .bbSetLen hle, (endsOk_complete.mp h).2⟩
  | build => exact execBuild_endsOk h
  | genCodes => exact execGenCodes_endsOk h
  | nodeGet a => exact reads (by simp) (execNodeGet_endsOk h)
  | codeLen a => exact reads (by simp) (execCodeLen_endsOk h)
  | codeGet a b => exact reads (by simp) (execCodeGet_endsOk h)
  | encSym a => exact execEncSym_endsOk h
  | decSym => exact execDecSym_endsOk h
  | metrics a b => exact execMetrics_endsOk h

/-- Every way a command can end, with the state after it. -/
theorem exec_next_states {i : Instr} {s t : State} (h : exec i s = .next t) :
    (∃ d u, Completes i s u ∧ t = respond .ok d u) ∨
    (i = .decSym ∧ t = respond .endOfStream 0#64 s) ∨
    (∃ e ∈ plainErrors i, t = failed e (statusCode e).toNat s) ∨
    (∃ a b fixed, i = .metrics a b ∧ t = failed .ratioUndefined 12 (metricsState fixed 0 0 false s)) := by
  refine (exec_next_cases h).imp_left ?_
  rintro ⟨d, u, rfl⟩
  obtain ⟨u', hu, he⟩ := exec_endsOk ⟨h, respond_port .ok d u⟩
  exact ⟨d, u', hu, he.symm⟩

/-! ### Frames -/

/-- Settles O18: the fields that a command which completes has not written, read off `Completes`; an error and
END_OF_STREAM write none of the fields named. -/
theorem registerWriters : Obligations.RegisterWriters := by
  intro i s t h
  obtain ⟨d, u, hC, rfl⟩ | ⟨rfl, rfl⟩ | ⟨e, -, rfl⟩ | ⟨a, b, fixed, rfl, rfl⟩ := exec_next_states h
  · cases hC with
    | reads => simp [wordRead]
    | clrErr => simp [wordRead]
    | softReset => simp [wordRead, softResetState]
    | ftClear => simp [wordRead]
    | ftSet => simp [wordRead]
    | build => simp [wordRead, buildState]
    | genCodes => simp [wordRead, genCodesState]
    | encReset => simp [wordRead]
    | encSym => simp [encSymState]
    | bbWrite => simp
    | bbSetLen => simp [wordRead]
    | decReset => simp [wordRead]
    | decSym => simp [wordRead]
    | metrics => simp [wordRead, metricsState]
  · simp [wordRead]
  · simp [wordRead, failed]
  · simp [wordRead, failed, metricsState]

/-- Settles O19: the two flags in the state that each command which completes leaves. -/
theorem validityFlagsFollowTable : Obligations.ValidityFlagsFollowTable := by
  intro i s t d h hp
  obtain ⟨u, hC, rfl⟩ := exec_endsOk ⟨h, hp⟩
  cases hC with
  | reads hi => obtain rfl | ⟨a, rfl | rfl | rfl | rfl | rfl⟩ | ⟨a, b, rfl⟩ := hi <;> simp
  | softReset => simp [softResetState]
  | build => simp [buildState]
  | genCodes => simp [genCodesState]
  | encSym => simp [encSymState]
  | metrics => simp [metricsState]
  | clrErr | ftClear | ftSet | encReset | bbWrite | bbSetLen | decReset | decSym => simp

end Sys2Proof.Machine
end

section
/-! PROOFS. The values of the CSRs (R33 to R36) and what the invariants of R39 start from (R38). -/

namespace Sys2Proof.Machine

/-! ### RD_CSR -/

/-- RD_CSR of an implemented number completes with the value of that CSR (R116). -/
theorem exec_rdCsr {a : BitVec 16} {c : Csr} {s : State} {v : BitVec 64} (ha : csrOperand a = some c)
    (hv : csrValue s c = v) : exec (.rdCsr a) s = .next (answered v s) := by
  simp only [exec, execRdCsr, ha, complete_answered, hv]

theorem csrValue_root (s : State) : csrValue s .root = BitVec.ofNat 64 s.root.val := by
  have := s.root.isLt
  apply BitVec.eq_of_toNat_eq
  simp only [csrValue, idxBits, BitVec.toNat_setWidth, BitVec.toNat_ofNat]
  omega

/-- Settles O22: each number of R33 selects its register. -/
theorem csrReadsGiveRegisters : Obligations.CsrReadsGiveRegisters := by
  intro s
  have zext {w : Nat} (x : BitVec w) : x.setWidth 64 = BitVec.ofNat 64 x.toNat := (BitVec.ofNat_toNat 64 x).symm
  exact ⟨exec_rdCsr (c := .hwId) rfl rfl, exec_rdCsr (c := .root) rfl (csrValue_root s),
    exec_rdCsr (c := .leafCount) rfl (zext _), exec_rdCsr (c := .nodeCount) rfl (zext _),
    exec_rdCsr (c := .totalWeight) rfl (zext _), exec_rdCsr (c := .maxCodeLen) rfl (zext _),
    exec_rdCsr (c := .streamLen) rfl (zext _), exec_rdCsr (c := .encSymCount) rfl (zext _),
    exec_rdCsr (c := .encBitCount) rfl (zext _), exec_rdCsr (c := .decBitPos) rfl (zext _),
    exec_rdCsr (c := .decSymCount) rfl (zext _), exec_rdCsr (c := .mFixed) rfl rfl,
    exec_rdCsr (c := .mHuff) rfl rfl, exec_rdCsr (c := .mRatio) rfl rfl⟩

/-! ### STATUS -/

theorem toNat_flagBit (b : Bool) : (flagBit b).toNat = b.toNat := by cases b <;> rfl

/-- A concatenation as a number: the left part above the right one. -/
theorem toNat_append_eq_add {m n : Nat} (x : BitVec m) (y : BitVec n) :
    (x ++ y).toNat = x.toNat * 2 ^ n + y.toNat := by
  rw [BitVec.toNat_append, ← Nat.shiftLeft_add_eq_or_of_lt y.isLt, Nat.shiftLeft_eq]

/-- The formula of R34 as a number. -/
theorem toNat_statusCsr (s : State) :
    (statusCsr s).toNat = s.treeValid.toNat + 2 * s.codesValid.toNat + 4 * s.ratioValid.toNat
      + 2 ^ 4 * s.lastErr.toNat + 2 ^ 16 * s.errMask.toNat := by
  have := s.errMask.isLt; have := s.lastErr.isLt
  have := Bool.toNat_le s.treeValid; have := Bool.toNat_le s.codesValid; have := Bool.toNat_le s.ratioValid
  simp only [statusCsr, BitVec.toNat_setWidth, toNat_append_eq_add, toNat_flagBit, BitVec.toNat_ofNat]
  omega

/-- Bits 31 to 16 of STATUS are ERR_MASK (R34). -/
theorem getLsbD_statusCsr (k : Nat) (s : State) :
    (statusCsr s).getLsbD (16 + k) = s.errMask.getLsbD k := by
  have := s.lastErr.isLt
  have := Bool.toNat_le s.treeValid; have := Bool.toNat_le s.codesValid; have := Bool.toNat_le s.ratioValid
  have hdiv : (statusCsr s).toNat / 2 ^ 16 = s.errMask.toNat := by rw [toNat_statusCsr]; omega
  rw [BitVec.getLsbD, BitVec.getLsbD, ← hdiv, Nat.testBit_div_two_pow, Nat.add_comm]

/-- The bits of ERR_MASK of no error status are 0 (R28). -/
theorem ErrorsConsistent.reservedBit {s : State} (h : ErrorsConsistent s) {k : Nat}
    (hk : (0xE003#16).getLsbD k = true) : s.errMask.getLsbD k = false := by
  have hbit := congrArg (BitVec.getLsbD · k) h.reserved
  simpa [BitVec.getLsbD_and, hk] using hbit

/-- Settles O23: STATUS is the formula of R34, and the bits of ERR_MASK above 15 are its own. -/
theorem statusCsrFields : Obligations.StatusCsrFields := by
  intro s
  refine ⟨statusCsr s, exec_rdCsr (c := .status) rfl rfl, toNat_statusCsr s, fun hInv => ⟨hInv.errors.range, ?_⟩⟩
  have reserved {j : Nat} (hr : (0xE003#16).getLsbD j = true) : (statusCsr s).getLsbD (16 + j) = false := by
    rw [getLsbD_statusCsr, hInv.errors.reservedBit hr]
  intro k hk
  simp only [List.mem_cons, List.not_mem_nil, or_false] at hk
  obtain rfl | rfl | rfl | rfl | rfl := hk
  · exact reserved (j := 0) (by decide)
  · exact reserved (j := 1) (by decide)
  · exact reserved (j := 13) (by decide)
  · exact reserved (j := 14) (by decide)
  · exact reserved (j := 15) (by decide)

/-! ### HW_PARAMS -/

/-- The fields of R36 as a number. -/
theorem toNat_hwParams {words : Nat} (h : words ≤ 65536) :
    (hwParams words).toNat = words * 2 ^ 32 + 0x01FF2008 := by
  simp only [hwParams, toNat_append_eq_add, Config.hcmdVersion, Config.codeMax, Config.weightWidth, Config.symWidth,
    BitVec.toNat_ofNat]
  omega

/-- Settles O24: each field is a range of the number of `toNat_hwParams`. -/
theorem hwParamsFields : Obligations.HwParamsFields := by
  intro s _ hmax
  have hv := toNat_hwParams hmax
  have field {lo n : Nat} {c : BitVec n}
      (h : (s.bitbufWords * 2 ^ 32 + 0x01FF2008) / 2 ^ lo % 2 ^ n = c.toNat) :
      (hwParams s.bitbufWords).extractLsb' lo n = c :=
    BitVec.eq_of_toNat_eq (by rw [BitVec.extractLsb'_toNat, hv, Nat.shiftRight_eq_div_pow, h])
  have words : (BitVec.ofNat 17 s.bitbufWords).toNat = s.bitbufWords := by rw [BitVec.toNat_ofNat]; omega
  refine ⟨hwParams s.bitbufWords, exec_rdCsr (c := .hwParams) rfl rfl, field ?_, field ?_, field ?_, field ?_,
    (congrArg BitVec.toNat (field (c := BitVec.ofNat 17 s.bitbufWords) ?_)).trans words, field ?_, fun h => ?_⟩
  · rw [BitVec.toNat_ofNat]; omega
  · rw [BitVec.toNat_ofNat]; omega
  · rw [BitVec.toNat_ofNat]; omega
  · rw [BitVec.toNat_ofNat]; omega
  · rw [words]; omega
  · rw [BitVec.toNat_ofNat]; omega
  · rw [h]; rfl

/-! ### Reset -/

/-- Settles O10: the values of `State.resetFor`. -/
theorem resetStateValues : Obligations.ResetStateValues :=
  ⟨fun sym => by simp [freqOf, State.reset, State.resetFor], rfl, rfl, rfl, rfl, rfl, rfl, rfl, rfl, rfl, rfl, rfl,
    rfl, rfl, rfl, rfl, rfl, rfl, rfl, rfl⟩

end Sys2Proof.Machine
end

section
/-! PROOFS. Every step keeps the invariants of R39. They are taken apart into the tables, the bit buffer and the
error bookkeeping, which no command writes together but the resets. -/

namespace Sys2Proof.Machine

/-! ### The size of the alphabet -/

theorem length_symbols : symbols.length = 256 := by simp [symbols]

theorem length_alphabet_le (freq : Vector Weight 256) : (alphabet freq).length ≤ 256 :=
  (List.length_filter_le _ _).trans (by simp [length_symbols])

/-! ### The tables: FREQ, NODE with the tree registers, and the code table -/

/-- The invariants (b), (c) and (f) of R39. -/
structure TablesInv (s : State) : Prop where
  codesNeedTree : s.codesValid = true → s.treeValid = true
  tree : s.treeValid = true → TreeCurrent s
  codes : s.codesValid = true → CodesCurrent s

/-- The two states agree on the tables and their registers. -/
structure SameTables (s t : State) : Prop where
  freq : t.freq = s.freq
  node : t.node = s.node
  root : t.root = s.root
  leafCount : t.leafCount = s.leafCount
  nodeCount : t.nodeCount = s.nodeCount
  totalWeight : t.totalWeight = s.totalWeight
  treeValid : t.treeValid = s.treeValid
  len : t.len = s.len
  bits : t.bits = s.bits
  maxCodeLen : t.maxCodeLen = s.maxCodeLen
  codesValid : t.codesValid = s.codesValid

section
variable {s t : State}

theorem TreeCurrent.counts (h : TreeCurrent s) :
    1 ≤ s.leafCount.toNat ∧ s.leafCount.toNat ≤ 256 ∧ s.nodeCount.toNat = 2 * s.leafCount.toNat - 1 := by
  have := length_alphabet_le s.freq
  have := h.nonempty
  have := h.leafCount
  have := h.nodeCount
  unfold alphabetSize at *
  omega

theorem TreeCurrent.congr (h : TreeCurrent s) (hT : SameTables s t) : TreeCurrent t where
  nonempty := by simpa only [alphabetSize, hT.freq] using h.nonempty
  fits := by simpa only [hT.freq] using h.fits
  nodes := by simpa only [hT.freq, hT.node] using h.nodes
  root := by simpa only [hT.freq, hT.root] using h.root
  leafCount := by simpa only [alphabetSize, hT.freq, hT.leafCount] using h.leafCount
  nodeCount := by simpa only [alphabetSize, hT.freq, hT.nodeCount] using h.nodeCount
  totalWeight := by simpa only [hT.node, hT.root, hT.totalWeight] using h.totalWeight

theorem CodesCurrent.congr (h : CodesCurrent s) (hT : SameTables s t) : CodesCurrent t := by
  simpa only [CodesCurrent, hT.node, hT.root, hT.len, hT.bits, hT.maxCodeLen] using h

theorem TablesInv.congr (h : TablesInv s) (hT : SameTables s t) : TablesInv t where
  codesNeedTree := by simpa only [hT.codesValid, hT.treeValid] using h.codesNeedTree
  tree hv := (h.tree (hT.treeValid ▸ hv)).congr hT
  codes hv := (h.codes (hT.codesValid ▸ hv)).congr hT

theorem tablesInv_of_invalid (ht : s.treeValid = false) (hc : s.codesValid = false) : TablesInv s where
  codesNeedTree := by simp [hc]
  tree := by simp [ht]
  codes := by simp [hc]

/-- The records below the ones written are the written ones (R78). -/
theorem getElem_writeNodes (ns : List Node) (arena : Vector Node 511) (i : NodeIdx) (hi : i.val < ns.length) :
    ns[i.val]? = some (writeNodes ns arena)[i] := by
  have hlt := i.isLt
  simp [writeNodes, List.getElem?_eq_getElem hi, List.getElem_append_left hi]

/-- BUILD leaves a current tree (R78, R39). -/
theorem treeCurrent_buildState (hne : alphabetSize s ≠ 0) (hfits : totalCount s.freq < 2 ^ 32) :
    TreeCurrent (buildState s) where
  nonempty := hne
  fits := hfits
  nodes := getElem_writeNodes (builtNodes s.freq) s.node
  root := rfl
  leafCount := by
    have := length_alphabet_le s.freq
    simp only [buildState, alphabetSize, BitVec.toNat_ofNat]
    omega
  nodeCount := by
    have := length_alphabet_le s.freq
    simp only [buildState, alphabetSize, BitVec.toNat_ofNat]
    omega
  totalWeight := rfl

theorem tablesInv_genCodesState {codes : List (Symbol × Code)} (h : TablesInv s) (ht : s.treeValid = true)
    (hc : treeCodes s.node s.root = some codes) : TablesInv (genCodesState codes s) where
  codesNeedTree _ := ht
  tree _ := have c := h.tree ht
    ⟨c.nonempty, c.fits, c.nodes, c.root, c.leafCount, c.nodeCount, c.totalWeight⟩
  codes _ := ⟨codes, hc, rfl, rfl, rfl⟩

/-- A command that completes keeps the tables current: BUILD and GEN_CODES make them, FT_CLEAR, FT_SET and
SOFT_RESET mark them as not current, and no other command writes them. -/
theorem Completes.tablesInv {i : Instr} {u : State} (hC : Completes i s u) (h : TablesInv s) : TablesInv u := by
  cases hC with
  | reads => exact h
  | build hne hfits => exact ⟨nofun, fun _ => treeCurrent_buildState hne hfits, nofun⟩
  | genCodes ht hc => exact tablesInv_genCodesState h ht hc
  | softReset | ftClear | ftSet => exact tablesInv_of_invalid rfl rfl
  | encSym => exact h.congr (by constructor <;> simp [encSymState])
  | clrErr | encReset | bbWrite | bbSetLen | decReset | decSym | metrics =>
    exact h.congr (by constructor <;> rfl)

/-! ### The bit buffer -/

/-- The invariant (d) of R39, with the canonical form and the legal range of the build parameter. -/
structure BufferInv (s : State) : Prop where
  words : 1 ≤ s.bitbufWords ∧ s.bitbufWords ≤ Config.maxBitbufWords
  memory : s.bitbuf.wf s.bitbufWords = true
  stream : s.streamLen.toNat ≤ bitbufBits s

theorem BufferInv.congr (h : BufferInv s) (hw : t.bitbufWords = s.bitbufWords) (hm : t.bitbuf = s.bitbuf)
    (hl : t.streamLen = s.streamLen) : BufferInv t where
  words := by simpa only [hw] using h.words
  memory := by simpa only [hw, hm] using h.memory
  stream := by simpa only [bitbufBits, hw, hl] using h.stream

/-- Every stream position is a 32-bit number (R6). -/
theorem BufferInv.bitbufBits_lt (h : BufferInv s) : bitbufBits s < 2 ^ 32 := by
  have : s.bitbufWords ≤ 65536 := h.words.2
  unfold bitbufBits
  omega

theorem length_tableCode (s : State) (sym : Symbol) : (tableCode s sym).length = (lenOf s sym).toNat := by
  simp [tableCode]

/-- ENC_SYM of a code that fits stays within the buffer (R98). -/
theorem bufferInv_encSymState {sym : Symbol} (h : BufferInv s)
    (hfits : s.streamLen.toNat + (lenOf s sym).toNat ≤ bitbufBits s) : BufferInv (encSymState sym s) := by
  have hlt := h.bitbufBits_lt
  rw [← length_tableCode] at hfits
  refine ⟨?_, ?_, ?_⟩
  · simpa [encSymState] using h.words
  · simpa [encSymState] using wf_appendBits (tableCode s sym) h.memory hfits hlt
  · have hlen := streamLen_appendBits (tableCode s sym) s (by omega)
    simpa [encSymState, bitbufBits, hlen] using hfits

/-- A command that completes stays within the buffer. -/
theorem Completes.bufferInv {i : Instr} {u : State} (hC : Completes i s u) (h : BufferInv s) : BufferInv u := by
  cases hC with
  | encSym a hfits => exact bufferInv_encSymState h hfits
  | bbWrite a v hw => exact ⟨h.words, Memory.wf_insert v h.memory hw, h.stream⟩
  | bbSetLen hn => exact ⟨h.words, h.memory, hn⟩
  | softReset | encReset => exact ⟨h.words, h.memory, Nat.zero_le _⟩
  | reads | clrErr | ftClear | ftSet | build | genCodes | decReset | decSym | metrics => exact h.congr rfl rfl rfl

/-! ### The error bookkeeping -/

theorem ErrorsConsistent.congr (h : ErrorsConsistent s) (hl : t.lastErr = s.lastErr) (hm : t.errMask = s.errMask) :
    ErrorsConsistent t where
  bothZero := by simpa only [hl, hm] using h.bothZero
  range := by simpa only [hl] using h.range
  inMask := by simpa only [hl, hm] using h.inMask
  reserved := by simpa only [hm] using h.reserved

theorem errorsConsistent_of_clear (hl : s.lastErr = 0#4) (hm : s.errMask = 0#16) : ErrorsConsistent s where
  bothZero := by simp [hl, hm]
  range := .inl hl
  inMask h := absurd hl h
  reserved := by simp [hm]

/-- The code of an error status, and its bit of ERR_MASK, which is not reserved (R28, R119). -/
theorem statusCode_of_isError {e : Status} (he : isError e = true) :
    2 ≤ (statusCode e).toNat ∧ (statusCode e).toNat ≤ 12 ∧ (errBit e).getLsbD (statusCode e).toNat = true ∧
      errBit e &&& 0xE003#16 = 0#16 := by
  revert he
  cases e <;> decide

/-- The bookkeeping of an error keeps it consistent (R121). -/
theorem errorsConsistent_bookError {e : Status} (he : isError e = true) (h : ErrorsConsistent s) :
    ErrorsConsistent (bookError e s) := by
  obtain ⟨hlow, hhigh, hbit, hres⟩ := statusCode_of_isError he
  have hset : (s.errMask ||| errBit e).getLsbD (statusCode e).toNat = true := by simp [hbit]
  have hcode : statusCode e ≠ 0#4 := by intro h0; simp [h0] at hlow
  have hmask : s.errMask ||| errBit e ≠ 0#16 := by intro h0; simp only [h0, BitVec.getLsbD_zero] at hset; cases hset
  exact
    { bothZero := ⟨fun h0 => absurd h0 hcode, fun h0 => absurd h0 hmask⟩
      range := .inr ⟨hlow, hhigh⟩
      inMask := fun _ => hset
      reserved := by
        have hdist : (s.errMask ||| errBit e) &&& 0xE003#16 = s.errMask &&& 0xE003#16 ||| errBit e &&& 0xE003#16 := by
          ext k; simp [Bool.and_or_distrib_right]
        rw [bookError_errMask, hdist, h.reserved, hres]
        rfl }

theorem errorsConsistent_failed {e : Status} (he : isError e = true) (h : ErrorsConsistent s) :
    ErrorsConsistent (failed e (statusCode e).toNat s) :=
  (errorsConsistent_bookError he h).congr (by simp [failed]) rfl

/-- A command that completes leaves the bookkeeping or clears it. -/
theorem Completes.errorsConsistent {i : Instr} {u : State} (hC : Completes i s u) (h : ErrorsConsistent s) :
    ErrorsConsistent u := by
  cases hC with
  | clrErr | softReset => exact errorsConsistent_of_clear rfl rfl
  | encSym => exact h.congr (by simp [encSymState]) (by simp [encSymState])
  | reads | ftClear | ftSet | build | genCodes | encReset | bbWrite | bbSetLen | decReset | decSym | metrics =>
    exact h.congr rfl rfl

/-! ### Every step -/

theorem Inv.tablesInv (h : Inv s) : TablesInv s := ⟨h.codesNeedTree, h.tree, h.codes⟩

theorem Inv.bufferInv (h : Inv s) : BufferInv s := ⟨h.words, h.memory, h.stream⟩

theorem inv_of_parts (hT : TablesInv s) (hB : BufferInv s) (hE : ErrorsConsistent s) : Inv s where
  words := hB.words
  memory := hB.memory
  codesNeedTree := hT.codesNeedTree
  tree := hT.tree
  codes := hT.codes
  stream := hB.stream
  errors := hE
  counts hv := (hT.tree hv).counts

/-- The invariants do not look at the port or at what is the host's. -/
theorem Inv.congr (h : Inv s) (hE : ErrorsConsistent t) (hT : SameTables s t := by constructor <;> rfl)
    (hw : t.bitbufWords = s.bitbufWords := by rfl) (hm : t.bitbuf = s.bitbuf := by rfl)
    (hl : t.streamLen = s.streamLen := by rfl) : Inv t :=
  inv_of_parts (h.tablesInv.congr hT) (h.bufferInv.congr hw hm hl) hE

theorem Inv.respond (h : Inv s) (e : Status) (d : BitVec 64) : Inv (respond e d s) :=
  h.congr (h.errors.congr rfl rfl)

theorem Inv.failed (h : Inv s) {e : Status} (he : isError e = true) : Inv (failed e (statusCode e).toNat s) :=
  h.congr (errorsConsistent_failed he h.errors)

theorem Inv.metricsState (h : Inv s) (fixed huff ratio : Nat) (valid : Bool) :
    Inv (metricsState fixed huff ratio valid s) :=
  h.congr (h.errors.congr rfl rfl)

theorem Inv.advance (h : Inv s) : Inv (advance s) :=
  h.congr (h.errors.congr rfl rfl)

theorem Inv.idleStep (h : Inv s) : Inv (idleStep s) := by
  unfold Machine.idleStep
  split
  · exact h.congr (h.errors.congr rfl rfl)
  · exact h.advance

theorem Inv.respondStep (h : Inv s) (r : Response) : Inv (respondStep r s) := by
  unfold Machine.respondStep
  split
  · exact h.congr (h.errors.congr rfl rfl)
  · exact h.advance

/-- The reset state of R38 meets the invariants, for every legal BITBUF_WORDS. -/
theorem inv_resetFor {words : Nat} (hw : 1 ≤ words ∧ words ≤ Config.maxBitbufWords) (epoch : Nat) :
    Inv (State.resetFor words epoch) :=
  inv_of_parts (tablesInv_of_invalid rfl rfl) ⟨hw, rfl, Nat.zero_le _⟩ (errorsConsistent_of_clear rfl rfl)

theorem Inv.resetStep (h : Inv s) : Inv (resetStep s) :=
  (inv_resetFor h.words (s.bitbufEpoch + 1)).congr (errorsConsistent_of_clear rfl rfl)

theorem Completes.inv {i : Instr} {u : State} (hC : Completes i s u) (h : Inv s) : Inv u :=
  inv_of_parts (hC.tablesInv h.tablesInv) (hC.bufferInv h.bufferInv) (hC.errorsConsistent h.errors)

theorem isError_of_mem_plainErrors {i : Instr} {e : Status} (he : e ∈ plainErrors i) : isError e = true := by
  rw [← Bool.not_eq_false, isError_eq_false]
  rintro (rfl | rfl) <;> cases i with
  | metrics a b => by_cases ha : a = 1#16 <;> simp [plainErrors, ha] at he
  | _ => simp [plainErrors] at he

/-- Every command keeps the invariants, however it ends. -/
theorem Inv.exec {i : Instr} (h : Inv s) (ht : exec i s = .next t) : Inv t := by
  obtain ⟨d, u, hC, rfl⟩ | ⟨-, rfl⟩ | ⟨e, he, rfl⟩ | ⟨a, b, fixed, -, rfl⟩ := exec_next_states ht
  · exact (hC.inv h).respond .ok d
  · exact h.respond .endOfStream 0#64
  · exact h.failed (isError_of_mem_plainErrors he)
  · exact (h.metricsState fixed 0 0 false).failed (e := .ratioUndefined) rfl

/-- Every accepted word keeps the invariants, ILLEGAL_COMMAND among them (R69, R70). -/
theorem Inv.execWord {w : Command} (h : Inv s) (ht : execWord w s = .next t) : Inv t := by
  obtain ⟨e, -, hw⟩ | ⟨i, -, hw⟩ := execWord_cases w s
  · rw [hw, raise_failed] at ht
    obtain rfl := Host.Outcome.next.inj ht
    exact h.failed rfl
  · exact h.exec (hw ▸ ht)

end

/-- Settles O11: the case BITBUF_WORDS = 1024 of the reset state. -/
theorem resetSatisfiesInvariant : Obligations.ResetSatisfiesInvariant :=
  inv_resetFor (words := Config.defaultBitbufWords) (by decide) 0

/-- Settles O12: a step is a reset, a port event or the execution of a word, and each keeps the three parts of the
invariants. -/
theorem stepKeepsInvariant : Obligations.StepKeepsInvariant := by
  intro s t h hstep
  obtain ⟨-, rfl⟩ | ⟨-, -, -, ⟨-, rfl⟩ | ⟨w, -, hw⟩ | ⟨r, -, rfl⟩⟩ := step_cases hstep
  · exact h.resetStep
  · exact h.idleStep
  · exact h.advance.execWord hw
  · exact h.respondStep r

end Sys2Proof.Machine
end

section
/-! PROOFS. The alphabet that FREQ describes (R13, R18, R78). -/

namespace Sys2Proof.Machine

theorem nodup_symbols : symbols.Nodup := by
  refine List.Nodup.map_on (fun i hi j hj h => ?_) List.nodup_range
  have hmod := congrArg BitVec.toNat h
  rw [List.mem_range] at hi hj
  simp only [BitVec.toNat_ofNat] at hmod
  omega

theorem length_freq_toList (freq : Vector Weight 256) : freq.toList.length = 256 := Vector.length_toList

/-- The pairs of FREQ: each symbol with its count. -/
theorem mem_zip_freq {freq : Vector Weight 256} {x : Symbol} {w : Weight} :
    (x, w) ∈ symbols.zip freq.toList ↔ freq[x.toNat] = w := by
  have hx := x.isLt
  rw [List.mem_iff_getElem]
  constructor
  · rintro ⟨i, hi, h⟩
    simp only [List.getElem_zip, symbols, List.getElem_map, List.getElem_range, Vector.getElem_toList,
      Prod.mk.injEq] at h
    obtain ⟨rfl, rfl⟩ := h
    simp only [List.length_zip, length_symbols, length_freq_toList] at hi
    simp [Nat.mod_eq_of_lt (show i < 256 by omega)]
  · rintro rfl
    exact ⟨x.toNat, by simp [length_symbols, hx], by simp [symbols]⟩

/-- The alphabet is the symbols with a nonzero count, each with its count (R18). -/
theorem mem_alphabet {freq : Vector Weight 256} {x : Symbol} {w : Weight} :
    (x, w) ∈ alphabet freq ↔ freq[x.toNat] = w ∧ w ≠ 0#32 := by
  simp [alphabet, mem_zip_freq]

theorem nodup_alphabet_symbols (freq : Vector Weight 256) : ((alphabet freq).map Prod.fst).Nodup := by
  have hsub : ((alphabet freq).map Prod.fst).Sublist ((symbols.zip freq.toList).map Prod.fst) :=
    List.filter_sublist.map _
  rw [List.map_fst_zip (by simp [length_symbols])] at hsub
  exact nodup_symbols.sublist hsub

/-- The symbols of the alphabet. -/
theorem mem_alphabet_symbols {s : State} {x : Symbol} :
    x ∈ (alphabet s.freq).map Prod.fst ↔ freqOf s x ≠ 0#32 := by
  simp [mem_alphabet, freqOf]

theorem sum_filter_ne_zero (es : List (Symbol × Weight)) :
    ((es.filter fun e => e.2 ≠ 0#32).map fun e => e.2.toNat).sum = (es.map fun e => e.2.toNat).sum := by
  induction es with
  | nil => rfl
  | cons e es ih =>
    by_cases he : e.2 = 0#32
    · simpa [List.filter_cons, he] using ih
    · simpa [List.filter_cons, he] using ih

/-- The counts of the alphabet sum to the total of FREQ. -/
theorem sum_alphabet (freq : Vector Weight 256) :
    ((alphabet freq).map fun e => e.2.toNat).sum = totalCount freq := by
  have hsnd : (symbols.zip freq.toList).map Prod.snd = freq.toList := List.map_snd_zip (by simp [length_symbols])
  calc ((alphabet freq).map fun e => e.2.toNat).sum
      = (((symbols.zip freq.toList).map Prod.snd).map BitVec.toNat).sum := by
        rw [List.map_map]; exact sum_filter_ne_zero _
    _ = totalCount freq := by rw [hsnd, totalCount]

end Sys2Proof.Machine
end

section
/-! PROOFS. The node merger (R78, R80, R81): what holds of NODE and of the active nodes after every merge. -/

namespace Sys2Proof.Machine

/-! ### The trees below the nodes -/

/-- A full binary tree with a symbol and its count at each leaf: what a node of the arena stands for. -/
inductive CodeTree where
  | leaf (sym : Symbol) (w : Weight)
  | node (l r : CodeTree)

/-- The leaves, left to right. -/
def CodeTree.leaves : CodeTree → List (Symbol × Weight)
  | .leaf sym w => [(sym, w)]
  | .node l r => l.leaves ++ r.leaves

/-- The leaves with their edge sequences, left to right (R11). -/
def CodeTree.codes : CodeTree → List (Symbol × Code)
  | .leaf sym _ => [(sym, [])]
  | .node l r => (l.codes.map fun e => (e.1, false :: e.2)) ++ r.codes.map fun e => (e.1, true :: e.2)

/-- The tree of a record over the trees of the records before it. -/
def treeOf (ts : List CodeTree) : Node → CodeTree
  | .leaf sym w => .leaf sym w
  | .internal _ l r => .node (ts.getD l.val (.leaf 0#8 0#32)) (ts.getD r.val (.leaf 0#8 0#32))

/-- The trees of NODE[0], NODE[1], …, each over the ones before it. -/
def forest (nodes : List Node) : List CodeTree := nodes.foldl (fun ts n => ts ++ [treeOf ts n]) []

/-- The tree of NODE[i]. -/
def treeAt (nodes : List Node) (i : Nat) : CodeTree := (forest nodes).getD i (.leaf 0#8 0#32)

theorem forest_concat (nodes : List Node) (n : Node) :
    forest (nodes ++ [n]) = forest nodes ++ [treeOf (forest nodes) n] := by
  simp [forest]

@[simp] theorem length_forest (nodes : List Node) : (forest nodes).length = nodes.length := by
  induction nodes using List.reverseRecOn with
  | nil => rfl
  | append_singleton nodes n ih => simp [forest_concat, ih]

/-- A new record leaves the trees of the others. -/
theorem treeAt_concat_of_lt {nodes : List Node} {i : Nat} (hi : i < nodes.length) (n : Node) :
    treeAt (nodes ++ [n]) i = treeAt nodes i := by
  simp [treeAt, forest_concat, List.getElem?_append_left, hi]

theorem treeAt_concat_length (nodes : List Node) (n : Node) :
    treeAt (nodes ++ [n]) nodes.length = treeOf (forest nodes) n := by
  simp [treeAt, forest_concat]

/-- Leaf records alone stand for themselves. -/
theorem forest_map_leaf (es : List (Symbol × Weight)) :
    forest (es.map fun e => .leaf e.1 e.2) = es.map fun e => .leaf e.1 e.2 := by
  induction es using List.reverseRecOn with
  | nil => rfl
  | append_singleton es e ih => simp [forest_concat, ih, treeOf]

theorem flatMap_range_treeAt {α : Type} (nodes : List Node) (f : CodeTree → List α) :
    (List.range nodes.length).flatMap (fun i => f (treeAt nodes i)) = (forest nodes).flatMap f := by
  have hmap : (List.range nodes.length).map (treeAt nodes) = forest nodes := by
    refine List.ext_getElem (by simp) fun i _ hi => ?_
    rw [List.getElem_map, List.getElem_range, treeAt, List.getD_eq_getElem _ _ hi]
  rw [← hmap, List.flatMap_map]

/-! ### The priority queue -/

theorem extractMin_eq_none {ks : List QueueKey} : extractMin ks = none ↔ ks = [] := by
  cases ks with
  | nil => simp [extractMin]
  | cons k ks =>
    rw [extractMin]
    split
    · simp
    · split <;> simp

/-- `PQMin` takes one key out and keeps the others. -/
theorem extractMin_perm {ks rest : List QueueKey} {m : QueueKey} (h : extractMin ks = some (m, rest)) :
    ks.Perm (m :: rest) := by
  induction ks generalizing m rest with
  | nil => simp [extractMin] at h
  | cons k ks ih =>
    rw [extractMin] at h
    split at h
    · next hnone =>
      obtain rfl := extractMin_eq_none.mp hnone
      obtain ⟨rfl, rfl⟩ := by simpa using h
      exact .refl _
    · next m' rest' hsome =>
      split at h
      · obtain ⟨rfl, rfl⟩ := by simpa using h
        exact .refl _
      · obtain ⟨rfl, rfl⟩ := by simpa using h
        exact ((ih hsome).cons k).trans (.swap m' k rest')

theorem map_weight_queueFrom (i : Nat) (ns : List Node) :
    (queueFrom i ns).map (·.weight) = ns.map nodeWeight := by
  induction ns generalizing i with
  | nil => rfl
  | cons n ns ih => simp [queueFrom, ih]

theorem map_idx_queueFrom {i : Nat} {ns : List Node} (h : i + ns.length ≤ 511) :
    (queueFrom i ns).map (·.idx.val) = List.range' i ns.length := by
  induction ns generalizing i with
  | nil => rfl
  | cons n ns ih =>
    simp only [List.length_cons] at h
    simp only [queueFrom, List.map_cons, List.length_cons, List.range'_succ, Fin.val_ofNat, ih (i := i + 1) (by omega),
      Nat.mod_eq_of_lt (show i < 511 by omega)]

/-! ### The invariant of the merger -/

/-- The indices of the children of a record (R19). -/
def childIndices : Node → List Nat
  | .leaf _ _ => []
  | .internal _ l r => [l.val, r.val]

/-- An internal record at index `j` comes after its children, and its weight is their exact sum (R40, R85). -/
def MergedAt (nodes : List Node) (j : Nat) : Prop :=
  ∀ w l r, nodes[j]? = some (.internal w l r) →
    l.val < j ∧ r.val < j ∧
    ∃ x y, nodes[l.val]? = some x ∧ nodes[r.val]? = some y ∧ w.toNat = (nodeWeight x).toNat + (nodeWeight y).toNat

/-- What holds of NODE[0..next−1] and of the active nodes after every merge of a BUILD over FREQ. -/
structure MergeInv (freq : Vector Weight 256) (nodes : List Node) (active : List QueueKey) : Prop where
  size : nodes.length + active.length = 2 * (alphabet freq).length
  shape : ∃ made, nodes = leafNodes freq ++ made ∧ ∀ n ∈ made, ∃ w l r, n = .internal w l r
  merged : ∀ j, MergedAt nodes j
  /-- Each node is active or the child of one node, and not both. -/
  parents : (nodes.flatMap childIndices ++ active.map (·.idx.val)).Perm (List.range nodes.length)
  keys : ∀ k ∈ active, ∃ n, nodes[k.idx.val]? = some n ∧ nodeWeight n = k.weight
  total : (active.map (·.weight.toNat)).sum = totalCount freq
  /-- The leaves below the active nodes are the alphabet. -/
  leaves : (active.flatMap fun k => (treeAt nodes k.idx.val).leaves).Perm (alphabet freq)

/-- The key of the node that a merge of `a` and `b` makes at index `next`. -/
def mergedKey (next : Nat) (a b : QueueKey) : QueueKey := ⟨a.weight + b.weight, Fin.ofNat 511 next⟩

section
variable {freq : Vector Weight 256} {nodes : List Node} {active active' : List QueueKey} {a b : QueueKey}

/-- The order in which the active nodes are listed does not matter. -/
theorem MergeInv.perm (h : MergeInv freq nodes active) (hp : active.Perm active') : MergeInv freq nodes active' where
  size := hp.length_eq ▸ h.size
  shape := h.shape
  merged := h.merged
  parents := ((hp.symm.map _).append_left _).trans h.parents
  keys k hk := h.keys k (hp.mem_iff.mpr hk)
  total := (hp.map _).sum_eq.symm.trans h.total
  leaves := (hp.symm.flatMap_right _).trans h.leaves

theorem MergeInv.idx_lt (h : MergeInv freq nodes active) {k : QueueKey} (hk : k ∈ active) :
    k.idx.val < nodes.length := by
  obtain ⟨n, hn, -⟩ := h.keys k hk
  exact (List.getElem?_eq_some_iff.mp hn).1

/-- A merge leaves the records before it as they are. -/
theorem MergedAt.concat {j : Nat} (h : MergedAt nodes j) (n : Node) (hj : j < nodes.length) :
    MergedAt (nodes ++ [n]) j := by
  intro w l r hn
  rw [List.getElem?_append_left hj] at hn
  obtain ⟨hl, hr, x, y, hx, hy, hw⟩ := h w l r hn
  refine ⟨hl, hr, x, y, ?_, ?_, hw⟩
  · rwa [List.getElem?_append_left (by omega)]
  · rwa [List.getElem?_append_left (by omega)]

/-- One merge keeps the invariant. -/
theorem MergeInv.merge (h : MergeInv freq nodes (a :: b :: active)) (hfits : totalCount freq < 2 ^ 32) :
    MergeInv freq (nodes ++ [.internal (a.weight + b.weight) a.idx b.idx])
      (mergedKey nodes.length a b :: active) := by
  have hsize := h.size
  have hK := length_alphabet_le freq
  simp only [List.length_cons] at hsize
  have hnext : (mergedKey nodes.length a b).idx.val = nodes.length := Nat.mod_eq_of_lt (by omega)
  have hsum := h.total
  simp only [List.map_cons, List.sum_cons] at hsum
  have hweight : (a.weight + b.weight).toNat = a.weight.toNat + b.weight.toNat := by
    rw [BitVec.toNat_add, Nat.mod_eq_of_lt (by omega)]
  have ha : a.idx.val < nodes.length := h.idx_lt (by simp)
  have hb : b.idx.val < nodes.length := h.idx_lt (by simp)
  constructor
  case size => simp only [List.length_append, List.length_cons, List.length_nil]; omega
  case shape =>
    obtain ⟨made, hmade, hint⟩ := h.shape
    refine ⟨made ++ [.internal (a.weight + b.weight) a.idx b.idx], by rw [hmade, List.append_assoc], fun n hn => ?_⟩
    obtain hn | hn := List.mem_append.mp hn
    · exact hint n hn
    · exact ⟨_, _, _, List.mem_singleton.mp hn⟩
  case merged =>
    intro j
    obtain hj | rfl | hj := Nat.lt_trichotomy j nodes.length
    · exact (h.merged j).concat _ hj
    · obtain ⟨x, hx, hxw⟩ := h.keys a (by simp)
      obtain ⟨y, hy, hyw⟩ := h.keys b (by simp)
      intro w l r hn
      rw [List.getElem?_concat_length] at hn
      obtain ⟨rfl, rfl, rfl⟩ := by simpa using hn
      refine ⟨ha, hb, x, y, ?_, ?_, by rw [hweight, hxw, hyw]⟩
      · rwa [List.getElem?_append_left ha]
      · rwa [List.getElem?_append_left hb]
    · intro w l r hn
      rw [List.getElem?_eq_none (by simp; omega)] at hn
      cases hn
  case parents =>
    have hold := h.parents
    simp only [List.map_cons] at hold
    simp only [List.flatMap_append, List.flatMap_cons, List.flatMap_nil, childIndices, List.append_nil, List.map_cons,
      hnext, List.length_append, List.length_cons, List.length_nil, Nat.zero_add, List.range_succ, List.append_assoc,
      List.cons_append, List.nil_append]
    refine .trans ?_ (List.perm_append_singleton _ _).symm
    refine .trans ?_ (hold.cons _)
    refine .trans ?_ List.perm_middle
    refine .append_left _ ?_
    exact .trans (.cons _ (.swap _ _ _)) (.swap _ _ _)
  case keys =>
    intro k hk
    obtain rfl | hk := List.mem_cons.mp hk
    · exact ⟨_, by rw [hnext, List.getElem?_concat_length], rfl⟩
    · obtain ⟨n, hn, hw⟩ := h.keys k (by simp [hk])
      exact ⟨n, by rw [List.getElem?_append_left (h.idx_lt (by simp [hk]))]; exact hn, hw⟩
  case total =>
    rw [List.map_cons, List.sum_cons, mergedKey, hweight, ← hsum]
    omega
  case leaves =>
    have hrest : ∀ n : Node, (active.flatMap fun k => (treeAt (nodes ++ [n]) k.idx.val).leaves)
        = active.flatMap fun k => (treeAt nodes k.idx.val).leaves := fun n =>
      List.flatMap_congr fun k hk => by rw [treeAt_concat_of_lt (h.idx_lt (by simp [hk]))]
    have hold := h.leaves
    simp only [List.flatMap_cons] at hold ⊢
    rw [hrest, hnext, treeAt_concat_length]
    simpa [treeOf, CodeTree.leaves, treeAt] using hold

end

/-- The invariant before the first merge (R78). -/
theorem mergeInv_leafNodes (freq : Vector Weight 256) :
    MergeInv freq (leafNodes freq) (queueFrom 0 (leafNodes freq)) := by
  have hK := length_alphabet_le freq
  have hlen : (leafNodes freq).length = (alphabet freq).length := by simp [leafNodes]
  have hidx : (queueFrom 0 (leafNodes freq)).map (·.idx.val) = List.range (leafNodes freq).length := by
    rw [map_idx_queueFrom (by omega), List.range_eq_range']
  have hweight := map_weight_queueFrom 0 (leafNodes freq)
  have hnoChild : (leafNodes freq).flatMap childIndices = [] := by
    simp [leafNodes, List.flatMap_map, childIndices]
  constructor
  case size =>
    have := congrArg List.length hweight
    simp only [List.length_map] at this
    omega
  case shape => exact ⟨[], by simp, by simp⟩
  case merged =>
    intro j w l r hn
    obtain ⟨e, -, he⟩ := List.mem_map.mp (List.mem_of_getElem? hn)
    cases he
  case parents => rw [hnoChild, hidx, List.nil_append]
  case keys =>
    intro k hk
    obtain ⟨j, hj, rfl⟩ := List.getElem_of_mem hk
    have hi := List.getElem_of_eq hidx (i := j) (by simpa using hj)
    have hw := List.getElem_of_eq hweight (i := j) (by simpa using hj)
    simp only [List.getElem_map, List.getElem_range] at hi hw
    exact ⟨_, by rw [hi]; exact List.getElem?_eq_getElem _, hw.symm⟩
  case total =>
    rw [← sum_alphabet]
    have := congrArg (fun l => (l.map BitVec.toNat).sum) hweight
    simpa [leafNodes, nodeWeight, Function.comp_def] using this
  case leaves =>
    have : (queueFrom 0 (leafNodes freq)).flatMap (fun k => (treeAt (leafNodes freq) k.idx.val).leaves)
        = alphabet freq := by
      rw [← List.flatMap_map (f := fun k : QueueKey => k.idx.val) (g := fun i => (treeAt (leafNodes freq) i).leaves),
        hidx, flatMap_range_treeAt, leafNodes, forest_map_leaf]
      simp [CodeTree.leaves, List.flatMap_map]
    rw [this]

/-- A run of the merger keeps the invariant. -/
theorem mergeInv_mergeNodes {freq : Vector Weight 256} (hfits : totalCount freq < 2 ^ 32) (fuel : Nat)
    {nodes : List Node} {active : List QueueKey} (h : MergeInv freq nodes active) :
    MergeInv freq (mergeNodes fuel nodes active).1 (mergeNodes fuel nodes active).2 := by
  induction fuel generalizing nodes active with
  | zero => exact h
  | succ fuel ih =>
    rw [mergeNodes]
    split
    · exact h
    · next a active1 h1 =>
      split
      · exact h
      · next b active2 h2 =>
        exact ih ((h.perm ((extractMin_perm h1).trans ((extractMin_perm h2).cons a))).merge hfits)

/-- Enough merges leave one active node (R143). -/
theorem length_mergeNodes {fuel : Nat} {nodes : List Node} {active : List QueueKey} (hne : active ≠ [])
    (hf : active.length ≤ fuel + 1) : (mergeNodes fuel nodes active).2.length = 1 := by
  have hpos := List.length_pos_iff.mpr hne
  induction fuel generalizing nodes active with
  | zero => change active.length = 1; omega
  | succ fuel ih =>
    rw [mergeNodes]
    split
    · next h1 => exact absurd (extractMin_eq_none.mp h1) hne
    · next a active1 h1 =>
      have hlen1 := (extractMin_perm h1).length_eq
      split
      · next h2 =>
        obtain rfl := extractMin_eq_none.mp h2
        simpa using hlen1
      · next b active2 h2 =>
        have hlen2 := (extractMin_perm h2).length_eq
        simp only [List.length_cons] at hlen1 hlen2
        exact ih (by simp) (by simp only [List.length_cons]; omega) (by simp)

/-- The result of the merger for an alphabet that is not empty and whose total fits: one active node is left. -/
theorem mergeInv_built {freq : Vector Weight 256} (hne : (alphabet freq).length ≠ 0)
    (hfits : totalCount freq < 2 ^ 32) :
    ∃ k : QueueKey, k.idx = builtRoot freq ∧ MergeInv freq (builtNodes freq) [k] := by
  have h0 := mergeInv_leafNodes freq
  have hK := length_alphabet_le freq
  have hlen : (leafNodes freq).length = (alphabet freq).length := by simp [leafNodes]
  have hqueue := h0.size
  have hne' : queueFrom 0 (leafNodes freq) ≠ [] := List.ne_nil_of_length_pos (by omega)
  have hone : (mergeAll freq).2.length = 1 := length_mergeNodes (fuel := 255) hne' (by omega)
  have hinv : MergeInv freq (mergeAll freq).1 (mergeAll freq).2 := mergeInv_mergeNodes hfits 255 h0
  obtain ⟨k, hk⟩ := List.length_eq_one_iff.mp hone
  exact ⟨k, by rw [builtRoot, hk], hk ▸ hinv⟩

end Sys2Proof.Machine
end

section
/-! PROOFS. What the invariants of R39 say of a valid tree (R40). -/

namespace Sys2Proof.Machine

theorem childOf_iff {i : NodeIdx} {n : Node} : childOf i n ↔ i.val ∈ childIndices n := by
  cases n with
  | leaf sym w => simp [childOf, childIndices]
  | internal w l r =>
    constructor
    · rintro ⟨w', l', r', hn, hc⟩
      cases hn
      simpa [childIndices, Fin.ext_iff] using hc
    · intro h
      exact ⟨w, l, r, rfl, by simpa [childIndices, Fin.ext_iff] using h⟩

/-- An element that the parts of a list hold once stands in one part. -/
theorem index_eq_of_nodup_flatMap {α β : Type} {l : List α} {f : α → List β} (h : (l.flatMap f).Nodup) {i j : Nat}
    {a b : α} {x : β} (hi : l[i]? = some a) (hj : l[j]? = some b) (ha : x ∈ f a) (hb : x ∈ f b) : i = j := by
  have hpair := List.pairwise_iff_getElem.mp (List.nodup_flatMap.mp h).2
  obtain ⟨hil, rfl⟩ := List.getElem?_eq_some_iff.mp hi
  obtain ⟨hjl, rfl⟩ := List.getElem?_eq_some_iff.mp hj
  obtain hlt | heq | hlt := Nat.lt_trichotomy i j
  · exact (hpair i j hil hjl hlt ha hb).elim
  · exact heq
  · exact (hpair j i hjl hil hlt hb ha).elim

section
variable {freq : Vector Weight 256} {nodes : List Node} {k : QueueKey}

theorem MergeInv.nodup_children {active : List QueueKey} (h : MergeInv freq nodes active) :
    (nodes.flatMap childIndices).Nodup :=
  (List.nodup_append.mp (h.parents.symm.nodup List.nodup_range)).1

/-- The two children of a record differ. -/
theorem MergeInv.children_ne {active : List QueueKey} (h : MergeInv freq nodes active) {j : Nat} {w : Weight}
    {l r : NodeIdx} (hn : nodes[j]? = some (.internal w l r)) : l ≠ r := by
  have hnd := (List.nodup_flatMap.mp h.nodup_children).1 _ (List.mem_of_getElem? hn)
  simpa [childIndices, Fin.ext_iff] using hnd

/-- At the end every node but the one left active is the child of a record. -/
theorem MergeInv.exists_parent (h : MergeInv freq nodes [k]) {i : Nat} (hi : i < nodes.length)
    (hk : i ≠ k.idx.val) : ∃ (j : Nat) (n : Node), nodes[j]? = some n ∧ i ∈ childIndices n := by
  have hmem := h.parents.mem_iff.mpr (List.mem_range.mpr hi)
  obtain hchild | hroot := List.mem_append.mp hmem
  · obtain ⟨n, hn, hin⟩ := List.mem_flatMap.mp hchild
    obtain ⟨j, hj⟩ := List.mem_iff_getElem?.mp hn
    exact ⟨j, n, hj, hin⟩
  · exact absurd (by simpa using hroot) hk

end

section
variable {s : State}

/-- A current tree is the result of the merger, and ROOT is the node left active. -/
theorem TreeCurrent.mergeInv (h : TreeCurrent s) :
    ∃ k : QueueKey, k.idx = s.root ∧ MergeInv s.freq (builtNodes s.freq) [k] := by
  rw [h.root]
  exact mergeInv_built h.nonempty h.fits

theorem TreeCurrent.length_builtNodes (h : TreeCurrent s) : (builtNodes s.freq).length = s.nodeCount.toNat := by
  obtain ⟨k, -, hinv⟩ := h.mergeInv
  have hsize := hinv.size
  have hcount := h.nodeCount
  simp only [List.length_cons, List.length_nil] at hsize
  unfold alphabetSize at hcount
  omega

theorem TreeCurrent.getElem_builtNodes (h : TreeCurrent s) {i : NodeIdx} (hi : i.val < s.nodeCount.toNat) :
    (builtNodes s.freq)[i.val]? = some s.node[i] :=
  h.nodes i (h.length_builtNodes ▸ hi)

theorem TreeCurrent.root_lt (h : TreeCurrent s) : s.root.val < s.nodeCount.toNat := by
  obtain ⟨k, hk, hinv⟩ := h.mergeInv
  rw [← hk, ← h.length_builtNodes]
  exact hinv.idx_lt (by simp)

/-- A record of a current tree comes after its children, which differ, and its weight is their exact sum. -/
theorem TreeCurrent.internal (h : TreeCurrent s) {j : NodeIdx} {w : Weight} {l r : NodeIdx}
    (hj : j.val < s.nodeCount.toNat) (hn : s.node[j] = .internal w l r) :
    l ≠ r ∧ l.val < j.val ∧ r.val < j.val ∧
      w.toNat = (nodeWeight s.node[l]).toNat + (nodeWeight s.node[r]).toNat := by
  obtain ⟨k, -, hinv⟩ := h.mergeInv
  have hnode := h.getElem_builtNodes hj
  rw [hn] at hnode
  obtain ⟨hl, hr, x, y, hx, hy, hw⟩ := hinv.merged j.val w l r hnode
  rw [h.getElem_builtNodes (hl.trans hj)] at hx
  rw [h.getElem_builtNodes (hr.trans hj)] at hy
  obtain rfl := Option.some.inj hx
  obtain rfl := Option.some.inj hy
  exact ⟨hinv.children_ne hnode, hl, hr, hw⟩

/-- Each node of a current tree but the root has exactly one parent. -/
theorem TreeCurrent.unique_parent (h : TreeCurrent s) {i : NodeIdx} (hi : i.val < s.nodeCount.toNat)
    (hroot : i ≠ s.root) :
    ∃ j : NodeIdx, (j.val < s.nodeCount.toNat ∧ childOf i s.node[j]) ∧
      ∀ j' : NodeIdx, j'.val < s.nodeCount.toNat → childOf i s.node[j'] → j' = j := by
  obtain ⟨k, hk, hinv⟩ := h.mergeInv
  have hlen := h.length_builtNodes
  have hmax := s.nodeCount.isLt
  obtain ⟨j, n, hj, hin⟩ := hinv.exists_parent (hlen ▸ hi) (by rwa [hk, ne_eq, ← Fin.ext_iff])
  have hjlt : j < s.nodeCount.toNat := hlen ▸ (List.getElem?_eq_some_iff.mp hj).1
  have hcount := h.counts
  have hnode := h.getElem_builtNodes (i := ⟨j, by omega⟩) hjlt
  have hsome : n = s.node[(⟨j, by omega⟩ : NodeIdx)] := Option.some.inj (hj.symm.trans hnode)
  refine ⟨⟨j, by omega⟩, ⟨hjlt, childOf_iff.mpr (hsome ▸ hin)⟩, fun j' hj' hc => Fin.ext ?_⟩
  exact index_eq_of_nodup_flatMap hinv.nodup_children (h.getElem_builtNodes hj') hj (childOf_iff.mp hc) hin

/-- TOTAL_WEIGHT of a current tree is the total of FREQ. -/
theorem TreeCurrent.totalWeight_eq (h : TreeCurrent s) : s.totalWeight.toNat = totalCount s.freq := by
  obtain ⟨k, hk, hinv⟩ := h.mergeInv
  obtain ⟨n, hn, hw⟩ := hinv.keys k (by simp)
  rw [hk, h.getElem_builtNodes h.root_lt] at hn
  obtain rfl := Option.some.inj hn
  rw [h.totalWeight, hw, ← hinv.total]
  simp

end

/-- Settles O33: a valid tree is the result of the merger, whose invariant gives the sums and the parents. -/
theorem validTreeInvariants : Obligations.ValidTreeInvariants := by
  intro s hInv hv
  have hT := hInv.tree hv
  exact ⟨fun _ _ _ _ hj hn => hT.internal hj hn, fun _ hi hroot => hT.unique_parent hi hroot, hT.totalWeight_eq,
    hT.fits⟩

end Sys2Proof.Machine
end

section
/-! PROOFS. The code table of a valid tree (R89 to R92): the codes are the paths to the leaves, the table holds
them exactly, and none begins another. -/

namespace Sys2Proof.Machine

/-! ### Codes of a tree -/

/-- The symbols with codes are the leaf symbols. -/
theorem CodeTree.map_fst_codes (T : CodeTree) : T.codes.map Prod.fst = T.leaves.map Prod.fst := by
  induction T with
  | leaf sym w => rfl
  | node l r ihl ihr => simp [codes, leaves, ← ihl, ← ihr, Function.comp_def]

theorem CodeTree.leaves_length_pos (T : CodeTree) : 0 < T.leaves.length := by
  induction T with
  | leaf sym w => simp [leaves]
  | node l r ihl ihr => simp only [leaves, List.length_append]; omega

/-- No leaf is deeper than the number of the other leaves (R93). -/
theorem CodeTree.length_lt_of_mem_codes {T : CodeTree} {x : Symbol} {c : Code} (h : (x, c) ∈ T.codes) :
    c.length < T.leaves.length := by
  induction T generalizing c with
  | leaf sym w =>
    obtain ⟨rfl, rfl⟩ := by simpa [codes] using h
    simp [leaves]
  | node l r ihl ihr =>
    have hl := l.leaves_length_pos
    have hr := r.leaves_length_pos
    simp only [codes, List.mem_append, List.mem_map, Prod.mk.injEq, Prod.exists] at h
    simp only [leaves, List.length_append]
    obtain ⟨y, c', hc, rfl, rfl⟩ | ⟨y, c', hc, rfl, rfl⟩ := h
    · have := ihl hc; simp only [List.length_cons]; omega
    · have := ihr hc; simp only [List.length_cons]; omega

/-- The path to a leaf does not begin the path to another leaf (R92). -/
theorem CodeTree.eq_of_prefix {T : CodeTree} {x y : Symbol} {p q : Code} (hx : (x, p) ∈ T.codes)
    (hy : (y, q) ∈ T.codes) (h : p <+: q) : x = y := by
  induction T generalizing p q with
  | leaf sym w =>
    simp only [codes, List.mem_singleton, Prod.mk.injEq] at hx hy
    rw [hx.1, hy.1]
  | node l r ihl ihr =>
    simp only [codes, List.mem_append, List.mem_map, Prod.mk.injEq, Prod.exists] at hx hy
    obtain ⟨x', p', hp, rfl, rfl⟩ | ⟨x', p', hp, rfl, rfl⟩ := hx <;>
      obtain ⟨y', q', hq, rfl, rfl⟩ | ⟨y', q', hq, rfl, rfl⟩ := hy <;> rw [List.cons_prefix_cons] at h
    · exact ihl hp hq h.2
    · cases h.1
    · cases h.1
    · exact ihr hp hq h.2

/-- The codes that GEN_CODES gives a tree: its edge sequences, and "0" where the root is a leaf (R90). -/
def CodeTree.table : CodeTree → List (Symbol × Code)
  | .leaf sym _ => [(sym, [false])]
  | .node l r => (CodeTree.node l r).codes

theorem CodeTree.map_fst_table (T : CodeTree) : T.table.map Prod.fst = T.leaves.map Prod.fst := by
  cases T with
  | leaf sym w => rfl
  | node l r => exact map_fst_codes _

/-- Every code has at least one bit, and no more than the other leaves need (R92, R93). -/
theorem CodeTree.length_of_mem_table {T : CodeTree} {x : Symbol} {c : Code} (h : (x, c) ∈ T.table) :
    1 ≤ c.length ∧ c.length ≤ max 1 (T.leaves.length - 1) := by
  cases T with
  | leaf sym w =>
    obtain ⟨rfl, rfl⟩ := by simpa [table] using h
    simp
  | node l r =>
    have hlt := length_lt_of_mem_codes h
    refine ⟨?_, by omega⟩
    simp only [table, codes, List.mem_append, List.mem_map, Prod.mk.injEq, Prod.exists] at h
    obtain ⟨y, c', hc, rfl, rfl⟩ | ⟨y, c', hc, rfl, rfl⟩ := h <;> simp

theorem CodeTree.eq_of_prefix_table {T : CodeTree} {x y : Symbol} {p q : Code} (hx : (x, p) ∈ T.table)
    (hy : (y, q) ∈ T.table) (h : p <+: q) : x = y := by
  cases T with
  | leaf sym w =>
    simp only [table, List.mem_singleton, Prod.mk.injEq] at hx hy
    rw [hx.1, hy.1]
  | node l r => exact eq_of_prefix hx hy h

/-! ### GEN_CODES visits the tree of the root -/

section
variable {nodes : List Node} {i : Nat}

/-- The tree of a leaf record. -/
theorem treeAt_leaf {sym : Symbol} {w : Weight} (h : nodes[i]? = some (.leaf sym w)) :
    treeAt nodes i = .leaf sym w := by
  induction nodes using List.reverseRecOn with
  | nil => simp at h
  | append_singleton nodes n ih =>
    have hi : i < nodes.length + 1 := by simpa using (List.getElem?_eq_some_iff.mp h).1
    obtain hlt | rfl := Nat.lt_succ_iff_lt_or_eq.mp hi
    · rw [List.getElem?_append_left hlt] at h
      rw [treeAt_concat_of_lt hlt, ih h]
    · rw [List.getElem?_concat_length] at h
      rw [treeAt_concat_length, Option.some.inj h, treeOf]

/-- The tree of an internal record that comes after its children. -/
theorem treeAt_internal {w : Weight} {l r : NodeIdx} (h : nodes[i]? = some (.internal w l r)) (hl : l.val < i)
    (hr : r.val < i) : treeAt nodes i = .node (treeAt nodes l.val) (treeAt nodes r.val) := by
  induction nodes using List.reverseRecOn with
  | nil => simp at h
  | append_singleton nodes n ih =>
    have hi : i < nodes.length + 1 := by simpa using (List.getElem?_eq_some_iff.mp h).1
    rw [treeAt_concat_of_lt (i := l.val) (by omega), treeAt_concat_of_lt (i := r.val) (by omega)]
    obtain hlt | rfl := Nat.lt_succ_iff_lt_or_eq.mp hi
    · rw [List.getElem?_append_left hlt] at h
      rw [treeAt_concat_of_lt hlt, ih h]
    · rw [List.getElem?_concat_length] at h
      rw [treeAt_concat_length, Option.some.inj h, treeOf]
      rfl

end

/-- The descent of R89 from a node collects the codes of its tree, each after the code of the node. -/
theorem visit_eq_codes {nodes : List Node} {arena : Vector Node 511} (hm : ∀ j, MergedAt nodes j)
    (ha : ∀ i : NodeIdx, i.val < nodes.length → nodes[i.val]? = some arena[i]) {depth : Nat} {n : NodeIdx}
    (hd : n.val < depth) (hn : n.val < nodes.length) (c : Code) :
    visit arena depth n c = some ((treeAt nodes n.val).codes.map fun e => (e.1, c ++ e.2)) := by
  induction depth generalizing n c with
  | zero => omega
  | succ depth ih =>
    have hnode := ha n hn
    rw [visit]
    split
    · next sym w heq =>
      rw [heq] at hnode
      simp [treeAt_leaf hnode, CodeTree.codes]
    · next w l r heq =>
      rw [heq] at hnode
      obtain ⟨hl, hr, -⟩ := hm n.val w l r hnode
      rw [ih (by omega) (by omega), ih (by omega) (by omega), treeAt_internal hnode hl hr]
      simp [CodeTree.codes, Function.comp_def]

/-- The tree that a current arena holds. -/
def builtTree (s : State) : CodeTree := treeAt (builtNodes s.freq) s.root.val

/-- GEN_CODES over a current tree gives its code table (R89, R90). -/
theorem TreeCurrent.treeCodes_eq {s : State} (h : TreeCurrent s) :
    treeCodes s.node s.root = some (builtTree s).table := by
  obtain ⟨k, -, hinv⟩ := h.mergeInv
  have hnode := h.getElem_builtNodes h.root_lt
  unfold treeCodes builtTree
  split
  · next sym w heq =>
    rw [heq] at hnode
    rw [treeAt_leaf hnode, CodeTree.table]
  · next w l r heq =>
    rw [heq] at hnode
    obtain ⟨hl, hr, -⟩ := hinv.merged _ w l r hnode
    have hlt : s.root.val < (builtNodes s.freq).length := h.length_builtNodes ▸ h.root_lt
    rw [visit_eq_codes (depth := Config.nNodes) hinv.merged h.nodes s.root.isLt hlt, treeAt_internal hnode hl hr]
    simp [CodeTree.table]

/-- The leaves of a current tree are the alphabet. -/
theorem TreeCurrent.leaves_perm {s : State} (h : TreeCurrent s) :
    (builtTree s).leaves.Perm (alphabet s.freq) := by
  obtain ⟨k, hk, hinv⟩ := h.mergeInv
  simpa [builtTree, hk] using hinv.leaves

/-! ### The tables LEN and BITS -/

section
variable {α : Type} (f : Symbol × Code → α)

/-- Writing the entries of other symbols leaves an entry. -/
theorem getElem_foldl_set_of_notMem {codes : List (Symbol × Code)} {x : Symbol} (hx : x ∉ codes.map Prod.fst)
    (t : Vector α 256) :
    (codes.foldl (fun t e => t.set e.1.toNat (f e)) t)[x.toNat] = t[x.toNat] := by
  induction codes generalizing t with
  | nil => rfl
  | cons e codes ih =>
    simp only [List.map_cons, List.mem_cons, not_or] at hx
    have hne : e.1.toNat ≠ x.toNat := fun h => hx.1 (BitVec.eq_of_toNat_eq h.symm)
    rw [List.foldl_cons, ih hx.2, Vector.getElem_set_ne _ _ hne]

/-- A table written from entries with different symbols holds each of them. -/
theorem getElem_foldl_set_of_mem {codes : List (Symbol × Code)} {e : Symbol × Code} (he : e ∈ codes)
    (hnd : (codes.map Prod.fst).Nodup) (t : Vector α 256) :
    (codes.foldl (fun t e => t.set e.1.toNat (f e)) t)[e.1.toNat] = f e := by
  induction codes generalizing t with
  | nil => cases he
  | cons e' codes ih =>
    rw [List.map_cons, List.nodup_cons] at hnd
    rw [List.foldl_cons]
    obtain rfl | he := List.mem_cons.mp he
    · rw [getElem_foldl_set_of_notMem f hnd.1, Vector.getElem_set_self]
    · exact ih he hnd.2 _

end

theorem codeValue_concat (c : Code) (b : Bool) : codeValue (c ++ [b]) = 2 * codeValue c + b.toNat := by
  simp [codeValue]

/-- The bits of `value(c)`, from the last bit of the code up (R11). -/
theorem testBit_codeValue_reverse (c : Code) (j : Nat) :
    (codeValue c).testBit j = (c.reverse[j]?).getD false := by
  induction c using List.reverseRecOn generalizing j with
  | nil => simp [codeValue]
  | append_singleton c b ih =>
    rw [codeValue_concat, List.reverse_append]
    cases j with
    | zero => cases b <;> simp
    | succ j =>
      rw [Nat.testBit_succ, show (2 * codeValue c + b.toNat) / 2 = codeValue c by cases b <;> simp; omega, ih]
      simp

/-- A code is read back from its value and its length (R22). -/
theorem code_of_codeValue {c : Code} (hc : c.length ≤ 256) :
    (List.range c.length).map (fun j => (BitVec.ofNat 256 (codeValue c)).getLsbD (c.length - 1 - j)) = c := by
  refine List.ext_getElem (by simp) fun j h1 h2 => ?_
  rw [List.getElem_map, List.getElem_range, BitVec.getLsbD_ofNat, testBit_codeValue_reverse]
  have hj : j < c.length := h2
  simp only [show c.length - 1 - j < 256 by omega, decide_true, Bool.true_and]
  rw [List.getElem?_reverse (by omega), show c.length - 1 - (c.length - 1 - j) = j by omega,
    List.getElem?_eq_getElem hj, Option.getD_some]

/-! ### A current code table -/

section
variable {s : State} {x : Symbol} {c : Code}

theorem TreeCurrent.table_symbols_perm (hT : TreeCurrent s) :
    ((builtTree s).table.map Prod.fst).Perm ((alphabet s.freq).map Prod.fst) := by
  rw [CodeTree.map_fst_table]
  exact hT.leaves_perm.map _

theorem TreeCurrent.nodup_table_symbols (hT : TreeCurrent s) : ((builtTree s).table.map Prod.fst).Nodup :=
  hT.table_symbols_perm.symm.nodup (nodup_alphabet_symbols s.freq)

/-- Exactly the symbols of the alphabet get a code. -/
theorem TreeCurrent.exists_mem_table (hT : TreeCurrent s) :
    (∃ c, (x, c) ∈ (builtTree s).table) ↔ freqOf s x ≠ 0#32 := by
  rw [← mem_alphabet_symbols, ← hT.table_symbols_perm.mem_iff]
  simp

/-- Codes have between 1 and 255 bits (R92, R93). -/
theorem TreeCurrent.length_of_mem_table (hT : TreeCurrent s) (h : (x, c) ∈ (builtTree s).table) :
    1 ≤ c.length ∧ c.length ≤ 255 := by
  obtain ⟨hlow, hhigh⟩ := CodeTree.length_of_mem_table h
  have hleaves := hT.leaves_perm.length_eq
  have hK := length_alphabet_le s.freq
  omega

theorem CodesCurrent.tables (hC : CodesCurrent s) (hT : TreeCurrent s) :
    s.len = lenTable (builtTree s).table ∧ s.bits = bitsTable (builtTree s).table := by
  obtain ⟨codes, hcodes, hlen, hbits, -⟩ := hC
  rw [hT.treeCodes_eq] at hcodes
  obtain rfl := Option.some.inj hcodes
  exact ⟨hlen, hbits⟩

/-- LEN of a symbol with a code is the length of its code (R89). -/
theorem CodesCurrent.lenOf_of_mem (hC : CodesCurrent s) (hT : TreeCurrent s) (h : (x, c) ∈ (builtTree s).table) :
    (lenOf s x).toNat = c.length := by
  have hlen := (hT.length_of_mem_table h).2
  have hentry : lenOf s x = BitVec.ofNat 8 c.length := by
    simp only [lenOf, (hC.tables hT).1, lenTable]
    exact getElem_foldl_set_of_mem (fun e => BitVec.ofNat 8 e.2.length) h hT.nodup_table_symbols _
  rw [hentry, BitVec.toNat_ofNat]
  omega

/-- LEN of a symbol outside the alphabet is 0 (R89). -/
theorem CodesCurrent.lenOf_of_freq_zero (hC : CodesCurrent s) (hT : TreeCurrent s) (h : freqOf s x = 0#32) :
    lenOf s x = 0#8 := by
  have hx : x ∉ (builtTree s).table.map Prod.fst := by
    rw [hT.table_symbols_perm.mem_iff, mem_alphabet_symbols, not_not]; exact h
  simp only [lenOf, (hC.tables hT).1, lenTable]
  rw [getElem_foldl_set_of_notMem (fun e : Symbol × Code => BitVec.ofNat 8 e.2.length) hx, Vector.getElem_replicate]

/-- The table holds the code of every symbol of the alphabet (R22, R89). -/
theorem CodesCurrent.tableCode_of_mem (hC : CodesCurrent s) (hT : TreeCurrent s)
    (h : (x, c) ∈ (builtTree s).table) : tableCode s x = c := by
  have hlen := (hT.length_of_mem_table h).2
  have hentry : bitsOf s x = BitVec.ofNat 256 (codeValue c) := by
    simp only [bitsOf, (hC.tables hT).2, bitsTable]
    exact getElem_foldl_set_of_mem (fun e => BitVec.ofNat 256 (codeValue e.2)) h hT.nodup_table_symbols _
  rw [tableCode, hC.lenOf_of_mem hT h, hentry]
  exact code_of_codeValue (by omega)

/-- Exactly the symbols of the alphabet have a code (R41, R92). -/
theorem CodesCurrent.lenOf_ne_zero_iff (hC : CodesCurrent s) (hT : TreeCurrent s) :
    lenOf s x ≠ 0#8 ↔ freqOf s x ≠ 0#32 := by
  refine ⟨mt (hC.lenOf_of_freq_zero hT), fun hx h0 => ?_⟩
  obtain ⟨c, hc⟩ := hT.exists_mem_table.mpr hx
  have hpos := (hT.length_of_mem_table hc).1
  have hlen := hC.lenOf_of_mem hT hc
  rw [h0] at hlen
  simp only [BitVec.toNat_ofNat, Nat.zero_mod] at hlen
  omega

/-- The leaf records of a current tree are the symbols of the alphabet. -/
theorem TreeCurrent.exists_leaf_iff (hT : TreeCurrent s) :
    (∃ (j : NodeIdx) (w : Weight), j.val < s.nodeCount.toNat ∧ s.node[j] = .leaf x w) ↔ freqOf s x ≠ 0#32 := by
  obtain ⟨k, -, hinv⟩ := hT.mergeInv
  obtain ⟨made, hshape, hmade⟩ := hinv.shape
  have hlen := hT.length_builtNodes
  have hleaf (w : Weight) : Node.leaf x w ∈ builtNodes s.freq ↔ (x, w) ∈ alphabet s.freq := by
    have hnot : Node.leaf x w ∉ made := fun h => by obtain ⟨_, _, _, hn⟩ := hmade _ h; cases hn
    simp [hshape, hnot, leafNodes]
  rw [← mem_alphabet_symbols]
  constructor
  · rintro ⟨j, w, hj, hn⟩
    have hmem := List.mem_of_getElem? (hT.getElem_builtNodes hj)
    rw [hn, hleaf] at hmem
    exact List.mem_map_of_mem hmem
  · intro hx
    obtain ⟨⟨x', w⟩, hmem, rfl⟩ := List.mem_map.mp hx
    obtain ⟨j, hj⟩ := List.mem_iff_getElem?.mp ((hleaf w).mpr hmem)
    have hjlt : j < s.nodeCount.toNat := hlen ▸ (List.getElem?_eq_some_iff.mp hj).1
    have hcounts := hT.counts
    have hnode := hT.getElem_builtNodes (i := ⟨j, by omega⟩) hjlt
    exact ⟨⟨j, by omega⟩, w, hjlt, Option.some.inj (hnode.symm.trans hj)⟩

end

/-- Settles O40: the table holds the codes of the tree that the merger made, whose leaves are the alphabet, and the
path to a leaf begins no other path. -/
theorem codesArePrefixFree : Obligations.CodesArePrefixFree := by
  intro s hInv hv
  have hT := hInv.tree (hInv.codesNeedTree hv)
  have hC := hInv.codes hv
  refine ⟨fun sym => hC.lenOf_ne_zero_iff hT, fun sym => (hC.lenOf_ne_zero_iff hT).trans hT.exists_leaf_iff.symm,
    fun x y hne hx hy hpre => ?_, fun sym hsym => ?_⟩
  · obtain ⟨p, hp⟩ := hT.exists_mem_table.mpr ((hC.lenOf_ne_zero_iff hT).mp hx)
    obtain ⟨q, hq⟩ := hT.exists_mem_table.mpr ((hC.lenOf_ne_zero_iff hT).mp hy)
    rw [hC.tableCode_of_mem hT hp, hC.tableCode_of_mem hT hq] at hpre
    exact hne (CodeTree.eq_of_prefix_table hp hq hpre)
  · obtain ⟨c, hc⟩ := hT.exists_mem_table.mpr hsym
    rw [hC.tableCode_of_mem hT hc]
    exact (hT.length_of_mem_table hc).1

end Sys2Proof.Machine
end

section
/-! PROOFS. The commands that only read (R52): what one answers does not depend on the port, and an error it
raises does not depend on the error bookkeeping either. -/

namespace Sys2Proof.Machine

/-- The commands that read one entry of an array, one word of BITBUF or one CSR, at the operands A and B. -/
def readingCommands (a : BitVec 16) (b : BitVec 32) : List Instr :=
  [.ftGet a, .nodeGet a, .codeLen a, .codeGet a b, .bbRead a, .rdCsr a]

/-- A reading command completes with the same data whatever the port holds, or it raises the same error
whatever the port, LAST_ERR and ERR_MASK hold. RD_CSR of STATUS reads the bookkeeping, but raises nothing. -/
theorem exec_readingCommand_cases {a : BitVec 16} {b : BitVec 32} {i : Instr}
    (hi : i ∈ readingCommands a b) (s : State) :
    (∃ d, ∀ p, exec i { s with port := p } = .next (answered d s)) ∨
    (∃ e, e ≠ .ok ∧ ∀ p l m, exec i { s with port := p, lastErr := l, errMask := m } =
      raise e { s with port := p, lastErr := l, errMask := m }) := by
  simp only [readingCommands, List.mem_cons, List.not_mem_nil, or_false] at hi
  obtain rfl | rfl | rfl | rfl | rfl | rfl := hi
  · simp only [exec, execFtGet]
    split
    · exact .inr ⟨.badOperand, by decide, fun _ _ _ => rfl⟩
    · next sym _ => exact .inl ⟨(freqOf s sym).setWidth 64, fun _ => rfl⟩
  · simp only [exec, execNodeGet]
    split
    · exact .inr ⟨.badOperand, by decide, fun _ _ _ => rfl⟩
    · next j _ =>
      split_ifs
      · exact .inr ⟨.noTree, by decide, fun _ _ _ => rfl⟩
      · exact .inr ⟨.badOperand, by decide, fun _ _ _ => rfl⟩
      · exact .inl ⟨packNode s.node[j], fun _ => rfl⟩
  · simp only [exec, execCodeLen]
    split
    · exact .inr ⟨.badOperand, by decide, fun _ _ _ => rfl⟩
    · next sym _ =>
      split_ifs
      · exact .inr ⟨.noCodes, by decide, fun _ _ _ => rfl⟩
      · exact .inl ⟨(lenOf s sym).setWidth 64, fun _ => rfl⟩
  · simp only [exec, execCodeGet]
    split
    · next sym n _ _ =>
      split_ifs
      · exact .inr ⟨.noCodes, by decide, fun _ _ _ => rfl⟩
      · exact .inl ⟨codeWindow (bitsOf s sym) n, fun _ => rfl⟩
    · exact .inr ⟨.badOperand, by decide, fun _ _ _ => rfl⟩
  · simp only [exec, execBbRead]
    split
    · exact .inr ⟨.badOperand, by decide, fun _ _ _ => rfl⟩
    · next w _ => exact .inl ⟨(wordRead s w).setWidth 64, fun _ => rfl⟩
  · simp only [exec, execRdCsr]
    split
    · exact .inr ⟨.badOperand, by decide, fun _ _ _ => rfl⟩
    · next c _ => exact .inl ⟨csrValue s c, fun _ => rfl⟩

/-- Settles O20: the state after a reading command differs from the one before in the port, and after an error in
the bookkeeping; the answer of the second read depends on none of these. -/
theorem readsHaveNoSideEffect : Obligations.ReadsHaveNoSideEffect := by
  intro a b i s t hi h
  obtain ⟨d, hread⟩ | ⟨e, he, hread⟩ := exec_readingCommand_cases hi s
  · obtain rfl : answered d s = t := Host.Outcome.next.inj ((hread s.port).symm.trans h)
    refine ⟨rfl, fun d' hp => ?_, answered d s, hread _, rfl⟩
    obtain rfl : d = d' := by simpa [answered] using hp
    rfl
  · obtain rfl : respond e 0#64 (bookError e s) = t :=
      raise_eq_next.mp ((hread s.port s.lastErr s.errMask).symm.trans h)
    refine ⟨rfl, fun d hp => ?_, _, hread _ _ _, rfl⟩
    simp [he] at hp

end Sys2Proof.Machine
end

section
/-! PROOFS. The decoder and the encoder (R64, R67 to R72): which words decode, to which command, and that the two
are inverse to each other. -/

namespace Sys2Proof

/-! ### The rows of the opcode map -/

/-- The OPC of a row is the OPC of its commands (R67). -/
theorem opcOf_instrOf {opc : BitVec 8} {o : Opcode} (h : opcodeOf opc = some o) (a : BitVec 16) (b : BitVec 32) :
    opcOf (instrOf a b o) = opc := by
  apply BitVec.eq_of_toNat_eq
  unfold opcodeOf at h
  split at h <;> cases h <;> simp [instrOf, opcOf, *]

/-- Field A of the command of a row is the field of the word, where an unused field is 0. -/
theorem aOf_instrOf {o : Opcode} {a : BitVec 16} (ha : usesA o = false → a = 0#16) (b : BitVec 32) :
    aOf (instrOf a b o) = a := by
  cases o <;> simp_all [usesA, aOf, instrOf]

theorem bOf_instrOf {o : Opcode} (a : BitVec 16) {b : BitVec 32} (hb : usesB o = false → b = 0#32) :
    bOf (instrOf a b o) = b := by
  cases o <;> simp_all [usesB, bOf, instrOf]

/-- Every command has a row, whose unused fields are 0 in it (R67). -/
theorem exists_row (i : Instr) :
    ∃ o, opcodeOf (opcOf i) = some o ∧ (usesA o = false → aOf i = 0#16) ∧ (usesB o = false → bOf i = 0#32) ∧
      instrOf (aOf i) (bOf i) o = i := by
  cases i <;> exact ⟨_, rfl, by simp [usesA, aOf], by simp [usesB, bOf], rfl⟩

theorem opcodeOf_eq_none {opc : BitVec 8} :
    opcodeOf opc = none ↔ opc.toNat ∉ [0x00, 0x01, 0x02, 0x03, 0x10, 0x11, 0x12, 0x20, 0x21, 0x30, 0x31, 0x32, 0x40,
      0x41, 0x50, 0x51, 0x52, 0x60, 0x61, 0x70] := by
  unfold opcodeOf
  split <;> simp_all

/-- Column A of R67 by OPC. -/
theorem usesA_eq_false {opc : BitVec 8} {o : Opcode} (h : opcodeOf opc = some o) :
    usesA o = false ↔ opc.toNat ∉ [0x01, 0x11, 0x12, 0x21, 0x31, 0x32, 0x41, 0x50, 0x51, 0x70] := by
  rw [← opcOf_instrOf h 0#16 0#32]
  cases o <;> decide

/-- Column B of R67 by OPC. -/
theorem usesB_eq_false {opc : BitVec 8} {o : Opcode} (h : opcodeOf opc = some o) :
    usesB o = false ↔ opc.toNat ∉ [0x11, 0x32, 0x51, 0x52, 0x70] := by
  rw [← opcOf_instrOf h 0#16 0#32]
  cases o <;> decide

/-! ### The decoding procedure -/

/-- A word decodes exactly when its OPC has a row, RSV is 0 and the unused fields are 0, and to the command of
that row (R68 to R70). -/
theorem decode_eq_ok {w : Command} {i : Instr} :
    decode w = .ok i ↔ ∃ o, opcodeOf (opcField w) = some o ∧ rsvField w = 0#8 ∧
      (usesA o = false → aField w = 0#16) ∧ (usesB o = false → bField w = 0#32) ∧
      instrOf (aField w) (bField w) o = i := by
  unfold decode
  split
  · next h => simp [h]
  · next o h =>
    simp only [h, Option.some.injEq, exists_eq_left']
    split_ifs with hr hu
    · simp [hr]
    · obtain ⟨hA, ha⟩ | ⟨hB, hb⟩ := hu
      · simp [hA, ha]
      · simp [hB, hb]
    · simp only [not_or, not_and, not_not] at hr hu
      obtain ⟨hA, hB⟩ := hu
      simp only [Except.ok.injEq, hr, true_and]
      exact ⟨fun hi => ⟨hA, hB, hi⟩, fun ⟨_, _, hi⟩ => hi⟩

/-- Settles O1: the fields of the encoded word are those of the command, and they meet the conditions of its row. -/
theorem decodeEncodeRoundTrip : Obligations.DecodeEncodeRoundTrip := by
  intro i
  obtain ⟨hopc, hrsv, ha, hb⟩ := fields_encode i
  rw [decode_eq_ok, hopc, hrsv, ha, hb]
  obtain ⟨o, ho, hA, hB, hi⟩ := exists_row i
  exact ⟨o, ho, rfl, hA, hB, hi⟩

/-- Settles O2: the fields of the word are those of the command of its row, and a word is its four fields. -/
theorem encodeDecodeInverse : Obligations.EncodeDecodeInverse := by
  intro w i h
  obtain ⟨o, ho, hrsv, hA, hB, rfl⟩ := decode_eq_ok.mp h
  rw [encode, opcOf_instrOf ho, aOf_instrOf hA, bOf_instrOf _ hB, ← hrsv]
  exact append_fields w

/-- The word of a command is its fields shifted to their places (R72). -/
theorem encode_eq_or (i : Instr) :
    encode i = ((opcOf i).setWidth 64 <<< 56) ||| ((aOf i).setWidth 64 <<< 32) ||| (bOf i).setWidth 64 := by
  have h := BitVec.setWidth_append_append_append_eq_shiftLeft_setWidth_or (w'''' := 64)
    (b := opcOf i) (b' := 0#8) (b'' := aOf i) (b''' := bOf i)
  simpa [encode] using h

/-- Settles O3; the two examples of R72 are evaluated. -/
theorem commandWordFormula : Obligations.CommandWordFormula :=
  ⟨fun i => ⟨encode_eq_or i, rsvField_append ..⟩, by decide, by decide⟩

/-- Settles O5 by evaluating the decoder on the thirteen words. -/
theorem knownWordsDecode : Obligations.KnownWordsDecode := by
  unfold Obligations.KnownWordsDecode
  decide

end Sys2Proof

namespace Sys2Proof.Machine

/-! ### Illegal words -/

/-- R68 for a word whose OPC has a row. -/
theorem illegalWord_iff_of_row {w : Command} {o : Opcode} (h : opcodeOf (opcField w) = some o) :
    illegalWord w ↔
      rsvField w ≠ 0#8 ∨ (aField w ≠ 0#16 ∧ usesA o = false) ∨ (bField w ≠ 0#32 ∧ usesB o = false) := by
  have hlegal : (∃ i, decode w = .ok i) ↔ rsvField w = 0#8 ∧ (usesA o = false → aField w = 0#16) ∧
      (usesB o = false → bField w = 0#32) := by simp [decode_eq_ok, h]
  simp only [illegalWord, ne_eq, ← not_exists, hlegal]
  tauto

/-- An illegal word ends with ILLEGAL_COMMAND in every state (R69). -/
theorem execWord_of_illegalWord {w : Command} (h : illegalWord w) (s : State) :
    execWord w s = .next (failed .illegalCommand 2 s) := by
  obtain ⟨e, -, hw⟩ | ⟨i, hi, -⟩ := execWord_cases w s
  · exact hw
  · exact absurd hi (h i)

/-- Settles O4: an OPC without a row is illegal by itself, and with a row the columns of R67 decide. -/
theorem legalWordsExactly : Obligations.LegalWordsExactly := by
  intro w
  refine ⟨?_, execWord_of_illegalWord⟩
  cases h : opcodeOf (opcField w) with
  | none =>
    refine iff_of_true (fun i hi => ?_) (.inl (opcodeOf_eq_none.mp h))
    obtain ⟨o, ho, -⟩ := decode_eq_ok.mp hi
    simp [h] at ho
  | some o =>
    have hlisted := mt opcodeOf_eq_none.mpr (by simp [h] : ¬ opcodeOf (opcField w) = none)
    rw [← usesA_eq_false h, ← usesB_eq_false h, illegalWord_iff_of_row h, or_iff_right hlisted]

end Sys2Proof.Machine
end

section
/-! PROOFS. One step by the phase of the port (R61, R62, R134), and the word that the host's placing of a command
accepts. -/

namespace Sys2Proof.Machine

/-! ### A step by the phase of the port -/

section
variable {s : State} (hr : (pinsNow s).rstN = true) (hs : s.resetSeen = true) (ho : offerBroken s = false)
include hr hs ho

theorem step_of_idle (hp : s.port = .idle) : step s = .next (idleStep s) := by
  simp [step, hr, hs, ho, hp]

theorem step_of_busy {w : Command} (hp : s.port = .busy w) : step s = execWord w (advance s) := by
  simp [step, hr, hs, ho, hp]

theorem step_of_respond {r : Response} (hp : s.port = .respond r) : step s = .next (respondStep r s) := by
  simp [step, hr, hs, ho, hp]

end

theorem step_of_reset {s : State} (hr : (pinsNow s).rstN = false) : step s = .next (resetStep s) := by
  simp [step, hr]

theorem execWord_of_decode {w : Command} {i : Instr} (h : decode w = .ok i) (s : State) :
    execWord w s = exec i s := by
  simp [execWord, h]

/-- Settles O6: the state that the word runs on is the one with a pin sample used up. -/
theorem stepRunsDecodedCommand : Obligations.StepRunsDecodedCommand := by
  intro s w hp hr hs ho
  have hstep := step_of_busy hr hs ho hp
  exact ⟨advance s, rfl, hstep, fun i hi => hstep.trans (execWord_of_decode hi _),
    fun hw => hstep.trans (execWord_of_illegalWord hw _)⟩

/-! ### Placing a command -/

/-- The pins placed with a word keep the offer (R139). -/
theorem offerBroken_placeCommand (w : Command) (s : State) : offerBroken (placeCommand w s) = false := by
  cases h : s.offer <;> simp [offerBroken, placeCommand, pinsNow, heldPins, h]

/-- The step of a placed word uses up the pin sample placed with it, and nothing else. -/
theorem advance_placeCommand (w : Command) (s : State) :
    advance (placeCommand w s) = { s with port := .busy w, resetSeen := true } := by
  have hoffer : offerKept (placeCommand w s) = s.offer := by
    cases h : s.offer <;> simp [offerKept, placeCommand, pinsNow, heldPins, h]
  rw [advance, hoffer]
  rfl

theorem step_placeCommand (w : Command) (s : State) :
    step (placeCommand w s) = execWord w { s with port := .busy w, resetSeen := true } := by
  rw [step_of_busy rfl rfl (offerBroken_placeCommand w s) rfl, advance_placeCommand]

theorem decodeTableWord_eq_some {nbits w : Nat} {i : Instr} :
    decodeTableWord nbits w = some i ↔ decode (BitVec.ofNat 64 (w % 2 ^ nbits)) = .ok i := by
  unfold decodeTableWord
  split <;> simp [*]

/-- Settles O7. The pins placed with the word hold the offer and no reset, so the step is the one in BUSY. -/
theorem placedCommandRunsNext : Obligations.PlacedCommandRunsNext := by
  intro s nbits w i h
  exact (step_placeCommand _ s).trans (execWord_of_decode (decodeTableWord_eq_some.mp h) _)

/-! ### The handshake -/

theorem cmdReady_iff {s : State} : cmdReady s = true ↔ s.port = .idle ∧ (pinsNow s).rstN = true := by
  simp [cmdReady, and_comm]

theorem rspHeld_eq_some {s : State} {r : Response} : rspHeld s = some r ↔ s.port = .respond r := by
  unfold rspHeld
  split <;> simp [*]

theorem rspValid_iff {s : State} :
    rspValid s = true ↔ (∃ r, s.port = .respond r) ∧ (pinsNow s).rstN = true := by
  unfold rspValid
  split <;> simp [*]

theorem cmdTransfers_of_idle {s : State} (hp : s.port = .idle) (hr : (pinsNow s).rstN = true) :
    cmdTransfers s = (pinsNow s).cmdValid := by
  simp [cmdTransfers, cmdReady_iff.mpr ⟨hp, hr⟩]

theorem rspTransfers_of_respond {s : State} {r : Response} (hp : s.port = .respond r)
    (hr : (pinsNow s).rstN = true) : rspTransfers s = (pinsNow s).rspReady := by
  simp [rspTransfers, rspValid_iff.mpr ⟨⟨r, hp⟩, hr⟩]

/-- Settles O8: the outputs by the phase of the port, then the step in IDLE and in RESPOND with a transfer and
without one. -/
theorem portHandshake : Obligations.PortHandshake := by
  refine ⟨fun _ => cmdReady_iff, fun _ => rspValid_iff, fun _ _ => rspHeld_eq_some, fun _ => ?_, fun _ => rfl,
    fun s hr hs ho => ⟨fun hp hv => ?_, fun hp hv => ?_, fun r hp hv => ?_, fun r hp hv => ?_⟩⟩
  · simp [rspStatus, statusCode]
  · simp [step_of_idle hr hs ho hp, idleStep, cmdTransfers_of_idle hp hr, hv]
  · simp [step_of_idle hr hs ho hp, idleStep, cmdTransfers_of_idle hp hr, hv, advance, offerKept]
  · simp [step_of_respond hr hs ho hp, respondStep, rspTransfers_of_respond hp hr, hv, advance, offerKept]
  · simp [step_of_respond hr hs ho hp, respondStep, rspTransfers_of_respond hp hr, hv, advance, offerKept]

end Sys2Proof.Machine
end

section
/-! PROOFS. The statuses a command can answer with (R66, R119). -/

namespace Sys2Proof.Machine

theorem raise_badOperand (s : State) : raise .badOperand s = .next (failed .badOperand 3 s) :=
  raise_failed .badOperand s

/-- Settles O17: each meaning reads its operands before the state. -/
theorem outOfRangeOperandRaises : Obligations.OutOfRangeOperandRaises := by
  intro s a b
  simp only [← raise_badOperand]
  refine ⟨fun h => ?_, fun h => ?_, fun h => ?_, fun h => ?_, fun h => ?_, fun h => ?_, fun h => ?_⟩
  · simp [exec, execRdCsr, csrOperand_eq_none.mpr h]
  · simp [exec, execFtSet, execFtGet, execCodeLen, execEncSym, symOperand_eq_none.mpr h]
  · simp [exec, execNodeGet, idxOperand_eq_none.mpr h]
  · obtain h | h := h
    · simp [exec, execCodeGet, symOperand_eq_none.mpr h]
    · simp [exec, execCodeGet, winOperand_eq_none.mpr h]
  · simp [exec, execBbRead, execBbWrite, wordOperand_eq_none.mpr h]
  · simp [exec, execBbSetLen, lenOperand_eq_none.mpr h]
  · obtain h | h := h
    · simp [exec, execMetrics, srcOperand_eq_none.mpr h]
    · simp [exec, execMetrics, widthOperand_eq_none.mpr h]

/-- Settles O16: an error other than RATIO_UNDEFINED is among the command's plain errors, which are read command by
command. -/
theorem responsesPerCommand : Obligations.ResponsesPerCommand := by
  intro i s t h
  obtain ⟨d, u, rfl⟩ | ⟨rfl, rfl⟩ | ⟨e, he, rfl⟩ | ⟨a, b, fixed, rfl, rfl⟩ := exec_next_cases h
  · exact ⟨.ok, d, rfl, by simp⟩
  · exact ⟨.endOfStream, 0#64, rfl, by simp⟩
  · refine ⟨e, 0#64, rfl, fun _ => rfl, ?_⟩
    cases i with
    | nop | clrErr | softReset | ftClear | encReset | decReset => simp [plainErrors] at he
    | rdCsr | ftSet | ftGet | bbRead | bbWrite | bbSetLen | genCodes =>
      obtain rfl := by simpa [plainErrors] using he
      simp
    | build | nodeGet | codeLen | codeGet =>
      obtain rfl | rfl := by simpa [plainErrors] using he
      all_goals simp
    | decSym =>
      obtain rfl | rfl | rfl := by simpa [plainErrors] using he
      all_goals simp
    | encSym a =>
      obtain rfl | rfl | rfl | rfl := by simpa [plainErrors] using he
      all_goals simp
    | metrics a b =>
      by_cases ha : a = 1#16
      · obtain rfl | rfl := by simpa [plainErrors, ha] using he
        · simp
        · simp [ha]
      · obtain rfl := by simpa [plainErrors, ha] using he
        simp
  · exact ⟨.ratioUndefined, 0#64, rfl, by simp⟩

end Sys2Proof.Machine
end

section
/-! PROOFS. Where the invariants of R39 hold no command faults, so every step answers (R63, R133). -/

namespace Sys2Proof.Machine

/-! ### No fault where the invariants hold -/

@[simp] theorem complete_ne_fault (d : BitVec 64) (s : State) (f : Fault) : complete d s ≠ .fault f := nofun

@[simp] theorem raise_ne_fault (e : Status) (s : State) (f : Fault) : raise e s ≠ .fault f := nofun

@[simp] theorem info_ne_fault (e : Status) (s : State) (f : Fault) : info e s ≠ .fault f := nofun

/-- Two commands have a path that ends in a fault (log entries 11, 12). -/
theorem eq_of_exec_eq_fault {i : Instr} {s : State} {f : Fault} (h : exec i s = .fault f) :
    i = .genCodes ∨ i = .decSym := by
  cases i with
  | genCodes => exact .inl rfl
  | decSym => exact .inr rfl
  | nop | clrErr | softReset | ftClear | encReset | decReset => exact (complete_ne_fault _ _ _ h).elim
  | build => simp [exec, execBuild, ite_eq_iff] at h
  | rdCsr _ | ftSet _ _ | ftGet _ | bbRead _ | bbWrite _ _ | bbSetLen _ =>
    simp only [exec, execRdCsr, execFtSet, execFtGet, execBbRead, execBbWrite, execBbSetLen] at h
    split at h <;> simp at h
  | nodeGet _ | codeLen _ | codeGet _ _ | encSym _ | metrics _ _ =>
    simp only [exec, execNodeGet, execCodeLen, execCodeGet, execEncSym, execMetrics, finishMetrics] at h
    split at h <;> simp [ite_eq_iff] at h

/-- GEN_CODES over a current tree does not pass N_NODES levels (R85, R89). -/
theorem execGenCodes_ne_fault {s : State} (h : s.treeValid = true → TreeCurrent s) (f : Fault) :
    execGenCodes s ≠ .fault f := by
  unfold execGenCodes
  split
  · simp
  · next ht =>
    rw [(h (by simpa using ht)).treeCodes_eq]
    simp

theorem bitRead_of_lt {s : State} {p : Nat} (h : p < bitbufBits s) : bitRead s p = some (bitAt s p) := if_pos h

/-- A walk within the stream stays within the buffer (R24, R53). -/
theorem walk_ne_outside {s : State} {left q : Nat} (h : q + left ≤ bitbufBits s) (n : NodeIdx) :
    walk s left q n ≠ .outside := by
  induction left generalizing q n with
  | zero => simp [walk]
  | succ left ih =>
    rw [walk, bitRead_of_lt (by omega)]
    dsimp only
    split
    · simp
    · exact ih (by omega) _

/-- DEC_SYM of a stream within the buffer reads only positions that exist (R24, R53). -/
theorem execDecSym_ne_fault {s : State} (h : s.streamLen.toNat ≤ bitbufBits s) (f : Fault) :
    execDecSym s ≠ .fault f := by
  unfold execDecSym
  dsimp only
  split_ifs with ht hend
  · simp
  · simp
  · split
    · rw [bitRead_of_lt (by omega)]
      cases bitAt s s.decBitPos.toNat <;> simp [emitSymbol]
    · have hwalk : walk s (s.streamLen.toNat - s.decBitPos.toNat) s.decBitPos.toNat s.root ≠ .outside :=
        walk_ne_outside (by omega) _
      split
      · simp [emitSymbol]
      · simp
      · next hout => exact absurd hout hwalk

theorem Inv.exec_ne_fault {s : State} (h : Inv s) (i : Instr) (f : Fault) : Machine.exec i s ≠ .fault f := by
  intro hf
  obtain rfl | rfl := eq_of_exec_eq_fault hf
  · exact execGenCodes_ne_fault h.tree f hf
  · exact execDecSym_ne_fault h.stream f hf

/-! ### Every command is answered -/

/-- A next state that holds a response: what every command that ends leaves (R10). -/
def Responds (r : Result) : Prop := ∃ t q, r = .next t ∧ t.port = .respond q

theorem EndsFrom.responds {i : Instr} {s : State} {r : Result} (h : EndsFrom i s r) (hf : ∀ f, r ≠ .fault f) :
    Responds r := by
  cases h with
  | completes | endOfStream | raises | ratioUndefined => exact ⟨_, _, rfl, rfl⟩
  | faults f => exact absurd rfl (hf f)

/-- Every accepted word is answered where the invariants hold. -/
theorem Inv.execWord_responds {s : State} (h : Inv s) (w : Command) : Responds (Machine.execWord w s) := by
  obtain ⟨e, -, hw⟩ | ⟨i, -, hw⟩ := execWord_cases w s
  · exact hw ▸ ⟨_, _, rfl, rfl⟩
  · exact hw ▸ (exec_ends i s).responds (h.exec_ne_fault i)

/-- Settles O13: the port events answer by themselves, and an accepted word does because no command faults where
the invariants hold. -/
theorem everyStepAnswers : Obligations.EveryStepAnswers := by
  intro s hInv hs ho
  cases hr : (pinsNow s).rstN with
  | false => exact ⟨_, step_of_reset hr, fun w _ hr' => by cases hr'⟩
  | true =>
    cases hp : s.port with
    | idle => exact ⟨_, step_of_idle hr hs ho hp, fun w hw => by cases hw⟩
    | respond r => exact ⟨_, step_of_respond hr hs ho hp, fun w hw => by cases hw⟩
    | busy w =>
      obtain ⟨t, r, ht, hresp⟩ := hInv.advance.execWord_responds w
      exact ⟨t, (step_of_busy hr hs ho hp).trans ht, fun _ _ _ => ⟨r, hresp⟩⟩

end Sys2Proof.Machine
end

section
/-! PROOFS. The frequency table commands (R75 to R77): the words of a command by its row of the opcode map, what FREQ
then holds, and BUILD over an empty alphabet. -/

namespace Sys2Proof.Machine

/-! ### The words of one row -/

section
variable {w : Command} {i : Instr} {o : Opcode}

/-- A command has exactly one word (R72). -/
theorem decode_eq_ok_iff_encode : decode w = .ok i ↔ w = encode i :=
  ⟨fun h => (encodeDecodeInverse w i h).symm, fun h => h ▸ decodeEncodeRoundTrip i⟩

/-- A row without operands has no other legal word than that of its command (R68). -/
theorem illegalWord_of_ne_encode (h : opcodeOf (opcField w) = some o) (hA : usesA o = false) (hB : usesB o = false)
    (hi : instrOf 0#16 0#32 o = i) (hne : w ≠ encode i) : illegalWord w := by
  intro j hj
  obtain ⟨o', ho', -, ha, hb, rfl⟩ := decode_eq_ok.mp hj
  obtain rfl : o = o' := by simpa [h] using ho'
  rw [ha hA, hb hB, hi] at hj
  exact hne (decode_eq_ok_iff_encode.mp hj)

end

/-! ### FREQ and the commands on it -/

section
variable {s : State} {a : BitVec 16}

theorem exec_ftSet (ha : a.toNat ≤ 255) (c : Weight) (s : State) :
    exec (.ftSet a c) s = .next (answered 0#64 (invalidateTreeAndCodes (setFreq (a.setWidth 8) c s))) := by
  simp only [exec, execFtSet, symOperand_eq_some.mpr ⟨ha, rfl⟩, complete_answered]

theorem exec_ftGet (ha : a.toNat ≤ 255) (s : State) :
    exec (.ftGet a) s = .next (answered ((freqOf s (a.setWidth 8)).setWidth 64) s) := by
  simp only [exec, execFtGet, symOperand_eq_some.mpr ⟨ha, rfl⟩, complete_answered]

/-- FREQ after FT_SET is FREQ after the one write; the flags and the response do not touch it. -/
theorem freqOf_after_ftSet (s : State) (x y : Symbol) (c : Weight) (d : BitVec 64) :
    freqOf (answered d (invalidateTreeAndCodes (setFreq x c s))) y = if y = x then c else freqOf s y :=
  freqOf_setFreq s x y c

/-- The state after FT_CLEAR, with its response (R75). -/
def ftClearState (s : State) : State :=
  answered 0#64 (invalidateTreeAndCodes { s with freq := Vector.replicate 256 0#32 })

theorem exec_ftClear (s : State) : exec .ftClear s = .next (ftClearState s) := rfl

@[simp] theorem freqOf_ftClearState (s : State) (x : Symbol) : freqOf (ftClearState s) x = 0#32 :=
  Vector.getElem_replicate x.isLt

/-- The alphabet is empty exactly when every count is 0 (R18). -/
theorem alphabet_eq_nil : alphabet s.freq = [] ↔ ∀ x, freqOf s x = 0#32 := by
  rw [← List.map_eq_nil_iff (f := Prod.fst), List.eq_nil_iff_forall_not_mem]
  simp only [mem_alphabet_symbols, not_not]

/-- BUILD checks for an empty alphabet first (R79). -/
theorem exec_build_of_freq_zero (h : ∀ x, freqOf s x = 0#32) :
    exec .build s = .next (failed .emptyAlphabet 4 s) := by
  have hnil : alphabet s.freq = [] := alphabet_eq_nil.mpr h
  simp only [exec, execBuild, hnil, List.length_nil, if_true]
  exact raise_failed .emptyAlphabet s

end

/-- Settles O27: after FT_CLEAR every count is 0, which is all that FT_GET and BUILD then look at. -/
theorem ftClearEmptiesTable : Obligations.FtClearEmptiesTable := by
  refine ⟨fun s => ⟨ftClearState s, exec_ftClear s, freqOf_ftClearState s, rfl, ?_, ?_⟩, fun w hw => ?_⟩
  · rw [exec_ftGet (by decide), freqOf_ftClearState]
    rfl
  · exact exec_build_of_freq_zero (freqOf_ftClearState s)
  · have hrow : opcodeOf (opcField w) = some .ftClear := by rw [hw]; rfl
    have hword : encode .ftClear = 0x1000000000000000#64 := by decide
    rw [← hword]
    exact ⟨decode_eq_ok_iff_encode, illegalWord_of_ne_encode hrow rfl rfl rfl⟩

/-- Settles O28: in range FT_SET is one write of FREQ and the two flags; its row uses both fields, so RSV alone
decides whether a word is legal. -/
theorem ftSetWritesCount : Obligations.FtSetWritesCount := by
  refine ⟨fun s a c ha => ⟨_, exec_ftSet ha c s, fun x => freqOf_after_ftSet s _ x c _, rfl⟩, fun s a c ha => ?_,
    fun w hw => ?_, by decide⟩
  · obtain ⟨-, hsym, -⟩ := outOfRangeOperandRaises s a c
    exact (hsym ha).1
  · have hrow : opcodeOf (opcField w) = some .ftSet := by rw [hw]; rfl
    exact ⟨fun hr => decode_eq_ok.mpr ⟨.ftSet, hrow, hr, nofun, nofun, rfl⟩,
      fun hr => (illegalWord_iff_of_row hrow).mpr (.inl hr)⟩

/-- Settles O29: FT_GET reads FREQ alone, so after the FT_SET of the example it reads the count written. -/
theorem ftGetReadsCount : Obligations.FtGetReadsCount := by
  refine ⟨fun s a ha => ?_, fun s a ha => ?_, fun w hw => ?_, fun s t h => ?_⟩
  · rw [exec_ftGet ha, BitVec.ofNat_toNat]
  · obtain ⟨-, hsym, -⟩ := outOfRangeOperandRaises s a 0#32
    exact (hsym ha).2.1
  · have hrow : opcodeOf (opcField w) = some .ftGet := by rw [hw]; rfl
    refine ⟨fun hr hb => decode_eq_ok.mpr ⟨.ftGet, hrow, hr, nofun, fun _ => hb, rfl⟩, fun h => ?_⟩
    exact (illegalWord_iff_of_row hrow).mpr (h.imp_right fun hb => .inr ⟨hb, rfl⟩)
  · have hdec : decode 0x1200004A00000000#64 = .ok (.ftGet 0x4A#16) := by decide
    obtain rfl := Host.Outcome.next.inj ((exec_ftSet (by decide) _ s).symm.trans h)
    rw [execWord_of_decode hdec, exec_ftGet (by decide), freqOf_after_ftSet, if_pos rfl]
    rfl

end Sys2Proof.Machine
end

section
/-! PROOFS. The tree builder (R78 to R85): the records and registers that a BUILD leaves, and NODE_GET. -/

namespace Sys2Proof.Machine

/-! ### The alphabet in symbol order -/

/-- The alphabet is listed in ascending symbol order (R78). -/
theorem pairwise_alphabet (freq : Vector Weight 256) :
    (alphabet freq).Pairwise fun e e' => e.1.toNat < e'.1.toNat := by
  have hsymbols : symbols.Pairwise fun x y => x.toNat < y.toNat := by
    refine List.pairwise_map.mpr (List.pairwise_lt_range.imp_of_mem fun {i j} hi hj hij => ?_)
    rw [List.mem_range] at hi hj
    simp only [BitVec.toNat_ofNat]
    omega
  have hzip : ((symbols.zip freq.toList).map Prod.fst).Pairwise fun x y => x.toNat < y.toNat := by
    rwa [List.map_fst_zip (by simp [length_symbols])]
  exact (List.pairwise_map.mp hzip).filter _

theorem getElem?_alphabet {s : State} {j : Nat} (hj : j < alphabetSize s) :
    ∃ x, (alphabet s.freq)[j]? = some (x, freqOf s x) ∧ freqOf s x ≠ 0#32 := by
  obtain ⟨⟨x, w⟩, he⟩ : ∃ e, (alphabet s.freq)[j]? = some e := ⟨_, List.getElem?_eq_getElem hj⟩
  obtain ⟨rfl, hne⟩ := mem_alphabet.mp (List.mem_of_getElem? he)
  exact ⟨x, he, hne⟩

/-! ### The records of a current tree -/

/-- At the end the last record made is the node left active: nothing made later could be its parent. -/
theorem MergeInv.root_idx {freq : Vector Weight 256} {nodes : List Node} {k : QueueKey}
    (h : MergeInv freq nodes [k]) : k.idx.val = nodes.length - 1 := by
  have hk : k.idx.val < nodes.length := h.idx_lt (by simp)
  by_contra hne
  obtain ⟨j, n, hj, hchild⟩ := h.exists_parent (i := nodes.length - 1) (by omega) (Ne.symm hne)
  have hjlt := (List.getElem?_eq_some_iff.mp hj).1
  cases n with
  | leaf sym w => simp [childIndices] at hchild
  | internal w l r =>
    obtain ⟨hl, hr, -⟩ := h.merged j w l r hj
    obtain hc | hc := by simpa [childIndices] using hchild
    all_goals omega

section
variable {s : State} {j : NodeIdx}

theorem TreeCurrent.root_eq (h : TreeCurrent s) : s.root.val = 2 * alphabetSize s - 2 := by
  obtain ⟨k, hk, hinv⟩ := h.mergeInv
  have hlast := hinv.root_idx
  rw [hk, h.length_builtNodes, h.nodeCount] at hlast
  omega

/-- The first records are the leaves, in the order of the alphabet (R78). -/
theorem TreeCurrent.leaf_record (h : TreeCurrent s) {e : Symbol × Weight} (he : (alphabet s.freq)[j.val]? = some e) :
    s.node[j] = .leaf e.1 e.2 := by
  obtain ⟨k, -, hinv⟩ := h.mergeInv
  obtain ⟨made, hmade, -⟩ := hinv.shape
  have hleaf : (leafNodes s.freq)[j.val]? = some (.leaf e.1 e.2) := by simp [leafNodes, he]
  have hlt := (List.getElem?_eq_some_iff.mp hleaf).1
  have hnode := h.nodes j (by rw [hmade, List.length_append]; omega)
  rw [hmade, List.getElem?_append_left hlt, hleaf] at hnode
  exact (Option.some.inj hnode).symm

theorem TreeCurrent.leaf_record_mem (h : TreeCurrent s) (hj : j.val < alphabetSize s) :
    s.node[j] = .leaf (nodeSym s.node[j]) (freqOf s (nodeSym s.node[j])) ∧ freqOf s (nodeSym s.node[j]) ≠ 0#32 := by
  obtain ⟨x, hx, hne⟩ := getElem?_alphabet hj
  rw [h.leaf_record hx]
  exact ⟨rfl, hne⟩

/-- The records from K on are internal nodes (R78). -/
theorem TreeCurrent.internal_record (h : TreeCurrent s) (hK : alphabetSize s ≤ j.val)
    (hj : j.val < s.nodeCount.toNat) : ∃ w l r, s.node[j] = .internal w l r := by
  obtain ⟨k, -, hinv⟩ := h.mergeInv
  obtain ⟨made, hmade, hint⟩ := hinv.shape
  have hlen : (leafNodes s.freq).length ≤ j.val := by
    simpa [leafNodes, alphabetSize] using hK
  have hnode := h.getElem_builtNodes hj
  rw [hmade, List.getElem?_append_right hlen] at hnode
  exact hint _ (List.mem_of_getElem? hnode)

/-- ROOT is nobody's child: a parent comes after its children, and ROOT is the last record (R85). -/
theorem TreeCurrent.not_childOf_root (h : TreeCurrent s) (hj : j.val < s.nodeCount.toNat) :
    ¬ childOf s.root s.node[j] := by
  rintro ⟨w, l, r, hn, hc⟩
  obtain ⟨-, hl, hr, -⟩ := h.internal hj hn
  have hroot := h.root_eq
  have hcount := h.nodeCount
  obtain hc | hc := hc
  · rw [← hc] at hl; omega
  · rw [← hc] at hr; omega

end

/-- The paths of R91 from a node to the leaves are the codes of its tree. -/
theorem mem_codes_of_leadsTo {nodes : List Node} {arena : Vector Node 511} (hm : ∀ j, MergedAt nodes j)
    (ha : ∀ i : NodeIdx, i.val < nodes.length → nodes[i.val]? = some arena[i]) {c : Code} {n : NodeIdx}
    {sym : Symbol} (hn : n.val < nodes.length) (h : leadsTo arena n c sym) :
    (sym, c) ∈ (treeAt nodes n.val).codes := by
  have hnode := ha n hn
  induction c generalizing n with
  | nil =>
    obtain ⟨w, hw⟩ := h
    rw [hw] at hnode
    simp [treeAt_leaf hnode, CodeTree.codes]
  | cons b c ih =>
    obtain ⟨w, l, r, hw, hc⟩ := h
    rw [hw] at hnode
    obtain ⟨hl, hr, -⟩ := hm n.val w l r hnode
    rw [treeAt_internal hnode hl hr]
    cases b with
    | false => simpa [CodeTree.codes] using ih (n := l) (by omega) hc (ha l (by omega))
    | true => simpa [CodeTree.codes] using ih (n := r) (by omega) hc (ha r (by omega))

/-- No leaf of a current tree is deeper than K − 1 (R85). -/
theorem TreeCurrent.length_le_of_leadsTo {s : State} (h : TreeCurrent s) {c : Code} {sym : Symbol}
    (hc : leadsTo s.node s.root c sym) : c.length ≤ alphabetSize s - 1 := by
  obtain ⟨k, -, hinv⟩ := h.mergeInv
  have hmem := mem_codes_of_leadsTo hinv.merged h.nodes (h.length_builtNodes ▸ h.root_lt) hc
  have hlt : c.length < (builtTree s).leaves.length := CodeTree.length_lt_of_mem_codes hmem
  rw [h.leaves_perm.length_eq] at hlt
  unfold alphabetSize
  omega

/-! ### BUILD -/

section
variable {s t : State} {d : BitVec 64}

/-- A BUILD over an alphabet that is not empty and whose total fits completes (R78). -/
theorem exec_build (hne : alphabetSize s ≠ 0) (hfits : totalCount s.freq < 2 ^ 32) :
    exec .build s = .next (answered (buildData (buildState s)) (buildState s)) := by
  have hfits' : ¬ 2 ^ 32 - 1 < totalCount s.freq := by omega
  simp only [exec, execBuild, if_neg hfits', complete_answered]
  exact if_neg hne

/-- A BUILD that completes leaves a current tree, and its response. -/
theorem build_completes (h : exec .build s = .next t) (hp : t.port = .respond ⟨.ok, d⟩) :
    TreeCurrent (buildState s) ∧ t = answered d (buildState s) := by
  obtain ⟨u, hC, rfl⟩ := execBuild_endsOk ⟨h, hp⟩
  cases hC with
  | reads hi => simp at hi
  | build hne hfits => exact ⟨treeCurrent_buildState hne hfits, rfl⟩

theorem alphabetSize_ne_zero (h : ∃ sym, freqOf s sym ≠ 0#32) : alphabetSize s ≠ 0 := by
  intro h0
  obtain ⟨sym, hsym⟩ := h
  exact hsym (alphabet_eq_nil.mp (List.length_eq_zero_iff.mp h0) sym)

/-- The records above the ones written stay (R78). -/
theorem getElem_writeNodes_of_le (ns : List Node) (arena : Vector Node 511) (i : NodeIdx) (hi : ns.length ≤ i.val) :
    (writeNodes ns arena)[i] = arena[i] := by
  have hlt := i.isLt
  simp only [writeNodes, Fin.getElem_fin, Vector.getElem_mk, List.getElem_toArray, List.getElem_take,
    List.getElem_append_right hi, List.getElem_drop, Vector.getElem_toList]
  congr 1
  omega

/-- The response data of BUILD as a number (R78). -/
theorem buildData_eq (s : State) :
    buildData s = BitVec.ofNat 64 (2 ^ 48 * s.root.val + 2 ^ 32 * s.leafCount.toNat + s.totalWeight.toNat) := by
  have := s.root.isLt
  have := s.leafCount.isLt
  have := s.totalWeight.isLt
  apply BitVec.eq_of_toNat_eq
  simp only [buildData, idxBits, BitVec.toNat_setWidth, toNat_append_eq_add, BitVec.toNat_ofNat]
  omega

end

/-- Settles O30: both checks stand before any write, that of the empty alphabet first. -/
theorem buildFailures : Obligations.BuildFailures := by
  intro s
  refine ⟨exec_build_of_freq_zero, fun hne hover => ?_⟩
  have hK : ¬ (alphabet s.freq).length = 0 := alphabetSize_ne_zero hne
  simp only [exec, execBuild, if_neg hK, if_pos hover]
  exact raise_failed .weightOverflow s

/-- Settles O31: the tree that BUILD leaves is current, and a current tree has these registers. -/
theorem buildCompletes : Obligations.BuildCompletes := by
  intro s hne htotal
  have hK := alphabetSize_ne_zero hne
  have hmax : alphabetSize s ≤ 256 := length_alphabet_le s.freq
  have hT := treeCurrent_buildState hK (by omega)
  refine ⟨by omega, hmax, _, exec_build hK (by omega), hT.root_eq, hT.leafCount, hT.nodeCount, hT.totalWeight_eq,
    hT.totalWeight, ?_, fun j hj => ?_, rfl⟩
  · have hleaves : (buildState s).leafCount.toNat = alphabetSize s := hT.leafCount
    have hweight : (buildState s).totalWeight.toNat = totalCount s.freq := hT.totalWeight_eq
    rw [← hleaves, ← hweight]
    exact congrArg (fun d => Port.respond ⟨.ok, d⟩) (buildData_eq (buildState s))
  · refine getElem_writeNodes_of_le _ _ j ?_
    have hlen : (builtNodes s.freq).length = (buildState s).nodeCount.toNat := hT.length_builtNodes
    rw [hlen, hT.nodeCount]
    exact hj

/-- Settles O32: the shape of a current tree. -/
theorem builtTreeShape : Obligations.BuiltTreeShape := by
  intro s t d h hp
  obtain ⟨hT, rfl⟩ := build_completes h hp
  have hK : (buildState s).nodeCount.toNat = 2 * alphabetSize s - 1 := hT.nodeCount
  have hroot : (buildState s).root.val = 2 * alphabetSize s - 2 := hT.root_eq
  have hmax : alphabetSize s ≤ 256 := length_alphabet_le s.freq
  rw [← hK]
  refine ⟨fun j hj => hT.leaf_record_mem hj, fun i j hij hj => ?_, fun sym hsym => ?_, fun j hlow hj => ?_,
    fun i hi => hT.unique_parent (by omega) ?_, hroot, fun j hj => hT.not_childOf_root hj,
    fun c sym hc => hT.length_le_of_leadsTo hc, by omega⟩
  · have hord := List.pairwise_iff_getElem.mp (pairwise_alphabet s.freq) i j (hij.trans hj) hj hij
    change (nodeSym (buildState s).node[i]).toNat < (nodeSym (buildState s).node[j]).toNat
    rw [hT.leaf_record (List.getElem?_eq_getElem (hij.trans hj)), hT.leaf_record (List.getElem?_eq_getElem hj)]
    exact hord
  · obtain ⟨e, he, rfl⟩ := List.mem_map.mp (mem_alphabet_symbols.mpr hsym)
    obtain ⟨j, hj⟩ := List.mem_iff_getElem?.mp he
    have hlt : j < alphabetSize s := (List.getElem?_eq_some_iff.mp hj).1
    exact ⟨⟨j, by omega⟩, hlt, congrArg nodeSym (hT.leaf_record (j := ⟨j, by omega⟩) hj)⟩
  · obtain ⟨w, l, r, hn⟩ := hT.internal_record hlow hj
    obtain ⟨hlr, hl, hr, -⟩ := hT.internal hj hn
    exact ⟨w, l, r, hn, hl, hr, hlr⟩
  · rintro rfl
    omega

/-- Settles O35: the alphabet is the symbol with its count, so its leaf is the only record. -/
theorem singleSymbolTree : Obligations.SingleSymbolTree := by
  intro s sym hsym hzero
  have hsyms : (alphabet s.freq).map Prod.fst = [sym] := by
    refine List.perm_singleton.mp ((List.perm_ext_iff_of_nodup (nodup_alphabet_symbols _) (by simp)).mpr fun x => ?_)
    rw [mem_alphabet_symbols, List.mem_singleton]
    refine ⟨fun hx => ?_, fun hx => hx ▸ hsym⟩
    by_contra hne
    exact hx (hzero x hne)
  have halpha : alphabet s.freq = [(sym, freqOf s sym)] := by
    obtain ⟨⟨x, w⟩, hxw, rfl⟩ := List.map_eq_singleton_iff.mp hsyms
    have hmem : (x, w) ∈ alphabet s.freq := by simp [hxw]
    rw [hxw, freqOf, (mem_alphabet.mp hmem).1]
  have hK : alphabetSize s = 1 := by simp [alphabetSize, halpha]
  have htotal : totalCount s.freq < 2 ^ 32 := by
    rw [← sum_alphabet, halpha]
    simpa using (freqOf s sym).isLt
  have hT := treeCurrent_buildState (by omega) htotal
  have hroot : (buildState s).root.val = 2 * alphabetSize s - 2 := hT.root_eq
  refine ⟨_, exec_build (by omega) htotal, Fin.ext (hroot.trans (by rw [hK]; rfl)), ?_, ?_, ?_, rfl⟩
  · have hfirst : (alphabet s.freq)[0]? = some (sym, freqOf s sym) := by rw [halpha]; rfl
    exact hT.leaf_record (j := 0) hfirst
  · exact BitVec.eq_of_toNat_eq (hT.leafCount.trans hK)
  · have hcount : (buildState s).nodeCount.toNat = 2 * alphabetSize s - 1 := hT.nodeCount
    exact BitVec.eq_of_toNat_eq (hcount.trans (by rw [hK]; rfl))

/-! ### NODE_GET -/

/-- The packed record of a leaf as a number (R84). -/
theorem packNode_leaf (sym : Symbol) (w : Weight) :
    packNode (.leaf sym w) = BitVec.ofNat 64 (2 ^ 50 * sym.toNat + w.toNat) := by
  have := sym.isLt
  have := w.isLt
  apply BitVec.eq_of_toNat_eq
  simp only [packNode, nodeKind, nodeSym, nodeRight, nodeLeft, nodeWeight, idxBits, toNat_append_eq_add,
    BitVec.toNat_ofNat, Fin.val_zero]
  omega

/-- The packed record of an internal node as a number (R84). -/
theorem packNode_internal (w : Weight) (l r : NodeIdx) :
    packNode (.internal w l r) = BitVec.ofNat 64 (2 ^ 63 + 2 ^ 41 * r.val + 2 ^ 32 * l.val + w.toNat) := by
  have := w.isLt
  have := l.isLt
  have := r.isLt
  apply BitVec.eq_of_toNat_eq
  simp only [packNode, nodeKind, nodeSym, nodeRight, nodeLeft, nodeWeight, idxBits, toNat_append_eq_add,
    BitVec.toNat_ofNat]
  omega

/-- NODE_GET of a record of a valid tree completes with the packed record (R84). -/
theorem exec_nodeGet {s : State} {a : BitVec 16} {i : NodeIdx} (hi : i.val = a.toNat) (hv : s.treeValid = true)
    (ha : a.toNat < s.nodeCount.toNat) : exec (.nodeGet a) s = .next (answered (packNode s.node[i]) s) := by
  have hlt : ¬ s.nodeCount.toNat ≤ i.val := by omega
  simp only [exec, execNodeGet, idxOperand_eq_some.mpr hi, hv, if_neg hlt, complete_answered]
  rfl

/-- Settles O37: the static range, the tree and NODE_COUNT are checked in this order; the packed record is a number by
its kind, and the row of NODE_GET uses field A alone. -/
theorem nodeGetReadsRecord : Obligations.NodeGetReadsRecord := by
  refine ⟨fun s a => ⟨fun ha => ?_, fun ha hv => ?_, fun ha hv hcount => ?_, fun i hi hv ha => ⟨?_, ?_⟩⟩,
    fun w hw => ?_, by decide, by decide⟩
  · obtain ⟨-, -, hidx, -⟩ := outOfRangeOperandRaises s a 0#32
    exact hidx ha
  · have hidx : idxOperand a = some ⟨a.toNat, by omega⟩ := idxOperand_eq_some.mpr rfl
    simp only [exec, execNodeGet, hidx, hv, if_true]
    exact raise_failed .noTree s
  · have hidx : idxOperand a = some ⟨a.toNat, by omega⟩ := idxOperand_eq_some.mpr rfl
    simp only [exec, execNodeGet, hidx, hv, if_pos hcount]
    exact raise_badOperand s
  · intro sym w hn
    rw [exec_nodeGet hi hv ha, hn, packNode_leaf]
  · intro w l r hn
    rw [exec_nodeGet hi hv ha, hn, packNode_internal]
  · have hrow : opcodeOf (opcField w) = some .nodeGet := by rw [hw]; rfl
    refine ⟨fun hr hb => decode_eq_ok.mpr ⟨.nodeGet, hrow, hr, nofun, fun _ => hb, rfl⟩, fun h => ?_⟩
    exact (illegalWord_iff_of_row hrow).mpr (h.imp_right fun hb => .inr ⟨hb, rfl⟩)

end Sys2Proof.Machine
end

section
/-! PROOFS. Every merge takes the two least active nodes (R78, R80, R81). -/

namespace Sys2Proof.Machine

/-! ### The order of the queue -/

theorem precedes_iff {k k' : QueueKey} :
    precedes k k' = true ↔ k.weight.toNat < k'.weight.toNat ∨
      (k.weight.toNat = k'.weight.toNat ∧ k.idx.val < k'.idx.val) := by
  simp [precedes]

theorem precedes_trans {k k' k'' : QueueKey} (h : precedes k k' = true) (h' : precedes k' k'' = true) :
    precedes k k'' = true := by
  rw [precedes_iff] at *
  omega

/-- Two keys of different nodes are ordered one way or the other. -/
theorem precedes_of_not_precedes {k k' : QueueKey} (hne : k.idx.val ≠ k'.idx.val) (h : ¬ precedes k k' = true) :
    precedes k' k = true := by
  rw [precedes_iff] at *
  omega

/-- `PQMin` takes the first key: it precedes the others (R80). -/
theorem extractMin_precedes {ks rest : List QueueKey} {m : QueueKey} (hnd : (ks.map (·.idx.val)).Nodup)
    (h : extractMin ks = some (m, rest)) : ∀ k ∈ rest, precedes m k = true := by
  induction ks generalizing m rest with
  | nil => simp [extractMin] at h
  | cons k ks ih =>
    obtain ⟨hk, hnd⟩ := List.nodup_cons.mp hnd
    rw [extractMin] at h
    split at h
    · obtain ⟨rfl, rfl⟩ := by simpa using h
      simp
    · next m' rest' hsome =>
      have hperm := extractMin_perm hsome
      have hfirst := ih hnd hsome
      split at h
      · next hkm =>
        obtain ⟨rfl, rfl⟩ := by simpa using h
        intro k' hk'
        obtain rfl | hrest := List.mem_cons.mp (hperm.mem_iff.mp hk')
        · exact hkm
        · exact precedes_trans hkm (hfirst k' hrest)
      · next hkm =>
        obtain ⟨rfl, rfl⟩ := by simpa using h
        have hne : k.idx.val ≠ m'.idx.val := fun he =>
          hk (List.mem_map.mpr ⟨m', hperm.mem_iff.mpr List.mem_cons_self, he.symm⟩)
        exact List.forall_mem_cons.mpr ⟨precedes_of_not_precedes hne hkm, hfirst⟩

/-- `a` and `b` are the two first of the active keys, in this order, and `rest` are the others (R80). -/
structure FirstTwo (active : List QueueKey) (a b : QueueKey) (rest : List QueueKey) : Prop where
  perm : active.Perm (a :: b :: rest)
  first : precedes a b = true
  second : ∀ k ∈ rest, precedes b k = true

theorem firstTwo_of_extractMin {active active1 active2 : List QueueKey} {a b : QueueKey}
    (hnd : (active.map (·.idx.val)).Nodup) (h1 : extractMin active = some (a, active1))
    (h2 : extractMin active1 = some (b, active2)) : FirstTwo active a b active2 := by
  have hp1 := extractMin_perm h1
  have hp2 := extractMin_perm h2
  have hnd1 : (active1.map (·.idx.val)).Nodup := (List.nodup_cons.mp ((hp1.map _).nodup hnd)).2
  exact ⟨hp1.trans (hp2.cons a), extractMin_precedes hnd h1 b (hp2.mem_iff.mpr List.mem_cons_self),
    extractMin_precedes hnd1 h2⟩

/-! ### What every merge keeps holds of the tree built -/

/-- A merge of the two first active nodes of a BUILD over FREQ keeps `P`. -/
def KeptByMerges (freq : Vector Weight 256) (P : List Node → List QueueKey → Prop) : Prop :=
  ∀ {nodes : List Node} {active : List QueueKey} {a b : QueueKey} {rest : List QueueKey},
    MergeInv freq nodes (a :: b :: rest) → FirstTwo active a b rest → P nodes active →
      P (nodes ++ [.internal (a.weight + b.weight) a.idx b.idx]) (mergedKey nodes.length a b :: rest)

section
variable {freq : Vector Weight 256} {nodes : List Node} {active : List QueueKey}

theorem MergeInv.nodup_idx (h : MergeInv freq nodes active) : (active.map (·.idx.val)).Nodup :=
  (List.nodup_append.mp (h.parents.symm.nodup List.nodup_range)).2.1

/-- What every merge keeps, a run of the merger keeps. -/
theorem mergeNodes_induction (hfits : totalCount freq < 2 ^ 32) {P : List Node → List QueueKey → Prop}
    (hP : KeptByMerges freq P) (fuel : Nat) (h : MergeInv freq nodes active) (h0 : P nodes active) :
    P (mergeNodes fuel nodes active).1 (mergeNodes fuel nodes active).2 := by
  induction fuel generalizing nodes active with
  | zero => exact h0
  | succ fuel ih =>
    rw [mergeNodes]
    split
    · exact h0
    · next a active1 h1 =>
      split
      · exact h0
      · next b active2 h2 =>
        have htwo := firstTwo_of_extractMin h.nodup_idx h1 h2
        have hinv := h.perm htwo.perm
        exact ih (hinv.merge hfits) (hP hinv htwo h0)

/-- What holds of the leaves and is kept by every merge holds of the tree built, with one active node left. -/
theorem built_induction (hne : (alphabet freq).length ≠ 0) (hfits : totalCount freq < 2 ^ 32)
    {P : List Node → List QueueKey → Prop} (hP : KeptByMerges freq P)
    (h0 : P (leafNodes freq) (queueFrom 0 (leafNodes freq))) :
    ∃ k : QueueKey, k.idx = builtRoot freq ∧ P (builtNodes freq) [k] := by
  have hinv := mergeInv_leafNodes freq
  have hsize := hinv.size
  have hK := length_alphabet_le freq
  have hlen : (leafNodes freq).length = (alphabet freq).length := by simp [leafNodes]
  have hone : (mergeAll freq).2.length = 1 :=
    length_mergeNodes (fuel := 255) (List.ne_nil_of_length_pos (by omega)) (by omega)
  obtain ⟨k, hk⟩ := List.length_eq_one_iff.mp hone
  have hbuilt : P (mergeAll freq).1 (mergeAll freq).2 := mergeNodes_induction hfits hP 255 hinv h0
  exact ⟨k, by rw [builtRoot, hk], hk ▸ hbuilt⟩

/-! ### The children of a record are the two least nodes at its merge -/

/-- The key of NODE[i] (R80). -/
def keyAt (nodes : List Node) (i : NodeIdx) : QueueKey := ⟨nodeWeight (nodes.getD i.val (.leaf 0#8 0#32)), i⟩

theorem keyAt_of_getElem? {i : NodeIdx} {n : Node} (h : nodes[i.val]? = some n) :
    keyAt nodes i = ⟨nodeWeight n, i⟩ := by
  simp [keyAt, h]

theorem keyAt_concat_of_lt {i : NodeIdx} (hi : i.val < nodes.length) (n : Node) :
    keyAt (nodes ++ [n]) i = keyAt nodes i := by
  simp [keyAt, List.getElem?_append_left, hi]

theorem MergeInv.keyAt_idx (h : MergeInv freq nodes active) {k : QueueKey} (hk : k ∈ active) :
    keyAt nodes k.idx = k := by
  obtain ⟨n, hn, hw⟩ := h.keys k hk
  rw [keyAt_of_getElem? hn, hw]

/-- LEFT of an internal record at index `j` precedes RIGHT, and RIGHT every other record before `j` that is not the
child of a record before `j` (R80, R81). -/
def LeastAt (nodes : List Node) (j : Nat) : Prop :=
  ∀ w l r, nodes[j]? = some (.internal w l r) →
    precedes (keyAt nodes l) (keyAt nodes r) = true ∧
    ∀ i : NodeIdx, i.val < j → i ≠ l → i ≠ r → i.val ∉ (nodes.take j).flatMap childIndices →
      precedes (keyAt nodes r) (keyAt nodes i) = true

/-- A merge leaves the records before it as they are. -/
theorem LeastAt.concat {j : Nat} (h : LeastAt nodes j) (hm : MergedAt nodes j) (n : Node) (hj : j < nodes.length) :
    LeastAt (nodes ++ [n]) j := by
  intro w l r hn
  rw [List.getElem?_append_left hj] at hn
  obtain ⟨hl, hr, -⟩ := hm w l r hn
  obtain ⟨hfirst, hsecond⟩ := h w l r hn
  rw [keyAt_concat_of_lt (hl.trans hj), keyAt_concat_of_lt (hr.trans hj), List.take_append_of_le_length hj.le]
  refine ⟨hfirst, fun i hi hil hir hchild => ?_⟩
  rw [keyAt_concat_of_lt (hi.trans hj)]
  exact hsecond i hi hil hir hchild

/-- The new record of a merge: a node that is no child yet is active (R80). -/
theorem MergeInv.leastAt_length {a b : QueueKey} {rest : List QueueKey} (h : MergeInv freq nodes (a :: b :: rest))
    (htwo : FirstTwo active a b rest) (w : Weight) :
    LeastAt (nodes ++ [.internal w a.idx b.idx]) nodes.length := by
  have ha := h.idx_lt (k := a) (by simp)
  have hb := h.idx_lt (k := b) (by simp)
  intro w' l r hn
  rw [List.getElem?_concat_length] at hn
  obtain ⟨-, rfl, rfl⟩ := by simpa using hn
  rw [List.take_left, keyAt_concat_of_lt ha, keyAt_concat_of_lt hb, h.keyAt_idx (by simp), h.keyAt_idx (by simp)]
  refine ⟨htwo.first, fun i hi hia hib hchild => ?_⟩
  have hactive := List.mem_append.mp (h.parents.mem_iff.mpr (List.mem_range.mpr hi))
  obtain ⟨k, hk, hki⟩ := List.mem_map.mp (hactive.resolve_left hchild)
  obtain rfl : k.idx = i := Fin.ext hki
  obtain rfl | rfl | hrest := by simpa using hk
  · exact absurd rfl hia
  · exact absurd rfl hib
  · rw [keyAt_concat_of_lt hi, h.keyAt_idx hk]
    exact htwo.second k hrest

/-- One merge keeps it that every record has the two least active nodes as its children. -/
theorem MergeInv.leastAt_merge {a b : QueueKey} {rest : List QueueKey} (h : MergeInv freq nodes (a :: b :: rest))
    (htwo : FirstTwo active a b rest) (hleast : ∀ j, LeastAt nodes j) (w : Weight) (j : Nat) :
    LeastAt (nodes ++ [.internal w a.idx b.idx]) j := by
  obtain hj | rfl | hj := Nat.lt_trichotomy j nodes.length
  · exact (hleast j).concat (h.merged j) _ hj
  · exact h.leastAt_length htwo w
  · intro w' l r hn
    rw [List.getElem?_eq_none (by simp; omega)] at hn
    cases hn

theorem leastAt_leafNodes (freq : Vector Weight 256) (j : Nat) : LeastAt (leafNodes freq) j := by
  intro w l r hn
  obtain ⟨e, -, he⟩ := List.mem_map.mp (List.mem_of_getElem? hn)
  cases he

theorem leastAt_builtNodes (hne : (alphabet freq).length ≠ 0) (hfits : totalCount freq < 2 ^ 32) (j : Nat) :
    LeastAt (builtNodes freq) j := by
  obtain ⟨k, -, h⟩ := built_induction (P := fun nodes _ => ∀ j, LeastAt nodes j) hne hfits
    (fun hinv htwo hleast => hinv.leastAt_merge htwo hleast _) (leastAt_leafNodes freq)
  exact h j

end

/-- The key of a record of a current tree. -/
theorem TreeCurrent.keyAt_builtNodes {s : State} (h : TreeCurrent s) {i : NodeIdx} (hi : i.val < s.nodeCount.toNat) :
    keyAt (builtNodes s.freq) i = ⟨nodeWeight s.node[i], i⟩ :=
  keyAt_of_getElem? (h.getElem_builtNodes hi)

/-- A node of a current tree without a parent before `j` is no child of the first `j` records. -/
theorem TreeCurrent.notMem_children {s : State} (h : TreeCurrent s) {i j : NodeIdx} (hj : j.val < s.nodeCount.toNat)
    (hchild : ∀ j' : NodeIdx, j'.val < j.val → ¬ childOf i s.node[j']) :
    i.val ∉ ((builtNodes s.freq).take j.val).flatMap childIndices := by
  intro hmem
  obtain ⟨n, hn, hin⟩ := List.mem_flatMap.mp hmem
  obtain ⟨j', hj', rfl⟩ := List.mem_take_iff_getElem.mp hn
  obtain ⟨hlt, hlen⟩ := lt_min_iff.mp hj'
  have hnode := h.getElem_builtNodes (i := ⟨j', by omega⟩) (hlt.trans hj)
  rw [List.getElem?_eq_getElem hlen] at hnode
  exact hchild _ hlt (childOf_iff.mpr (Option.some.inj hnode ▸ hin))

/-- Settles O34: every merge took the two first active nodes, and a record that is no child yet was active. -/
theorem mergesTakeTheTwoLeast : Obligations.MergesTakeTheTwoLeast := by
  intro s t d h hp j w l r _ hj hn
  obtain ⟨hT, rfl⟩ := build_completes h hp
  have hjlt : j.val < (buildState s).nodeCount.toNat := hT.nodeCount ▸ hj
  obtain ⟨-, hl, hr, -⟩ := hT.internal hjlt hn
  have hnode : (builtNodes s.freq)[j.val]? = some (.internal w l r) :=
    (hT.getElem_builtNodes hjlt).trans (congrArg some hn)
  obtain ⟨hfirst, hsecond⟩ := leastAt_builtNodes hT.nonempty hT.fits j.val w l r hnode
  rw [hT.keyAt_builtNodes (by omega)] at hfirst hsecond
  rw [hT.keyAt_builtNodes (by omega), precedes_iff] at hfirst
  refine ⟨hfirst, fun i hi hil hir hchild => ?_⟩
  have hleast := hsecond i hi hil hir (hT.notMem_children hjlt hchild)
  rwa [hT.keyAt_builtNodes (by omega), precedes_iff] at hleast

end Sys2Proof.Machine
end

section
/-! PROOFS. Among all full binary trees over given weights, one that joins the two least weights is not worse than
the others: two leaves at the greatest depth that are children of one node can be exchanged with them (R83). -/

namespace Sys2Proof.Machine

/-! ### The leaves of a tree with their depths -/

/-- The leaves, left to right, each as its weight and its depth, for a tree whose root is at depth `d`. -/
def leavesAt : Nat → WeightTree → List (Nat × Nat)
  | d, .leaf w => [(w, d)]
  | d, .node l r => leavesAt (d + 1) l ++ leavesAt (d + 1) r

/-- Σ weight × depth. -/
def weightedSum (es : List (Nat × Nat)) : Nat := (es.map fun e => e.1 * e.2).sum

@[simp] theorem weightedSum_nil : weightedSum [] = 0 := rfl

@[simp] theorem weightedSum_cons (e : Nat × Nat) (es : List (Nat × Nat)) :
    weightedSum (e :: es) = e.1 * e.2 + weightedSum es := by
  simp [weightedSum]

@[simp] theorem weightedSum_append (es es' : List (Nat × Nat)) :
    weightedSum (es ++ es') = weightedSum es + weightedSum es' := by
  simp [weightedSum]

theorem map_fst_leavesAt (d : Nat) (T : WeightTree) : (leavesAt d T).map Prod.fst = leafWeights T := by
  induction T generalizing d with
  | leaf w => rfl
  | node l r ihl ihr => simp [leavesAt, leafWeights, ihl, ihr]

theorem weightedSum_leavesAt (d : Nat) (T : WeightTree) : weightedSum (leavesAt d T) = pathLengthAt d T := by
  induction T generalizing d with
  | leaf w => simp [leavesAt, pathLengthAt]
  | node l r ihl ihr => simp [leavesAt, pathLengthAt, ihl, ihr]

theorem le_depth_of_mem_leavesAt {d : Nat} {T : WeightTree} {e : Nat × Nat} (h : e ∈ leavesAt d T) : d ≤ e.2 := by
  induction T generalizing d with
  | leaf w => simp [leavesAt] at h; simp [h]
  | node l r ihl ihr =>
    obtain h | h := List.mem_append.mp h
    · have := ihl h; omega
    · have := ihr h; omega

/-- A tree of the same shape takes any weights. -/
theorem exists_leavesAt_eq {d : Nat} {T : WeightTree} {es : List (Nat × Nat)}
    (h : es.map Prod.snd = (leavesAt d T).map Prod.snd) : ∃ T', leavesAt d T' = es := by
  induction T generalizing d es with
  | leaf w =>
    obtain ⟨⟨x, k⟩, rfl, rfl⟩ := List.map_eq_singleton_iff.mp h
    exact ⟨.leaf x, rfl⟩
  | node l r ihl ihr =>
    rw [leavesAt, List.map_append] at h
    obtain ⟨es1, es2, rfl, h1, h2⟩ := List.map_eq_append_iff.mp h
    obtain ⟨l', rfl⟩ := ihl h1
    obtain ⟨r', rfl⟩ := ihr h2
    exact ⟨.node l' r', rfl⟩

/-! ### Two leaves at the greatest depth -/

/-- Two leaves that stand side by side at depth `h + 1`, the greatest, with the tree that has one leaf of their
weight in their parent's place. -/
def DeepestPair (d : Nat) (T : WeightTree) (h : Nat) : Prop :=
  ∃ p q x y T', leavesAt d T = p ++ (x, h + 1) :: (y, h + 1) :: q ∧ leavesAt d T' = p ++ (x + y, h) :: q ∧
    ∀ e ∈ leavesAt d T, e.2 ≤ h + 1

section
variable {d h : Nat} {l r T : WeightTree}

theorem DeepestPair.left (hl : DeepestPair (d + 1) l h) (hr : ∀ e ∈ leavesAt (d + 1) r, e.2 ≤ h + 1) :
    DeepestPair d (.node l r) h := by
  obtain ⟨p, q, x, y, l', hT, hT', hmax⟩ := hl
  refine ⟨p, q ++ leavesAt (d + 1) r, x, y, .node l' r, ?_, ?_, List.forall_mem_append.mpr ⟨hmax, hr⟩⟩
  · simp [leavesAt, hT]
  · simp [leavesAt, hT']

theorem DeepestPair.right (hr : DeepestPair (d + 1) r h) (hl : ∀ e ∈ leavesAt (d + 1) l, e.2 ≤ h + 1) :
    DeepestPair d (.node l r) h := by
  obtain ⟨p, q, x, y, r', hT, hT', hmax⟩ := hr
  refine ⟨leavesAt (d + 1) l ++ p, q, x, y, .node l r', ?_, ?_, List.forall_mem_append.mpr ⟨hl, hmax⟩⟩
  · simp [leavesAt, hT]
  · simp [leavesAt, hT']

/-- The greatest depth lies below the root. -/
theorem DeepestPair.le_depth (hT : DeepestPair d T h) : d ≤ h + 1 := by
  obtain ⟨p, q, x, y, T', hT, -, -⟩ := hT
  exact le_depth_of_mem_leavesAt (T := T) (e := (x, h + 1)) (by simp [hT])

/-- No leaf is deeper than the pair. -/
theorem DeepestPair.depth_le (hT : DeepestPair d T h) {h' : Nat} (hh : h ≤ h') :
    ∀ e ∈ leavesAt d T, e.2 ≤ h' + 1 := by
  obtain ⟨p, q, x, y, T', -, -, hmax⟩ := hT
  exact fun e he => (hmax e he).trans (by omega)

end

/-- A tree with more than one leaf has two leaves at the greatest depth that are children of one node. -/
theorem exists_deepestPair (d : Nat) (T : WeightTree) : (∃ w, T = .leaf w) ∨ ∃ h, DeepestPair d T h := by
  induction T generalizing d with
  | leaf w => exact .inl ⟨w, rfl⟩
  | node l r ihl ihr =>
    right
    obtain ⟨x, rfl⟩ | ⟨hl, pl⟩ := ihl (d + 1) <;> obtain ⟨y, rfl⟩ | ⟨hr, pr⟩ := ihr (d + 1)
    · exact ⟨d, [], [], x, y, .leaf (x + y), rfl, rfl, by simp [leavesAt]⟩
    · exact ⟨hr, pr.right (by simpa [leavesAt] using pr.le_depth)⟩
    · exact ⟨hl, pl.left (by simpa [leavesAt] using pl.le_depth)⟩
    · obtain hh | hh := Nat.le_total hl hr
      · exact ⟨hr, pr.right (pl.depth_le hh)⟩
      · exact ⟨hl, pl.left (pr.depth_le hh)⟩

/-! ### The exchange -/

section
variable {es : List (Nat × Nat)} {a b x y h : Nat} {rest : List Nat}

/-- The least weight `a` takes the place of `x` at the greatest depth `h`, and `x` takes the place of `a`. -/
theorem exists_exchange (hperm : (x :: es.map Prod.fst).Perm (a :: rest)) (hdepth : ∀ e ∈ es, e.2 ≤ h)
    (hleast : ∀ z ∈ rest, a ≤ z) :
    ∃ es', es'.map Prod.snd = es.map Prod.snd ∧ (es'.map Prod.fst).Perm rest ∧
      weightedSum es' + a * h ≤ weightedSum es + x * h := by
  obtain rfl | ha := List.mem_cons.mp (hperm.mem_iff.mpr List.mem_cons_self)
  · exact ⟨es, rfl, hperm.cons_inv, le_rfl⟩
  · obtain ⟨⟨a, k⟩, hk, rfl⟩ := List.mem_map.mp ha
    obtain ⟨p, q, rfl⟩ := List.append_of_mem hk
    have hax : a ≤ x := by
      obtain rfl | hx := List.mem_cons.mp (hperm.mem_iff.mp List.mem_cons_self)
      · exact le_rfl
      · exact hleast x hx
    refine ⟨p ++ (x, k) :: q, by simp, ?_, ?_⟩
    · have hswap : (a :: (p ++ (x, k) :: q).map Prod.fst).Perm (x :: (p ++ (a, k) :: q).map Prod.fst) := by
        simp only [List.map_append, List.map_cons]
        exact (List.perm_middle.cons a).trans ((List.Perm.swap x a _).trans (List.perm_middle.symm.cons x))
      exact (hswap.trans hperm).cons_inv
    · have hmul : a * h + x * k ≤ a * k + x * h := mul_add_mul_le_mul_add_mul hax (hdepth _ hk)
      simp only [weightedSum_append, weightedSum_cons]
      omega

/-- The two least weights take the places of `x` and `y` at the greatest depth `h`. -/
theorem exists_exchange_two (hperm : (x :: y :: es.map Prod.fst).Perm (a :: b :: rest))
    (hdepth : ∀ e ∈ es, e.2 ≤ h) (hab : a ≤ b) (hb : ∀ z ∈ rest, b ≤ z) :
    ∃ es', es'.map Prod.snd = es.map Prod.snd ∧ (es'.map Prod.fst).Perm rest ∧
      weightedSum es' + (a + b) * h ≤ weightedSum es + (x + y) * h := by
  have ha : ∀ z ∈ b :: rest, a ≤ z := List.forall_mem_cons.mpr ⟨hab, fun z hz => hab.trans (hb z hz)⟩
  obtain ⟨es1, hsnd1, hfst1, hsum1⟩ := exists_exchange (es := (y, h) :: es) hperm
    (List.forall_mem_cons.mpr ⟨le_rfl, hdepth⟩) ha
  obtain ⟨⟨y', k⟩, es1, rfl, rfl, hsnd⟩ := List.map_eq_cons_iff.mp hsnd1
  have hdepth1 : ∀ e ∈ es1, e.2 ≤ k := by
    rw [← List.forall_mem_map (f := Prod.snd) (P := (· ≤ k)), hsnd, List.forall_mem_map]
    exact hdepth
  obtain ⟨es2, hsnd2, hfst2, hsum2⟩ := exists_exchange hfst1 hdepth1 hb
  refine ⟨es2, hsnd2.trans hsnd, hfst2, ?_⟩
  simp only [weightedSum_cons] at hsum1
  linarith

end

/-- For every tree whose two least weights are `a` and `b` there is a tree over the weights with `a + b` in their
place that is shorter by `a + b` at least. -/
theorem exists_joined_tree {T : WeightTree} {a b : Nat} {rest : List Nat}
    (hperm : (leafWeights T).Perm (a :: b :: rest)) (hab : a ≤ b) (hb : ∀ z ∈ rest, b ≤ z) :
    ∃ T', (leafWeights T').Perm ((a + b) :: rest) ∧ pathLengthAt 0 T' + (a + b) ≤ pathLengthAt 0 T := by
  obtain ⟨w, rfl⟩ | ⟨h, p, q, x, y, J, hT, hJ, hmax⟩ := exists_deepestPair 0 T
  · have := hperm.length_eq
    simp [leafWeights] at this
  rw [← map_fst_leavesAt 0 T, hT] at hperm
  rw [hT] at hmax
  have hfront : (x :: y :: (p ++ q).map Prod.fst).Perm (a :: b :: rest) := by
    refine .trans ?_ hperm
    simp only [List.map_append, List.map_cons]
    exact (List.perm_middle.symm.cons x).trans List.perm_middle.symm
  obtain ⟨es, hsnd, hfst, hsum⟩ := exists_exchange_two hfront
    (fun e he => hmax e (by simp only [List.mem_append, List.mem_cons] at he ⊢; tauto)) hab hb
  obtain ⟨p', q', rfl, hp', hq'⟩ := List.map_eq_append_iff.mp (hsnd.trans List.map_append)
  obtain ⟨T', hT'⟩ := exists_leavesAt_eq (d := 0) (T := J) (es := p' ++ (a + b, h) :: q') (by simp [hJ, hp', hq'])
  refine ⟨T', ?_, ?_⟩
  · rw [← map_fst_leavesAt 0 T', hT']
    refine .trans ?_ (hfst.cons (a + b))
    simp only [List.map_append, List.map_cons]
    exact List.perm_middle
  · rw [← weightedSum_leavesAt, ← weightedSum_leavesAt, hT, hT']
    simp only [weightedSum_append, weightedSum_cons] at hsum ⊢
    linarith

end Sys2Proof.Machine
end

section
/-! PROOFS. The tree that BUILD makes has the least weighted path length (R83). -/

namespace Sys2Proof.Machine

/-! ### The weighted path length of a tree of the arena -/

/-- The tree of the counts. -/
def CodeTree.weights : CodeTree → WeightTree
  | .leaf _ w => .leaf w.toNat
  | .node l r => .node l.weights r.weights

/-- Σ count × code length is the weighted path length. -/
theorem CodeTree.sum_codes {T : CodeTree} {f : Symbol → Nat} (hf : ∀ e ∈ T.leaves, f e.1 = e.2.toNat) (d : Nat) :
    (T.codes.map fun e => f e.1 * (d + e.2.length)).sum = pathLengthAt d T.weights := by
  induction T generalizing d with
  | leaf sym w => simpa [codes, weights, pathLengthAt] using .inl (hf (sym, w) (by simp [leaves]))
  | node l r ihl ihr =>
    obtain ⟨hl, hr⟩ := List.forall_mem_append.mp hf
    simp only [codes, weights, pathLengthAt, ← ihl hl, ← ihr hr]
    simp [Function.comp_def, Nat.add_comm, Nat.add_left_comm]

/-- One level deeper every weight counts once more. -/
theorem pathLengthAt_succ (d : Nat) (T : WeightTree) :
    pathLengthAt (d + 1) T = pathLengthAt d T + (leafWeights T).sum := by
  induction T generalizing d with
  | leaf w => simp [pathLengthAt, leafWeights, Nat.mul_succ]
  | node l r ihl ihr =>
    simp only [pathLengthAt, leafWeights, List.sum_append, ihl (d + 1), ihr (d + 1)]
    omega

section
variable {freq : Vector Weight 256} {nodes : List Node} {active : List QueueKey} {a b : QueueKey}

/-- The weight of a record is the sum of the counts below it (R40). -/
theorem sum_leafWeights_treeAt (hm : ∀ j, MergedAt nodes j) {i : Nat} {n : Node} (hn : nodes[i]? = some n) :
    (leafWeights (treeAt nodes i).weights).sum = (nodeWeight n).toNat := by
  induction i using Nat.strong_induction_on generalizing n with
  | _ i ih =>
    cases n with
    | leaf sym w => simp [treeAt_leaf hn, CodeTree.weights, leafWeights, nodeWeight]
    | internal w l r =>
      obtain ⟨hl, hr, x, y, hx, hy, hw⟩ := hm i w l r hn
      simp [treeAt_internal hn hl hr, CodeTree.weights, leafWeights, nodeWeight, ih l.val hl hx, ih r.val hr hy, hw]

/-- The weighted path length of the tree of NODE[i]. -/
def costAt (nodes : List Node) (i : Nat) : Nat := pathLengthAt 0 (treeAt nodes i).weights

theorem costAt_concat_of_lt {i : Nat} (hi : i < nodes.length) (n : Node) :
    costAt (nodes ++ [n]) i = costAt nodes i := by
  rw [costAt, treeAt_concat_of_lt hi, costAt]

/-- A merge costs the weights of the two nodes. -/
theorem MergeInv.costAt_length {rest : List QueueKey} (h : MergeInv freq nodes (a :: b :: rest)) (w : Weight) :
    costAt (nodes ++ [.internal w a.idx b.idx]) nodes.length
      = costAt nodes a.idx.val + costAt nodes b.idx.val + (a.weight.toNat + b.weight.toNat) := by
  obtain ⟨x, hx, hxw⟩ := h.keys a (by simp)
  obtain ⟨y, hy, hyw⟩ := h.keys b (by simp)
  have ha := sum_leafWeights_treeAt h.merged hx
  have hb := sum_leafWeights_treeAt h.merged hy
  rw [hxw] at ha
  rw [hyw] at hb
  have htree : treeAt (nodes ++ [.internal w a.idx b.idx]) nodes.length
      = .node (treeAt nodes a.idx.val) (treeAt nodes b.idx.val) := treeAt_concat_length _ _
  simp only [costAt, htree, CodeTree.weights, pathLengthAt, pathLengthAt_succ, ha, hb]
  omega

/-- The weights of active nodes add up without overflow, since the total fits. -/
theorem MergeInv.toNat_add_weight {rest : List QueueKey} (h : MergeInv freq nodes (a :: b :: rest))
    (hfits : totalCount freq < 2 ^ 32) : (a.weight + b.weight).toNat = a.weight.toNat + b.weight.toNat := by
  have hsum := h.total
  simp only [List.map_cons, List.sum_cons] at hsum
  rw [BitVec.toNat_add, Nat.mod_eq_of_lt (by omega)]

/-! ### What the merges have made and what is left to join is optimal -/

/-- Every tree over the counts is no shorter than some tree over the active weights, together with what the trees of
the active nodes cost. -/
def OptimalSoFar (freq : Vector Weight 256) (nodes : List Node) (active : List QueueKey) : Prop :=
  ∀ T : WeightTree, (leafWeights T).Perm ((alphabet freq).map fun e => e.2.toNat) →
    ∃ T' : WeightTree, (leafWeights T').Perm (active.map (·.weight.toNat)) ∧
      (active.map fun k => costAt nodes k.idx.val).sum + pathLengthAt 0 T' ≤ pathLengthAt 0 T

theorem optimalSoFar_leafNodes (freq : Vector Weight 256) :
    OptimalSoFar freq (leafNodes freq) (queueFrom 0 (leafNodes freq)) := by
  intro T hT
  have hcost : ∀ k ∈ queueFrom 0 (leafNodes freq), costAt (leafNodes freq) k.idx.val = 0 := by
    intro k hk
    obtain ⟨n, hn, -⟩ := (mergeInv_leafNodes freq).keys k hk
    obtain ⟨e, -, rfl⟩ := List.mem_map.mp (List.mem_of_getElem? hn)
    simp [costAt, treeAt_leaf hn, CodeTree.weights, pathLengthAt]
  have hweights : (queueFrom 0 (leafNodes freq)).map (·.weight.toNat) = (alphabet freq).map fun e => e.2.toNat := by
    have := congrArg (List.map BitVec.toNat) (map_weight_queueFrom 0 (leafNodes freq))
    simpa [leafNodes, nodeWeight, Function.comp_def] using this
  refine ⟨T, hweights ▸ hT, ?_⟩
  simp [List.map_congr_left hcost]

/-- A merge of the two first active nodes keeps optimality: it joins the two least weights. -/
theorem OptimalSoFar.merge {rest : List QueueKey} (h : OptimalSoFar freq nodes active)
    (hinv : MergeInv freq nodes (a :: b :: rest)) (htwo : FirstTwo active a b rest) (hfits : totalCount freq < 2 ^ 32) :
    OptimalSoFar freq (nodes ++ [.internal (a.weight + b.weight) a.idx b.idx])
      (mergedKey nodes.length a b :: rest) := by
  intro T hT
  obtain ⟨T1, hT1, hle1⟩ := h T hT
  have hle {k k' : QueueKey} (hk : precedes k k' = true) : k.weight.toNat ≤ k'.weight.toNat := by
    rw [precedes_iff] at hk
    omega
  have hperm1 : (leafWeights T1).Perm (a.weight.toNat :: b.weight.toNat :: rest.map (·.weight.toNat)) :=
    hT1.trans (htwo.perm.map _)
  obtain ⟨T2, hT2, hle2⟩ := exists_joined_tree hperm1 (hle htwo.first)
    (List.forall_mem_map.mpr fun k hk => hle (htwo.second k hk))
  have hnext : (mergedKey nodes.length a b).idx.val = nodes.length := by
    have hsize := hinv.size
    have hK := length_alphabet_le freq
    simp only [List.length_cons] at hsize
    exact Nat.mod_eq_of_lt (by omega)
  refine ⟨T2, ?_, ?_⟩
  · simpa only [List.map_cons, mergedKey, hinv.toNat_add_weight hfits] using hT2
  · have hrest : ∀ k ∈ rest, costAt (nodes ++ [.internal (a.weight + b.weight) a.idx b.idx]) k.idx.val
        = costAt nodes k.idx.val := fun k hk => costAt_concat_of_lt (hinv.idx_lt (by simp [hk])) _
    rw [(htwo.perm.map fun k => costAt nodes k.idx.val).sum_eq] at hle1
    simp only [List.map_cons, List.sum_cons, hnext, hinv.costAt_length, List.map_congr_left hrest] at hle1 ⊢
    omega

end

/-! ### BUILD -/

section
variable {s : State}

/-- The leaves below ROOT with their edge sequences (R91). -/
theorem TreeCurrent.visit_root (h : TreeCurrent s) :
    visit s.node Config.nNodes s.root [] = some (builtTree s).codes := by
  obtain ⟨k, -, hinv⟩ := h.mergeInv
  rw [visit_eq_codes (depth := Config.nNodes) hinv.merged h.nodes s.root.isLt (h.length_builtNodes ▸ h.root_lt)]
  simp [builtTree]

/-- The weighted path length of a current tree. -/
theorem TreeCurrent.pathLength_codes (h : TreeCurrent s) :
    pathLength s (builtTree s).codes = pathLengthAt 0 (builtTree s).weights := by
  have hf : ∀ e ∈ (builtTree s).leaves, (freqOf s e.1).toNat = e.2.toNat := fun e he =>
    congrArg BitVec.toNat (mem_alphabet.mp (h.leaves_perm.mem_iff.mp he)).1
  simpa [pathLength] using CodeTree.sum_codes (f := fun x => (freqOf s x).toNat) hf 0

/-- No full binary tree over the counts is shorter than a current tree (R83). -/
theorem TreeCurrent.pathLengthAt_weights_le (h : TreeCurrent s) {T : WeightTree}
    (hT : (leafWeights T).Perm ((alphabet s.freq).map fun e => e.2.toNat)) :
    pathLengthAt 0 (builtTree s).weights ≤ pathLengthAt 0 T := by
  obtain ⟨k, hk, hopt⟩ := built_induction h.nonempty h.fits
    (fun hinv htwo hopt => OptimalSoFar.merge hopt hinv htwo h.fits) (optimalSoFar_leafNodes s.freq)
  obtain ⟨T', -, hle⟩ := hopt T hT
  simp only [List.map_cons, List.map_nil, List.sum_cons, List.sum_nil, hk, ← h.root, costAt] at hle
  unfold builtTree
  omega

end

/-- Settles O36: the merges keep the trees made so far optimal, and at the end one tree is left. -/
theorem buildIsOptimal : Obligations.BuildIsOptimal := by
  intro s t d h hp
  obtain ⟨hT, rfl⟩ := build_completes h hp
  exact ⟨_, hT.visit_root, fun T hperm => hT.pathLength_codes.trans_le (hT.pathLengthAt_weights_le hperm)⟩

end Sys2Proof.Machine
end

section
/-! PROOFS. GEN_CODES, CODE_LEN and CODE_GET (R89 to R95): the entries of the tables that GEN_CODES writes, the longest
length, and the paths of a current tree as the codes it gives. -/

namespace Sys2Proof.Machine

/-! ### The longest length -/

/-- The longer of two lengths, as `maxLen` keeps it. -/
def longer (m l : BitVec 8) : BitVec 8 := if m.toNat < l.toNat then l else m

theorem maxLen_eq_foldl (t : Vector (BitVec 8) 256) : maxLen t = t.toList.foldl longer 0#8 := rfl

theorem toNat_longer (m l : BitVec 8) : (longer m l).toNat = max m.toNat l.toNat := by
  unfold longer
  split <;> omega

theorem longer_eq_or (m l : BitVec 8) : longer m l = m ∨ longer m l = l := by
  unfold longer
  split <;> simp

theorem toNat_le_foldl_longer {ls : List (BitVec 8)} {m l : BitVec 8} (hl : l ∈ m :: ls) :
    l.toNat ≤ (ls.foldl longer m).toNat := by
  induction ls generalizing m l with
  | nil => rw [List.mem_singleton.mp hl, List.foldl_nil]
  | cons a ls ih =>
    have hhead : (longer m a).toNat ≤ (ls.foldl longer (longer m a)).toNat := ih (List.mem_cons_self ..)
    have hmax := toNat_longer m a
    rw [List.foldl_cons]
    obtain rfl | hl := List.mem_cons.mp hl
    · omega
    · obtain rfl | hl := List.mem_cons.mp hl
      · omega
      · exact ih (List.mem_cons_of_mem _ hl)

theorem foldl_longer_mem (ls : List (BitVec 8)) (m : BitVec 8) : ls.foldl longer m ∈ m :: ls := by
  induction ls generalizing m with
  | nil => exact List.mem_singleton_self m
  | cons a ls ih =>
    rw [List.foldl_cons]
    obtain heq | hmem := List.mem_cons.mp (ih (longer m a))
    · rw [heq]
      obtain h | h := longer_eq_or m a <;> simp [h]
    · simp [hmem]

/-- No entry of a table is longer than its longest. -/
theorem toNat_getElem_le_maxLen (t : Vector (BitVec 8) 256) (x : Symbol) :
    t[x.toNat].toNat ≤ (maxLen t).toNat :=
  toNat_le_foldl_longer (List.mem_cons_of_mem _ (by simp))

/-- The longest length of a table is the length of one of its symbols. -/
theorem exists_getElem_eq_maxLen (t : Vector (BitVec 8) 256) : ∃ x : Symbol, t[x.toNat] = maxLen t := by
  obtain hzero | hmem := List.mem_cons.mp (foldl_longer_mem t.toList 0#8)
  · have hle := toNat_getElem_le_maxLen t 0#8
    rw [← maxLen_eq_foldl] at hzero
    refine ⟨0#8, BitVec.eq_of_toNat_eq ?_⟩
    rw [hzero] at hle ⊢
    exact Nat.le_zero.mp hle
  · obtain ⟨j, hj, hlen⟩ := List.mem_iff_getElem.mp hmem
    have hlt : j < 256 := by simpa using hj
    refine ⟨BitVec.ofNat 8 j, ?_⟩
    simp only [BitVec.toNat_ofNat, Nat.mod_eq_of_lt hlt, maxLen_eq_foldl, ← hlen, Vector.getElem_toList]

/-! ### The entries that GEN_CODES writes -/

section
variable {codes : List (Symbol × Code)} {x : Symbol} {c : Code}

/-- The tables hold the length and the value of each code (R89). -/
theorem getElem_tables_of_mem (h : (x, c) ∈ codes) (hnd : (codes.map Prod.fst).Nodup) :
    (lenTable codes)[x.toNat] = BitVec.ofNat 8 c.length ∧
      (bitsTable codes)[x.toNat] = BitVec.ofNat 256 (codeValue c) :=
  ⟨getElem_foldl_set_of_mem (fun e => BitVec.ofNat 8 e.2.length) h hnd _,
    getElem_foldl_set_of_mem (fun e => BitVec.ofNat 256 (codeValue e.2)) h hnd _⟩

/-- The entries of a symbol without a code are 0 (R89). -/
theorem getElem_tables_of_notMem (h : x ∉ codes.map Prod.fst) :
    (lenTable codes)[x.toNat] = 0#8 ∧ (bitsTable codes)[x.toNat] = 0#256 :=
  ⟨(getElem_foldl_set_of_notMem (fun e : Symbol × Code => BitVec.ofNat 8 e.2.length) h _).trans
      (Vector.getElem_replicate _),
    (getElem_foldl_set_of_notMem (fun e : Symbol × Code => BitVec.ofNat 256 (codeValue e.2)) h _).trans
      (Vector.getElem_replicate _)⟩

end

/-- The bits of `value(c)` at and above the length of the code are 0 (R22). -/
theorem getLsbD_codeValue_of_length_le {c : Code} {k : Nat} (h : c.length ≤ k) :
    (BitVec.ofNat 256 (codeValue c)).getLsbD k = false := by
  rw [BitVec.getLsbD_ofNat, testBit_codeValue_reverse, List.getElem?_eq_none (by simpa using h)]
  simp

/-! ### The entries of a current code table -/

section
variable {s : State} {x : Symbol} {c : Code}

/-- BITS of a symbol with a code is the value of its code (R89). -/
theorem CodesCurrent.bitsOf_of_mem (hC : CodesCurrent s) (hT : TreeCurrent s) (h : (x, c) ∈ (builtTree s).table) :
    bitsOf s x = BitVec.ofNat 256 (codeValue c) := by
  simp only [bitsOf, (hC.tables hT).2]
  exact (getElem_tables_of_mem h hT.nodup_table_symbols).2

/-- BITS of a symbol outside the alphabet is 0 (R89). -/
theorem CodesCurrent.bitsOf_of_freq_zero (hC : CodesCurrent s) (hT : TreeCurrent s) (h : freqOf s x = 0#32) :
    bitsOf s x = 0#256 := by
  have hx : x ∉ (builtTree s).table.map Prod.fst := by
    rwa [hT.table_symbols_perm.mem_iff, mem_alphabet_symbols, not_not]
  simp only [bitsOf, (hC.tables hT).2]
  exact (getElem_tables_of_notMem hx).2

theorem CodesCurrent.lenOf_le_maxCodeLen (hC : CodesCurrent s) (x : Symbol) :
    (lenOf s x).toNat ≤ s.maxCodeLen.toNat := by
  obtain ⟨-, -, -, -, hmax⟩ := hC
  rw [hmax]
  exact toNat_getElem_le_maxLen s.len x

theorem CodesCurrent.exists_lenOf_eq_maxCodeLen (hC : CodesCurrent s) : ∃ x, lenOf s x = s.maxCodeLen := by
  obtain ⟨-, -, -, -, hmax⟩ := hC
  rw [hmax]
  exact exists_getElem_eq_maxLen s.len

/-- A code of a current table has between 1 and K − 1 bits, and 1 bit where K is 1 (R93). -/
theorem CodesCurrent.lenOf_bounds (hC : CodesCurrent s) (hT : TreeCurrent s) (hx : freqOf s x ≠ 0#32) :
    1 ≤ (lenOf s x).toNat ∧ (lenOf s x).toNat ≤ max 1 (alphabetSize s - 1) := by
  obtain ⟨c, hc⟩ := hT.exists_mem_table.mpr hx
  rw [hC.lenOf_of_mem hT hc, alphabetSize, ← hT.leaves_perm.length_eq]
  exact CodeTree.length_of_mem_table hc

/-- The bits of BITS at and above LEN are 0 (R22). -/
theorem CodesCurrent.getLsbD_bitsOf (hC : CodesCurrent s) (hT : TreeCurrent s) {k : Nat}
    (hk : (lenOf s x).toNat ≤ k) : (bitsOf s x).getLsbD k = false := by
  by_cases hx : freqOf s x = 0#32
  · rw [hC.bitsOf_of_freq_zero hT hx, BitVec.getLsbD_zero]
  · obtain ⟨c, hc⟩ := hT.exists_mem_table.mpr hx
    rw [hC.lenOf_of_mem hT hc] at hk
    rw [hC.bitsOf_of_mem hT hc]
    exact getLsbD_codeValue_of_length_le hk

end

/-- Settles O41: the codes are those of a tree whose leaves are the alphabet, so none needs more bits than there are
other leaves, and BITS holds the value of the code alone. -/
theorem codeLengthsAreBounded : Obligations.CodeLengthsAreBounded := by
  intro s hInv hv
  have hT := hInv.tree (hInv.codesNeedTree hv)
  have hC := hInv.codes hv
  have hK : alphabetSize s ≤ 256 := length_alphabet_le s.freq
  refine ⟨fun htwo sym => ?_, by omega, fun hone sym hsym => BitVec.eq_of_toNat_eq ?_,
    fun sym k hk => hC.getLsbD_bitsOf hT hk, fun sym => hC.getLsbD_bitsOf hT (Nat.le_of_lt_succ (lenOf s sym).isLt),
    hC.lenOf_le_maxCodeLen, hC.exists_lenOf_eq_maxCodeLen⟩
  · by_cases hsym : freqOf s sym = 0#32
    · simp [hC.lenOf_of_freq_zero hT hsym]
    · have hlen := (hC.lenOf_bounds hT hsym).2
      omega
  · obtain ⟨hlow, hhigh⟩ := hC.lenOf_bounds hT hsym
    change (lenOf s sym).toNat = 1
    omega

/-! ### GEN_CODES -/

/-- The codes of the tree of a node lead from it to their leaves (R91). -/
theorem leadsTo_of_mem_codes {nodes : List Node} {arena : Vector Node 511} (hm : ∀ j, MergedAt nodes j)
    (ha : ∀ i : NodeIdx, i.val < nodes.length → nodes[i.val]? = some arena[i]) {c : Code} {n : NodeIdx}
    {sym : Symbol} (hn : n.val < nodes.length) (h : (sym, c) ∈ (treeAt nodes n.val).codes) :
    leadsTo arena n c sym := by
  have hnode := ha n hn
  cases hrec : arena[n] with
  | leaf sym' w =>
    rw [hrec] at hnode
    obtain ⟨rfl, rfl⟩ := by simpa [treeAt_leaf hnode, CodeTree.codes] using h
    exact ⟨w, hrec⟩
  | internal w l r =>
    rw [hrec] at hnode
    obtain ⟨hl, hr, -⟩ := hm n.val w l r hnode
    simp only [treeAt_internal hnode hl hr, CodeTree.codes, List.mem_append, List.mem_map, Prod.mk.injEq,
      Prod.exists] at h
    obtain ⟨y, c', hc, rfl, rfl⟩ | ⟨y, c', hc, rfl, rfl⟩ := h
    · exact ⟨w, l, r, hrec, leadsTo_of_mem_codes hm ha (n := l) (hl.trans hn) hc⟩
    · exact ⟨w, l, r, hrec, leadsTo_of_mem_codes hm ha (n := r) (hr.trans hn) hc⟩
termination_by n.val

theorem CodeTree.table_eq_codes {T : CodeTree} (h : 2 ≤ T.leaves.length) : T.table = T.codes := by
  cases T with
  | leaf sym w => simp [leaves] at h
  | node l r => rfl

section
variable {s : State}

/-- Where the alphabet has two symbols, the codes of a current tree are the paths from ROOT to its leaves. -/
theorem TreeCurrent.leadsTo_of_mem_table (hT : TreeCurrent s) (hK : 2 ≤ alphabetSize s) {x : Symbol} {c : Code}
    (h : (x, c) ∈ (builtTree s).table) : leadsTo s.node s.root c x := by
  obtain ⟨k, -, hinv⟩ := hT.mergeInv
  rw [CodeTree.table_eq_codes (hT.leaves_perm.length_eq ▸ hK)] at h
  exact leadsTo_of_mem_codes hinv.merged hT.nodes (hT.length_builtNodes ▸ hT.root_lt) h

/-- GEN_CODES over a tree completes with the longest length (R89). -/
theorem exec_genCodes {codes : List (Symbol × Code)} (hv : s.treeValid = true)
    (hc : treeCodes s.node s.root = some codes) :
    exec .genCodes s =
      .next (answered (BitVec.ofNat 64 (maxLen (lenTable codes)).toNat) (genCodesState codes s)) := by
  simp only [exec, execGenCodes, hv, hc, complete_answered, BitVec.ofNat_toNat]
  rfl

end

/-- Settles O38: GEN_CODES leaves a current code table, and a current code table holds the paths of its tree. -/
theorem genCodesGivesPathCodes : Obligations.GenCodesGivesPathCodes := by
  refine ⟨fun s hv => ?_, fun s hInv hv => ?_⟩
  · simp only [exec, execGenCodes, hv, if_true]
    exact raise_failed .noTree s
  · have hT := hInv.tree hv
    have hcodes := hT.treeCodes_eq
    have hTables := tablesInv_genCodesState ⟨hInv.codesNeedTree, hInv.tree, hInv.codes⟩ hv hcodes
    have hT' := hTables.tree hv
    have hC := hTables.codes rfl
    refine ⟨_, exec_genCodes hv hcodes, rfl,
      fun sym hsym => ⟨hC.lenOf_of_freq_zero hT' hsym, hC.bitsOf_of_freq_zero hT' hsym⟩, fun hK sym hsym => ?_,
      hC.lenOf_le_maxCodeLen, hC.exists_lenOf_eq_maxCodeLen⟩
    obtain ⟨c, hc⟩ := hT.exists_mem_table.mpr hsym
    have hcode : tableCode (genCodesState (builtTree s).table s) sym = c := hC.tableCode_of_mem hT' hc
    exact hcode ▸ hT.leadsTo_of_mem_table hK hc

/-- A table with one code of one bit has the longest length 1. -/
theorem maxLen_lenTable_singleton (sym : Symbol) : maxLen (lenTable [(sym, [false])]) = 1#8 := by
  have hsym : (lenTable [(sym, [false])])[sym.toNat] = 1#8 :=
    (getElem_tables_of_mem (List.mem_singleton_self _) (List.nodup_singleton _)).1
  obtain ⟨x, hx⟩ := exists_getElem_eq_maxLen (lenTable [(sym, [false])])
  by_cases hne : x = sym
  · rw [← hx, hne, hsym]
  · have hle := toNat_getElem_le_maxLen (lenTable [(sym, [false])]) sym
    rw [← hx, hsym, (getElem_tables_of_notMem (by simpa using hne)).1] at hle
    exact absurd hle (by decide)

/-- Settles O39: where the root is a leaf the one code that GEN_CODES writes is "0". -/
theorem singleLeafCode : Obligations.SingleLeafCode := by
  intro s sym w hv hroot
  have hcodes : treeCodes s.node s.root = some [(sym, [false])] := by simp only [treeCodes, hroot]
  have hsym := getElem_tables_of_mem (List.mem_singleton_self (sym, [false])) (List.nodup_singleton _)
  have hlen : lenOf (genCodesState [(sym, [false])] s) sym = 1#8 := hsym.1
  have hbits : bitsOf (genCodesState [(sym, [false])] s) sym = 0#256 := hsym.2
  have hcode : tableCode (genCodesState [(sym, [false])] s) sym = [false] := by simp [tableCode, hlen, hbits]
  refine ⟨_, exec_genCodes hv hcodes, ?_, hlen, hbits, hcode,
    fun x hx => (getElem_tables_of_notMem (by simpa using hx)).1⟩
  rw [maxLen_lenTable_singleton]
  rfl

/-! ### CODE_LEN and CODE_GET -/

section
variable {s : State} {a : BitVec 16} {b : BitVec 32}

theorem exec_codeLen (ha : a.toNat ≤ 255) (hv : s.codesValid = true) :
    exec (.codeLen a) s = .next (answered (BitVec.ofNat 64 (lenOf s (a.setWidth 8)).toNat) s) := by
  simp only [exec, execCodeLen, symOperand_eq_some.mpr ⟨ha, rfl⟩, hv, complete_answered, BitVec.ofNat_toNat]
  rfl

theorem exec_codeGet (ha : a.toNat ≤ 255) (hb : b.toNat ≤ 3) (hv : s.codesValid = true) :
    exec (.codeGet a b) s = .next (answered (codeWindow (bitsOf s (a.setWidth 8)) b.toNat) s) := by
  simp only [exec, execCodeGet, symOperand_eq_some.mpr ⟨ha, rfl⟩, winOperand_eq_some.mpr ⟨hb, rfl⟩, hv,
    complete_answered]
  rfl

/-- Bit `k` of window `n` is bit 64n + k of the value (R50). -/
theorem getLsbD_codeWindow (v : BitVec 256) (n : Nat) {k : Nat} (hk : k < 64) :
    (codeWindow v n).getLsbD k = v.getLsbD (64 * n + k) := by
  simp [codeWindow, hk]

end

/-- Settles O42: the static range is checked before CODES_VALID, and the row of CODE_LEN uses field A alone. -/
theorem codeLenReadsLength : Obligations.CodeLenReadsLength := by
  refine ⟨fun s a => ⟨fun ha => ?_, fun ha hv => ?_, exec_codeLen⟩, fun w hw => ?_⟩
  · obtain ⟨-, hsym, -⟩ := outOfRangeOperandRaises s a 0#32
    obtain ⟨-, -, hlen, -⟩ := hsym ha
    exact hlen
  · simp only [exec, execCodeLen, symOperand_eq_some.mpr ⟨ha, rfl⟩, hv, if_true]
    exact raise_failed .noCodes s
  · have hrow : opcodeOf (opcField w) = some .codeLen := by rw [hw]; rfl
    refine ⟨fun hr hb => decode_eq_ok.mpr ⟨.codeLen, hrow, hr, nofun, fun _ => hb, rfl⟩, fun h => ?_⟩
    exact (illegalWord_iff_of_row hrow).mpr (h.imp_right fun hb => .inr ⟨hb, rfl⟩)

/-- Settles O43: both static ranges are checked before CODES_VALID, the data is one window of BITS, and the row of
CODE_GET uses both fields. -/
theorem codeGetReadsWindow : Obligations.CodeGetReadsWindow := by
  refine ⟨fun s a b => ⟨fun h => ?_, fun ha hb hv => ?_, fun ha hb hv =>
    ⟨_, exec_codeGet ha hb hv, fun k hk => getLsbD_codeWindow _ _ hk⟩⟩, fun w hw => ?_⟩
  · obtain ⟨-, -, -, hget, -⟩ := outOfRangeOperandRaises s a b
    exact hget h
  · simp only [exec, execCodeGet, symOperand_eq_some.mpr ⟨ha, rfl⟩, winOperand_eq_some.mpr ⟨hb, rfl⟩, hv, if_true]
    exact raise_failed .noCodes s
  · have hrow : opcodeOf (opcField w) = some .codeGet := by rw [hw]; rfl
    exact ⟨fun hr => decode_eq_ok.mpr ⟨.codeGet, hrow, hr, nofun, nofun, rfl⟩,
      fun hr => (illegalWord_iff_of_row hrow).mpr (.inl hr)⟩

end Sys2Proof.Machine
end

section
/-! PROOFS. The bit packer and the encoder (R96 to R99): which stream positions an append writes, and that appends
one after the other concatenate. -/

namespace Sys2Proof.Machine

/-! ### Appending to the stream -/

/-- From `s` to `t` the bits `c` were appended at the end of the stream, and no position below it changed (R97, R99). -/
structure Appends (c : Code) (s t : State) : Prop where
  holds : streamHas t s.streamLen.toNat c
  below : ∀ p, p < s.streamLen.toNat → bitAt t p = bitAt s p
  grows : t.streamLen.toNat = s.streamLen.toNat + c.length

section
variable {s t u : State} {c c' : Code} {p : Nat}

/-- A concatenation stands in the stream when its first part does and its second part follows at its end. -/
theorem streamHas_append : streamHas s p (c ++ c') ↔ streamHas s p c ∧ streamHas s (p + c.length) c' := by
  simp only [streamHas, List.length_append]
  constructor
  · refine fun h => ⟨fun j hj => ?_, fun j hj => ?_⟩
    · rw [← h j (by omega), List.getElem?_append_left hj]
    · rw [Nat.add_assoc, ← h (c.length + j) (by omega), List.getElem?_append_right (by omega), Nat.add_sub_cancel_left]
  · rintro ⟨h, h'⟩ j hj
    obtain hlt | hge := Nat.lt_or_ge j c.length
    · rw [List.getElem?_append_left hlt, h j hlt]
    · rw [List.getElem?_append_right hge, h' (j - c.length) (by omega)]
      congr 2
      omega

/-- A string below a position up to which the stream did not change is still there. -/
theorem streamHas_of_unchanged {e : Nat} (h : streamHas s p c) (he : p + c.length ≤ e)
    (hsame : ∀ q, q < e → bitAt t q = bitAt s q) : streamHas t p c := fun j hj => by
  rw [hsame (p + j) (by omega), h j hj]

theorem Appends.refl (s : State) : Appends [] s s where
  holds := nofun
  below := fun _ _ => rfl
  grows := rfl

/-- Appends one after the other concatenate. -/
theorem Appends.trans (h : Appends c s t) (h' : Appends c' t u) : Appends (c ++ c') s u where
  holds := by
    have hend := h.grows
    refine streamHas_append.mpr ⟨streamHas_of_unchanged h.holds hend.ge h'.below, ?_⟩
    simpa only [hend] using h'.holds
  below := fun p hp => by
    have hend := h.grows
    rw [h'.below p (by omega), h.below p hp]
  grows := by rw [h'.grows, h.grows, List.length_append, Nat.add_assoc]

/-! ### The bit packer -/

theorem toNat_streamLen_appendBit (b : Bool) (h : s.streamLen.toNat + 1 < 2 ^ 32) :
    (appendBit b s).streamLen.toNat = s.streamLen.toNat + 1 := by
  rw [appendBit_streamLen, BitVec.toNat_ofNat, Nat.mod_eq_of_lt h]

/-- AppendBit appends its bit: the word it zeroes first holds no position below the end (R97). -/
theorem appends_appendBit (b : Bool) (h : s.streamLen.toNat + 1 < 2 ^ 32) : Appends [b] s (appendBit b s) where
  holds := fun j hj => by
    obtain rfl : j = 0 := by simpa using hj
    rw [bitAt_appendBit, if_pos (Nat.add_zero _)]
    rfl
  below := fun p hp => by
    rw [bitAt_appendBit, if_neg hp.ne, if_neg (by omega)]
  grows := toNat_streamLen_appendBit b h

theorem appends_appendBits (c : Code) (s : State) (h : s.streamLen.toNat + c.length < 2 ^ 32) :
    Appends c s (appendBits c s) := by
  induction c generalizing s with
  | nil => exact .refl s
  | cons b c ih =>
    rw [List.length_cons] at h
    have hlen := toNat_streamLen_appendBit (s := s) b (by omega)
    exact (appends_appendBit b (by omega)).trans (ih (appendBit b s) (by omega))

/-- A position beyond the appended bits is 0 where the packer entered its word at bit offset 0, at the position
`p / 32 * 32`, and keeps its bit elsewhere (R97). -/
theorem bitAt_appendBits_beyond (c : Code) (s : State) (h : s.streamLen.toNat + c.length < 2 ^ 32)
    (hp : s.streamLen.toNat + c.length ≤ p) :
    bitAt (appendBits c s) p =
      if s.streamLen.toNat ≤ p / 32 * 32 ∧ p / 32 * 32 < s.streamLen.toNat + c.length then false else bitAt s p := by
  induction c generalizing s with
  | nil => exact (if_neg (by simp)).symm
  | cons b c ih =>
    rw [List.length_cons] at h hp
    have hlen := toNat_streamLen_appendBit (s := s) b (by omega)
    have hentered : (s.streamLen.toNat % 32 = 0 ∧ p / 32 = s.streamLen.toNat / 32) ↔
        p / 32 * 32 = s.streamLen.toNat := by omega
    rw [appendBits, ih _ (by omega) (by omega), hlen, bitAt_appendBit,
      if_neg (show ¬ p = s.streamLen.toNat by omega), List.length_cons]
    simp only [hentered]
    by_cases hw : p / 32 * 32 = s.streamLen.toNat
    · rw [if_neg (by omega), if_pos hw, if_pos (by omega)]
    · rw [if_neg hw]
      exact if_congr (by omega) rfl rfl

/-- AppendBits writes BITBUF and STREAM_LEN alone. -/
theorem exists_appendBits_eq (c : Code) (s : State) :
    ∃ m n, appendBits c s = { s with bitbuf := m, streamLen := n } := by
  induction c generalizing s with
  | nil => exact ⟨s.bitbuf, s.streamLen, rfl⟩
  | cons b c ih =>
    obtain ⟨m, n, h⟩ := ih (appendBit b s)
    refine ⟨m, n, h.trans ?_⟩
    simp only [appendBit]
    split <;> rfl

end

/-! ### ENC_SYM -/

section
variable {s t : State} {a : BitVec 16} {d : BitVec 64}

theorem toNat_lenOf_ne_zero {x : Symbol} (h : lenOf s x ≠ 0#8) : (lenOf s x).toNat ≠ 0 := BitVec.toNat_ne.mp h

theorem exec_encSym (ha : a.toNat ≤ 255) (hv : s.codesValid = true) (hne : lenOf s (a.setWidth 8) ≠ 0#8)
    (hfits : s.streamLen.toNat + (lenOf s (a.setWidth 8)).toNat ≤ 32 * s.bitbufWords) :
    exec (.encSym a) s =
      .next (answered (BitVec.ofNat 64 (lenOf s (a.setWidth 8)).toNat) (encSymState (a.setWidth 8) s)) := by
  have hcap : ¬ bitbufBits s < s.streamLen.toNat + (lenOf s (a.setWidth 8)).toNat := hfits.not_gt
  simp only [exec, execEncSym, symOperand_eq_some.mpr ⟨ha, rfl⟩, hv, Bool.true_eq_false, if_false,
    toNat_lenOf_ne_zero hne, hcap, complete_answered, BitVec.ofNat_toNat]

/-- An ENC_SYM that completes has appended the code of its symbol, which fits (R98). -/
theorem encSym_endsOk (h : endsOk (exec (.encSym a) s) d t) :
    s.streamLen.toNat + (tableCode s (a.setWidth 8)).length ≤ bitbufBits s ∧
      t = respond .ok d (encSymState (a.setWidth 8) s) := by
  simp only [exec, execEncSym] at h
  split at h
  · simp at h
  · next sym hsym =>
    obtain ⟨-, rfl⟩ := symOperand_eq_some.mp hsym
    split_ifs at h with hv hlen hcap
    · simp at h
    · simp at h
    · simp at h
    · rw [length_tableCode]
      exact ⟨not_lt.mp hcap, (endsOk_complete.mp h).2.symm⟩

/-- No stream position within the buffer leaves 32 bits (R6). -/
theorem lt_two_pow_of_le_bitbufBits {n : Nat} (hw : s.bitbufWords ≤ 65536) (hn : n ≤ bitbufBits s) : n < 2 ^ 32 := by
  unfold bitbufBits at hn
  omega

theorem appends_of_encSym (hw : s.bitbufWords ≤ 65536) (h : endsOk (exec (.encSym a) s) d t) :
    Appends (tableCode s (a.setWidth 8)) s t := by
  obtain ⟨hfits, rfl⟩ := encSym_endsOk h
  obtain ⟨holds, below, grows⟩ := appends_appendBits _ s (lt_two_pow_of_le_bitbufBits hw hfits)
  exact ⟨holds, below, grows⟩

end

/-- Settles O45: each check stands before any append, in the order of R98. -/
theorem encSymFailures : Obligations.EncSymFailures := by
  intro s a ha
  simp only [exec, execEncSym, symOperand_eq_some.mpr ⟨ha, rfl⟩]
  refine ⟨fun hv => ?_, fun hv hlen => ?_, fun hv hlen hcap => ?_⟩
  · rw [if_pos hv]
    exact raise_failed .noCodes s
  · rw [if_neg (by simp [hv]), if_pos (by simp [hlen])]
    exact raise_failed .symbolNotInTable s
  · rw [if_neg (by simp [hv]), if_neg (toNat_lenOf_ne_zero hlen), if_pos (show bitbufBits s < _ from hcap)]
    exact raise_failed .streamOverflow s

/-- Settles O46: the packer writes BITBUF and STREAM_LEN alone, and the counters are 32-bit sums. -/
theorem encSymCompletes : Obligations.EncSymCompletes := by
  intro s a ha hv hne hw hfits
  refine ⟨_, exec_encSym ha hv hne hfits, ?_, BitVec.toNat_add .., ?_, ?_⟩
  · rw [← length_tableCode] at hfits ⊢
    exact (appends_appendBits _ s (lt_two_pow_of_le_bitbufBits hw hfits)).grows
  · refine (BitVec.toNat_add ..).trans ?_
    rw [BitVec.toNat_setWidth, Nat.add_mod_mod]
  · obtain ⟨m, n, h⟩ := exists_appendBits_eq (tableCode s (a.setWidth 8)) s
    simp only [encSymState, h]
    rfl

/-- Settles O47: what an append of the code leaves at the stream positions. -/
theorem encSymPacksBits : Obligations.EncSymPacksBits := by
  intro s t a d hw h hp
  obtain ⟨holds, below, -⟩ := appends_of_encSym hw ⟨h, hp⟩
  refine ⟨holds, below, fun p hbeyond => ?_⟩
  obtain ⟨hfits, rfl⟩ := encSym_endsOk ⟨h, hp⟩
  rw [← length_tableCode] at hbeyond ⊢
  exact bitAt_appendBits_beyond _ s (lt_two_pow_of_le_bitbufBits hw hfits) hbeyond

/-! ### Sequences of ENC_SYM -/

section
variable {s t : State} {a : BitVec 16} {d : BitVec 64}

/-- A sequence completes when its first command does and the rest does from there. -/
theorem completeAll_cons {i : Instr} {is : List Instr} {ds : List (BitVec 64)} :
    completeAll (i :: is) s = some (t, ds) ↔
      ∃ d u ds', endsOk (exec i s) d u ∧ completeAll is u = some (t, ds') ∧ ds = d :: ds' := by
  constructor
  · intro h
    simp only [completeAll] at h
    split at h
    · next u hu =>
      split at h
      · next d hp =>
        split at h
        · next v ds' hrest =>
          obtain ⟨rfl, rfl⟩ : v = t ∧ d :: ds' = ds := by simpa using h
          exact ⟨d, u, ds', ⟨hu, hp⟩, hrest, rfl⟩
        · simp at h
      · simp at h
    · simp at h
  · rintro ⟨d, u, ds', ⟨hu, hp⟩, hrest, rfl⟩
    simp only [completeAll, hu, hp, hrest]

theorem tableCode_of_encSym (h : endsOk (exec (.encSym a) s) d t) (x : Symbol) : tableCode t x = tableCode s x := by
  obtain ⟨-, rfl⟩ := encSym_endsOk h
  simp [tableCode, lenOf, bitsOf, encSymState]

theorem appends_of_encodeSeq {syms : List Symbol} {ds : List (BitVec 64)} (hw : s.bitbufWords ≤ 65536)
    (h : completeAll (encodeSeq syms) s = some (t, ds)) : Appends (codeSeq s syms) s t := by
  induction syms generalizing s ds with
  | nil =>
    obtain ⟨rfl, -⟩ : s = t ∧ [] = ds := by simpa [encodeSeq, completeAll] using h
    exact .refl s
  | cons x syms ih =>
    obtain ⟨d, u, ds', hx, hrest, -⟩ := completeAll_cons.mp h
    have hcode : codeSeq u syms = codeSeq s syms := by
      simp only [codeSeq, funext (tableCode_of_encSym hx)]
    have hwords : u.bitbufWords = s.bitbufWords := by
      obtain ⟨-, rfl⟩ := encSym_endsOk hx
      simp [encSymState]
    have hfirst := appends_of_encSym hw hx
    rw [BitVec.setWidth_setWidth_of_le x (by decide), BitVec.setWidth_eq] at hfirst
    rw [codeSeq, List.flatMap_cons]
    have hlater := ih (hwords ▸ hw) hrest
    rw [hcode] at hlater
    exact hfirst.trans hlater

end

/-- Settles O48: each ENC_SYM appends a code of the same table, and appends concatenate. -/
theorem encodingConcatenatesCodes : Obligations.EncodingConcatenatesCodes := by
  intro s t syms ds _ hw h
  obtain ⟨holds, below, grows⟩ := appends_of_encodeSeq hw h
  exact ⟨holds, below, grows⟩

end Sys2Proof.Machine
end

section
/-! PROOFS. ENC_RESET and the commands on the bit buffer: BB_READ, BB_WRITE and BB_SETLEN (R96, R100 to R102). -/

namespace Sys2Proof.Machine

/-! ### ENC_RESET and the length of the stream -/

/-- Without a bit to read DEC_SYM reports END_OF_STREAM (R105). -/
theorem exec_decSym_endOfStream {s : State} (hv : s.treeValid = true) (hend : s.streamLen.toNat ≤ s.decBitPos.toNat) :
    exec .decSym s = .next { s with port := .respond ⟨.endOfStream, 0#64⟩ } := by
  simp only [exec, execDecSym]
  rw [if_neg (by simp [hv]), if_pos hend]
  rfl

/-- Settles O44: the three registers read 0 after ENC_RESET, and DEC_BITPOS is at or beyond a STREAM_LEN of 0. -/
theorem encResetStartsStream : Obligations.EncResetStartsStream := by
  refine ⟨fun s => ⟨_, rfl, rfl, fun hv => exec_decSym_endOfStream hv (Nat.zero_le _),
    exec_rdCsr (c := .streamLen) rfl rfl, exec_rdCsr (c := .encSymCount) rfl rfl,
    exec_rdCsr (c := .encBitCount) rfl rfl⟩, fun w hw => ?_⟩
  have hrow : opcodeOf (opcField w) = some .encReset := by rw [hw]; rfl
  have hword : encode .encReset = 0x4000000000000000#64 := by decide
  rw [← hword]
  exact ⟨decode_eq_ok_iff_encode, illegalWord_of_ne_encode hrow rfl rfl rfl⟩

theorem exec_bbSetLen {s : State} {n : BitVec 32} (hn : n.toNat ≤ 32 * s.bitbufWords) :
    exec (.bbSetLen n) s = .next (answered 0#64 { s with streamLen := n }) := by
  simp only [exec, execBbSetLen, lenOperand_eq_some.mpr ⟨hn, rfl⟩, complete_answered]

theorem exec_bbSetLen_outOfRange {s : State} {n : BitVec 32} (hn : 32 * s.bitbufWords < n.toNat) :
    exec (.bbSetLen n) s = .next (failed .badOperand 3 s) := by
  obtain ⟨-, -, -, -, -, hlen, -⟩ := outOfRangeOperandRaises s 0#16 n
  exact hlen hn

/-- Settles O51: in range BB_SETLEN is one write of STREAM_LEN, and its row uses field B alone. -/
theorem bbSetLenSetsLength : Obligations.BbSetLenSetsLength := by
  refine ⟨fun s n => exec_bbSetLen, fun s t n hn h hv hend => ?_, fun s n => exec_bbSetLen_outOfRange,
    fun w hw => ?_, fun s hs => ⟨?_, exec_bbSetLen_outOfRange (by rw [hs]; decide)⟩⟩
  · obtain rfl := Host.Outcome.next.inj ((exec_bbSetLen hn).symm.trans h)
    exact exec_decSym_endOfStream hv hend
  · have hrow : opcodeOf (opcField w) = some .bbSetLen := by rw [hw]; rfl
    refine ⟨fun hr ha => decode_eq_ok.mpr ⟨.bbSetLen, hrow, hr, fun _ => ha, nofun, rfl⟩, fun h => ?_⟩
    exact (illegalWord_iff_of_row hrow).mpr (h.imp_right fun ha => .inl ⟨ha, rfl⟩)
  · have hdec : decode 0x5200000000008000#64 = .ok (.bbSetLen 32768#32) := by decide
    rw [execWord_of_decode hdec, exec_bbSetLen (by rw [hs]; decide)]

/-! ### The words of the bit buffer -/

section
variable {s : State} {a : BitVec 16}

theorem exec_bbRead (ha : a.toNat < s.bitbufWords) :
    exec (.bbRead a) s = .next (answered (BitVec.ofNat 64 (wordRead s a.toNat).toNat) s) := by
  simp only [exec, execBbRead, wordOperand_eq_some.mpr ⟨ha, rfl⟩, complete_answered, BitVec.ofNat_toNat]

theorem exec_bbWrite (ha : a.toNat < s.bitbufWords) (v : BitVec 32) :
    exec (.bbWrite a v) s = .next (answered 0#64 (wordWrite a.toNat v s)) := by
  simp only [exec, execBbWrite, wordOperand_eq_some.mpr ⟨ha, rfl⟩, complete_answered]

/-- A stream position of the word written shows the bit of the word that R45 gives it. -/
theorem bitAt_wordWrite_of_eq {w p : Nat} (hp : p / 32 = w) (v : BufWord) (s : State) :
    bitAt (wordWrite w v s) p = v.getLsbD (31 - p % 32) := by
  rw [bitAt, wordRead_wordWrite, if_pos hp.symm, bitOfWord]

theorem bitAt_wordWrite_of_ne {w p : Nat} (hp : p / 32 ≠ w) (v : BufWord) (s : State) :
    bitAt (wordWrite w v s) p = bitAt s p := by
  rw [bitAt, wordRead_wordWrite, if_neg hp.symm, bitAt]

/-- Up to 32 bits written as word 0, the first in bit 31, are the beginning of the stream. -/
theorem streamHas_wordWrite_zero {code : Code} {v : BufWord} (s : State) (hlen : code.length ≤ 32)
    (hbits : ∀ j < code.length, code[j]? = some (v.getLsbD (31 - j))) : streamHas (wordWrite 0 v s) 0 code := by
  intro j hj
  rw [Nat.zero_add, bitAt_wordWrite_of_eq (by omega), Nat.mod_eq_of_lt (by omega)]
  exact hbits j hj

end

/-- Settles O49: a word in range is read with no other effect, and the row of BB_READ uses field A alone. -/
theorem bbReadReadsWord : Obligations.BbReadReadsWord := by
  refine ⟨fun s a => exec_bbRead, fun s a ha => ?_, fun w hw => ?_⟩
  · obtain ⟨-, -, -, -, hword, -⟩ := outOfRangeOperandRaises s a 0#32
    exact (hword ha).1
  · have hrow : opcodeOf (opcField w) = some .bbRead := by rw [hw]; rfl
    refine ⟨fun hr hb => decode_eq_ok.mpr ⟨.bbRead, hrow, hr, nofun, fun _ => hb, rfl⟩, fun h => ?_⟩
    exact (illegalWord_iff_of_row hrow).mpr (h.imp_right fun hb => .inr ⟨hb, rfl⟩)

/-- The example of R101: the word 0x68000000 with STREAM_LEN = 5 is the stream 01101. -/
theorem bbWrite_example (s : State) (h : 1 ≤ s.bitbufWords) : ∃ t u,
    execWord 0x5100000068000000#64 s = .next t ∧ execWord 0x5200000000000005#64 t = .next u ∧
      u.streamLen = 5#32 ∧ streamHas u 0 [false, true, true, false, true] := by
  have hwrite : decode 0x5100000068000000#64 = .ok (.bbWrite 0#16 0x68000000#32) := by decide
  have hsetLen : decode 0x5200000000000005#64 = .ok (.bbSetLen 5#32) := by decide
  have hstream : streamHas (wordWrite 0 0x68000000#32 s) 0 [false, true, true, false, true] :=
    streamHas_wordWrite_zero s (by decide) (by decide)
  refine ⟨_, _, (execWord_of_decode hwrite s).trans (exec_bbWrite (a := 0#16) h _),
    (execWord_of_decode hsetLen _).trans (exec_bbSetLen ?_), rfl, hstream⟩
  exact le_trans (by decide) (Nat.mul_le_mul_left 32 h)

/-- Settles O50: in range BB_WRITE is one WordWrite, seen by word and by bit, and its row uses both fields. -/
theorem bbWriteWritesWord : Obligations.BbWriteWritesWord := by
  refine ⟨fun s a v ha => ⟨_, exec_bbWrite ha v, fun w => ?_, fun p hp => ?_, fun p hp => ?_, rfl⟩, fun s a v ha => ?_,
    fun w hw => ?_, bbWrite_example⟩
  · exact (wordRead_wordWrite s a.toNat w v).trans (if_congr eq_comm rfl rfl)
  · rw [← bitAt_wordWrite_of_eq hp v s]
    exact bitRead_of_lt (show p < 32 * s.bitbufWords by omega)
  · exact congrArg (fun b => if p < bitbufBits s then some b else none) (bitAt_wordWrite_of_ne hp v s)
  · obtain ⟨-, -, -, -, hword, -⟩ := outOfRangeOperandRaises s a v
    exact (hword ha).2
  · have hrow : opcodeOf (opcField w) = some .bbWrite := by rw [hw]; rfl
    exact ⟨fun hr => decode_eq_ok.mpr ⟨.bbWrite, hrow, hr, nofun, nofun, rfl⟩,
      fun hr => (illegalWord_iff_of_row hrow).mpr (.inl hr)⟩

end Sys2Proof.Machine
end

section
/-! PROOFS. The decoder (R104 to R110): how a walk from ROOT ends by the bits of the stream, what DEC_SYM then answers,
and that it gives back what ENC_SYM encoded. -/

namespace Sys2Proof.Machine

/-! ### DEC_RESET and the end of the stream -/

/-- Settles O52: the two registers read 0 after DEC_RESET, and its row uses no operand. -/
theorem decResetStartsDecoding : Obligations.DecResetStartsDecoding := by
  refine ⟨fun s => ⟨_, rfl, rfl, exec_rdCsr (c := .decBitPos) rfl rfl⟩, fun w hw => ?_⟩
  have hrow : opcodeOf (opcField w) = some .decReset := by rw [hw]; rfl
  have hword : encode .decReset = 0x6000000000000000#64 := by decide
  rw [← hword]
  exact ⟨decode_eq_ok_iff_encode, illegalWord_of_ne_encode hrow rfl rfl rfl⟩

/-- Settles O53: the first two checks of DEC_SYM stand before any read of the tree. -/
theorem decSymNoTreeAndEnd : Obligations.DecSymNoTreeAndEnd := by
  refine fun s => ⟨fun hv => ?_, exec_decSym_endOfStream⟩
  simp only [exec, execDecSym, hv, if_true]
  exact raise_failed .noTree s

/-! ### The walk -/

section
variable {s : State} {n : NodeIdx} {w : Weight} {l r : NodeIdx} {left q : Nat} {c : Code} {sym : Symbol}

/-- The walk ends at the child that the next bit chooses where that child is a leaf (R105). -/
theorem walk_succ_of_leaf {w' : Weight} (hq : q < bitbufBits s) (hn : s.node[n] = .internal w l r)
    (hchild : s.node[if bitAt s q then r else l] = .leaf sym w') : walk s (left + 1) q n = .leaf sym (q + 1) := by
  simp only [walk, bitRead_of_lt hq, hn, nodeLeft, nodeRight, hchild]

/-- The walk goes on from the child that the next bit chooses where that child is internal (R105). -/
theorem walk_succ_of_internal {w' : Weight} {l' r' : NodeIdx} (hq : q < bitbufBits s)
    (hn : s.node[n] = .internal w l r) (hchild : s.node[if bitAt s q then r else l] = .internal w' l' r') :
    walk s (left + 1) q n = walk s left (q + 1) (if bitAt s q then r else l) := by
  simp only [walk, bitRead_of_lt hq, hn, nodeLeft, nodeRight, hchild]

theorem streamHas_cons {b : Bool} : streamHas s q (b :: c) ↔ bitAt s q = b ∧ streamHas s (q + 1) c := by
  rw [← List.singleton_append, streamHas_append]
  simp [streamHas, eq_comm]

/-- A path that has an edge begins at an internal node (R91). -/
theorem internal_of_leadsTo {arena : Vector Node 511} (hc : c ≠ []) (hpath : leadsTo arena n c sym) :
    ∃ w l r, arena[n] = .internal w l r := by
  cases c with
  | nil => exact absurd rfl hc
  | cons b c =>
    obtain ⟨w, l, r, hn, -⟩ := hpath
    exact ⟨w, l, r, hn⟩

theorem internal_of_leadsInside {arena : Vector Node 511} (hpath : leadsInside arena n c) :
    ∃ w l r, arena[n] = .internal w l r := by
  cases c with
  | nil => exact hpath
  | cons b c =>
    obtain ⟨w, l, r, hn, -⟩ := hpath
    exact ⟨w, l, r, hn⟩

/-- A walk along the edge bits of a path to a leaf ends at that leaf, past those bits (R105). -/
theorem walk_eq_leaf (hc : c ≠ []) (hpath : leadsTo s.node n c sym) (hbits : streamHas s q c)
    (hleft : c.length ≤ left) (hbuf : q + c.length ≤ bitbufBits s) : walk s left q n = .leaf sym (q + c.length) := by
  induction c generalizing n left q with
  | nil => exact absurd rfl hc
  | cons b c ih =>
    obtain ⟨w, l, r, hn, hchild⟩ := hpath
    obtain ⟨rfl, hrest⟩ := streamHas_cons.mp hbits
    rw [List.length_cons] at hleft hbuf ⊢
    obtain ⟨left, rfl⟩ : ∃ k, left = k + 1 := ⟨left - 1, by omega⟩
    cases c with
    | nil =>
      obtain ⟨w', hleaf⟩ := hchild
      exact walk_succ_of_leaf (by omega) hn hleaf
    | cons b' c' =>
      obtain ⟨w', l', r', hinner⟩ := internal_of_leadsTo (List.cons_ne_nil b' c') hchild
      rw [walk_succ_of_internal (by omega) hn hinner, ih (List.cons_ne_nil b' c') hchild hrest (by omega) (by omega),
        Nat.add_right_comm, Nat.add_assoc]

/-- A walk whose bits end at an internal node is truncated (R107). -/
theorem walk_eq_truncated (hpath : leadsInside s.node n c) (hbits : streamHas s q c)
    (hbuf : q + c.length ≤ bitbufBits s) : walk s c.length q n = .truncated := by
  induction c generalizing n q with
  | nil => rfl
  | cons b c ih =>
    obtain ⟨w, l, r, hn, hchild⟩ := hpath
    obtain ⟨rfl, hrest⟩ := streamHas_cons.mp hbits
    rw [List.length_cons] at hbuf ⊢
    obtain ⟨w', l', r', hinner⟩ := internal_of_leadsInside hchild
    rw [walk_succ_of_internal (by omega) hn hinner]
    exact ih hchild hrest (by omega)

end

/-! ### What DEC_SYM answers -/

/-- The state after a DEC_SYM that emits `sym` and consumes `n` bits (R105). -/
def decodedState (sym : Symbol) (n : Nat) (s : State) : State :=
  answered (BitVec.ofNat 64 (2 ^ 8 * (n % 2 ^ 8) + sym.toNat))
    { s with decBitPos := BitVec.ofNat 32 (s.decBitPos.toNat + n), decSymCount := s.decSymCount + 1#32 }

/-- The low byte of the response data is the symbol (R105). -/
theorem setWidth_decoded_data (sym : Symbol) (n : Nat) :
    (BitVec.ofNat 64 (2 ^ 8 * (n % 2 ^ 8) + sym.toNat)).setWidth 8 = sym := by
  have := sym.isLt
  apply BitVec.eq_of_toNat_eq
  rw [BitVec.toNat_setWidth, BitVec.toNat_ofNat]
  omega

theorem emitSymbol_eq (sym : Symbol) (n : Nat) (s : State) :
    emitSymbol sym (s.decBitPos.toNat + n) s = .next (decodedState sym n s) := by
  have hdata : (BitVec.ofNat 8 n ++ sym).setWidth 64 = BitVec.ofNat 64 (2 ^ 8 * (n % 2 ^ 8) + sym.toNat) := by
    rw [← BitVec.ofNat_toNat, toNat_append_eq_add, BitVec.toNat_ofNat, Nat.mul_comm]
  rw [emitSymbol, Nat.add_sub_cancel_left, hdata, complete_answered, decodedState]

section
variable {s : State} {w : Weight} {c : Code} {sym : Symbol}

/-- A root that is a leaf reads one bit, of which only 0 is a code (R106). -/
theorem exec_decSym_of_leaf (hv : s.treeValid = true) (hroot : s.node[s.root] = .leaf sym w)
    (hlt : s.decBitPos.toNat < s.streamLen.toNat) (hbuf : s.streamLen.toNat ≤ bitbufBits s) :
    exec .decSym s =
      if bitAt s s.decBitPos.toNat then .next (failed .invalidCode 11 s) else .next (decodedState sym 1 s) := by
  simp only [exec, execDecSym, hv, hroot, hlt.not_ge, Bool.true_eq_false, if_false,
    bitRead_of_lt (hlt.trans_le hbuf)]
  cases bitAt s s.decBitPos.toNat with
  | false => exact emitSymbol_eq sym 1 s
  | true => exact raise_failed .invalidCode s

/-- DEC_SYM along a path to a leaf emits its symbol and consumes its edge bits (R105). -/
theorem exec_decSym_of_leadsTo (hv : s.treeValid = true) (hc : c ≠ []) (hpath : leadsTo s.node s.root c sym)
    (hbits : streamHas s s.decBitPos.toNat c) (hend : s.decBitPos.toNat + c.length ≤ s.streamLen.toNat)
    (hbuf : s.streamLen.toNat ≤ bitbufBits s) : exec .decSym s = .next (decodedState sym c.length s) := by
  have hpos := List.length_pos_iff.mpr hc
  have hlt : ¬ s.streamLen.toNat ≤ s.decBitPos.toNat := by omega
  obtain ⟨w, l, r, hroot⟩ := internal_of_leadsTo hc hpath
  have hwalk := walk_eq_leaf (left := s.streamLen.toNat - s.decBitPos.toNat) hc hpath hbits (by omega) (by omega)
  simp only [exec, execDecSym, hv, hlt, hroot, hwalk, Bool.true_eq_false, if_false, emitSymbol_eq]

end

/-- Settles O54: the one bit read decides between the leaf's symbol and INVALID_CODE. -/
theorem decSymSingleLeaf : Obligations.DecSymSingleLeaf := by
  intro s sym w hv hroot hlt hbuf
  rw [exec_decSym_of_leaf hv hroot hlt hbuf]
  have hpos : s.decBitPos + 1#32 = BitVec.ofNat 32 (s.decBitPos.toNat + 1) := by
    rw [BitVec.ofNat_add, BitVec.ofNat_toNat, BitVec.setWidth_eq]
  refine ⟨fun hbit => ?_, fun hbit => if_pos hbit⟩
  rw [hbit, hpos]
  rfl

/-- Settles O55: the walk along the path ends at its leaf. -/
theorem decSymFollowsTree : Obligations.DecSymFollowsTree :=
  fun _ _ _ hv hc hpath hbits hend hbuf => exec_decSym_of_leadsTo hv hc hpath hbits hend hbuf

/-- Settles O56: the walk uses up the stream at an internal node, and an error keeps the registers. -/
theorem decSymTruncated : Obligations.DecSymTruncated := by
  intro s c hv hpath hbits hc hend hbuf
  have hpos := List.length_pos_iff.mpr hc
  have hlt : ¬ s.streamLen.toNat ≤ s.decBitPos.toNat := by omega
  have hleft : s.streamLen.toNat - s.decBitPos.toNat = c.length := by omega
  have hwalk := walk_eq_truncated hpath hbits (by omega)
  obtain ⟨w, l, r, hroot⟩ := internal_of_leadsInside hpath
  simp only [exec, execDecSym, hv, hlt, hroot, hleft, hwalk, Bool.true_eq_false, if_false]
  exact raise_failed .truncatedStream s

/-! ### The round trip -/

/-- A code of a current tree is "0" where the root is a leaf (R90), and a path from ROOT to its leaf elsewhere (R91). -/
theorem TreeCurrent.code_cases {s : State} (hT : TreeCurrent s) {x : Symbol} {c : Code}
    (h : (x, c) ∈ (builtTree s).table) :
    (c = [false] ∧ ∃ w, s.node[s.root] = .leaf x w) ∨ (c ≠ [] ∧ leadsTo s.node s.root c x) := by
  by_cases hK : 2 ≤ alphabetSize s
  · exact .inr ⟨List.length_pos_iff.mp (hT.length_of_mem_table h).1, hT.leadsTo_of_mem_table hK h⟩
  · have hne := hT.nonempty
    have hroot := hT.root_eq
    obtain ⟨hleaf, -⟩ := hT.leaf_record_mem (j := s.root) (by omega)
    have hcodes := hT.treeCodes_eq
    rw [treeCodes, hleaf] at hcodes
    rw [← Option.some.inj hcodes, List.mem_singleton, Prod.mk.injEq] at h
    obtain ⟨rfl, rfl⟩ := h
    exact .inl ⟨rfl, _, hleaf⟩

section
variable {s t : State}

/-- Where the stream goes on with the code of a symbol, DEC_SYM emits that symbol and consumes the code (R105, R106). -/
theorem Inv.exec_decSym_of_code (h : Inv s) (hv : s.codesValid = true) {x : Symbol} (hx : tableCode s x ≠ [])
    (hbits : streamHas s s.decBitPos.toNat (tableCode s x))
    (hend : s.decBitPos.toNat + (tableCode s x).length ≤ s.streamLen.toNat) :
    Machine.exec .decSym s = .next (decodedState x (tableCode s x).length s) := by
  have hvT := h.codesNeedTree hv
  have hT := h.tree hvT
  have hC := h.codes hv
  have hlen : lenOf s x ≠ 0#8 := by
    rw [← BitVec.toNat_ne_iff_ne, ← length_tableCode]
    exact (List.length_pos_iff.mpr hx).ne'
  obtain ⟨c, hc⟩ := hT.exists_mem_table.mpr ((hC.lenOf_ne_zero_iff hT).mp hlen)
  rw [hC.tableCode_of_mem hT hc] at hbits hend ⊢
  obtain ⟨rfl, w, hroot⟩ | ⟨hne, hpath⟩ := hT.code_cases hc
  · obtain ⟨hbit, -⟩ := streamHas_cons.mp hbits
    rw [exec_decSym_of_leaf hvT hroot hend h.stream, hbit]
    rfl
  · exact exec_decSym_of_leadsTo hvT hne hpath hbits hend h.stream

/-- Where the stream goes on with the codes of a sequence and then ends, as many DEC_SYM complete with the sequence and
leave no bit to read (R108). -/
theorem Inv.completeAll_decSym {syms : List Symbol} (h : Inv s) (hv : s.codesValid = true)
    (hcodes : ∀ x ∈ syms, tableCode s x ≠ []) (hbits : streamHas s s.decBitPos.toNat (codeSeq s syms))
    (hend : s.decBitPos.toNat + (codeSeq s syms).length = s.streamLen.toNat) :
    ∃ u es, completeAll (List.replicate syms.length .decSym) s = some (u, es) ∧
      es.map (fun d => d.setWidth 8) = syms ∧ u.treeValid = true ∧ u.streamLen.toNat ≤ u.decBitPos.toNat := by
  induction syms generalizing s with
  | nil => exact ⟨s, [], rfl, rfl, h.codesNeedTree hv, hend.ge⟩
  | cons x syms ih =>
    rw [List.forall_mem_cons] at hcodes
    obtain ⟨hx, hrest⟩ := hcodes
    rw [codeSeq, List.flatMap_cons, ← codeSeq] at hbits hend
    rw [List.length_append] at hend
    obtain ⟨hfirst, hlater⟩ := streamHas_append.mp hbits
    have hexec := h.exec_decSym_of_code hv hx hfirst (by omega)
    have hlt : s.decBitPos.toNat + (tableCode s x).length < 2 ^ 32 := by have := s.streamLen.isLt; omega
    have hpos : (decodedState x (tableCode s x).length s).decBitPos.toNat =
        s.decBitPos.toNat + (tableCode s x).length := Nat.mod_eq_of_lt hlt
    obtain ⟨u, es, hall, hsyms, hu⟩ := ih (h.exec hexec) hv hrest (by rw [hpos]; exact hlater)
      (by rw [hpos, Nat.add_assoc]; exact hend)
    refine ⟨u, _, completeAll_cons.mpr ⟨_, _, es, ⟨hexec, rfl⟩, hall, rfl⟩, ?_, hu⟩
    rw [List.map_cons, setWidth_decoded_data, hsyms]

/-- Commands that all complete keep the invariants. -/
theorem Inv.completeAll {is : List Instr} {ds : List (BitVec 64)} (h : Inv s)
    (hall : completeAll is s = some (t, ds)) : Inv t := by
  induction is generalizing s ds with
  | nil =>
    obtain ⟨rfl, -⟩ : s = t ∧ [] = ds := by simpa [Machine.completeAll] using hall
    exact h
  | cons i is ih =>
    obtain ⟨d, u, ds', ⟨hi, -⟩, hrest, -⟩ := completeAll_cons.mp hall
    exact ih (h.exec hi) hrest

/-- An ENC_SYM that completes found a code for its symbol (R98). -/
theorem tableCode_ne_nil_of_encSym {x : Symbol} {d : BitVec 64} (hv : s.codesValid = true)
    (h : endsOk (exec (.encSym (x.setWidth 16)) s) d t) : tableCode s x ≠ [] := by
  intro hnil
  have hlen : (lenOf s x).toNat = 0 := by rw [← length_tableCode, hnil, List.length_nil]
  simp only [exec, execEncSym, symOperand_setWidth, hv, hlen, Bool.true_eq_false, if_false, if_true] at h
  exact not_endsOk_raise (by decide) h

/-- Every symbol that was encoded had a code, and the code table is still valid and holds the same codes. -/
theorem codes_of_encodeSeq {syms : List Symbol} {ds : List (BitVec 64)} (hv : s.codesValid = true)
    (h : completeAll (encodeSeq syms) s = some (t, ds)) :
    t.codesValid = true ∧ tableCode t = tableCode s ∧ ∀ x ∈ syms, tableCode s x ≠ [] := by
  induction syms generalizing s ds with
  | nil =>
    obtain ⟨rfl, -⟩ : s = t ∧ [] = ds := by simpa [encodeSeq, completeAll] using h
    exact ⟨hv, rfl, nofun⟩
  | cons x syms ih =>
    obtain ⟨d, u, ds', hx, hrest, -⟩ := completeAll_cons.mp h
    have hvalid : u.codesValid = true := by
      obtain ⟨-, rfl⟩ := encSym_endsOk hx
      simpa [encSymState] using hv
    have hcode : tableCode u = tableCode s := funext (tableCode_of_encSym hx)
    obtain ⟨hvt, htable, hcodes⟩ := ih hvalid hrest
    rw [hcode] at htable hcodes
    exact ⟨hvt, htable, List.forall_mem_cons.mpr ⟨tableCode_ne_nil_of_encSym hv hx, hcodes⟩⟩

end

/-- Settles O57: the encodings leave the codes of the sequence as the whole stream, under the same code table, and each
DEC_SYM takes the next code off it. -/
theorem roundTripLaw : Obligations.RoundTripLaw := by
  intro s t syms ds hInv hv h
  have hInvT := hInv.completeAll h
  obtain ⟨d, s₀, ds', ⟨hreset, -⟩, henc, -⟩ := completeAll_cons.mp h
  obtain ⟨hv₀, hw₀, hstart⟩ : s₀.codesValid = true ∧ s₀.bitbufWords ≤ 65536 ∧ s₀.streamLen.toNat = 0 := by
    obtain rfl := Host.Outcome.next.inj hreset
    exact ⟨hv, hInv.words.2, rfl⟩
  obtain ⟨hvt, htable, hcodes⟩ := codes_of_encodeSeq hv₀ henc
  obtain ⟨holds, -, grows⟩ := appends_of_encodeSeq hw₀ henc
  have hseq : codeSeq t syms = codeSeq s₀ syms := by rw [codeSeq, htable, codeSeq]
  rw [hstart, ← hseq] at holds grows
  rw [← htable] at hcodes
  have hdec : exec .decReset t = .next (answered 0#64 { t with decBitPos := 0#32, decSymCount := 0#32 }) := rfl
  obtain ⟨u, es, hall, hsyms, hvu, hu⟩ := (hInvT.exec hdec).completeAll_decSym hvt hcodes holds grows.symm
  exact ⟨u, es, _, completeAll_cons.mpr ⟨_, _, es, ⟨hdec, rfl⟩, hall, rfl⟩, hsyms, exec_decSym_endOfStream hvu hu, rfl⟩

end Sys2Proof.Machine
end

section
/-! PROOFS. METRICS (R111 to R113): its totals as sums over the symbols, their bounds under the invariants, and the
two ways its computation ends. -/

namespace Sys2Proof.Machine

/-! ### The totals of the table as sums over the symbols -/

/-- The entries of a table, read at the symbols in ascending order (R13). -/
theorem map_symbols_getElem {α : Type} (t : Vector α 256) : (symbols.map fun x => t[x.toNat]) = t.toList := by
  refine List.ext_getElem (by simp [length_symbols]) fun i hi _ => ?_
  have hlt : i < 256 := by simpa [length_symbols] using hi
  simp [symbols, Nat.mod_eq_of_lt hlt]

theorem sum_freqOf (s : State) : (symbols.map fun x => (freqOf s x).toNat).sum = totalCount s.freq := by
  rw [totalCount, ← map_symbols_getElem, List.map_map]
  rfl

theorem sum_freqOf_mul_lenOf (s : State) :
    (symbols.map fun x => (freqOf s x).toNat * (lenOf s x).toNat).sum = weightedLength s.freq s.len := by
  rw [weightedLength, ← map_symbols_getElem, ← map_symbols_getElem, List.zip_map', List.map_map]
  rfl

/-- Lengths have 8 bits, so the Huffman bits are at most 255 for each counted symbol. -/
theorem weightedLength_le (s : State) : weightedLength s.freq s.len ≤ totalCount s.freq * 255 := by
  rw [← sum_freqOf_mul_lenOf, ← sum_freqOf, ← List.sum_map_mul_right]
  refine List.sum_le_sum fun x _ => Nat.mul_le_mul_left _ ?_
  have := (lenOf s x).isLt
  omega

/-- Every counted symbol has at least one bit, so the Huffman bits are no fewer than the counted symbols (R93). -/
theorem CodesCurrent.totalCount_le_weightedLength {s : State} (hC : CodesCurrent s) (hT : TreeCurrent s) :
    totalCount s.freq ≤ weightedLength s.freq s.len := by
  rw [← sum_freqOf_mul_lenOf, ← sum_freqOf]
  refine List.sum_le_sum fun x _ => ?_
  by_cases hx : freqOf s x = 0#32
  · simp [hx]
  · exact Nat.le_mul_of_pos_right _ (hC.lenOf_bounds hT hx).1

/-- A table that BUILD accepted counts at least one symbol (R79). -/
theorem TreeCurrent.totalCount_pos {s : State} (hT : TreeCurrent s) : 0 < totalCount s.freq := by
  obtain ⟨e, he⟩ := List.exists_mem_of_length_pos (Nat.pos_of_ne_zero hT.nonempty)
  have hcount : e.2.toNat ≠ 0 := BitVec.toNat_ne.mp (mem_alphabet.mp he).2
  have hle := List.le_sum_of_mem (List.mem_map_of_mem (f := fun e : Symbol × Weight => e.2.toNat) he)
  rw [sum_alphabet] at hle
  exact (Nat.pos_of_ne_zero hcount).trans_le hle

/-! ### The totals fit their registers -/

section
variable {s : State} {src : MetricsSource}

/-- From either source n fits 32 bits: the encoder's counter has as many, and a current tree's counts fit (R79). -/
theorem Inv.metricsCount_lt (hInv : Inv s) (hv : src = .table → s.codesValid = true) :
    metricsCount s src < 2 ^ 32 := by
  cases src with
  | encoder => exact s.encSymCount.isLt
  | table => exact (hInv.tree (hInv.codesNeedTree (hv rfl))).fits

/-- From either source h fits 40 bits. -/
theorem Inv.metricsBits_lt (hInv : Inv s) (hv : src = .table → s.codesValid = true) : metricsBits s src < 2 ^ 40 := by
  cases src with
  | encoder => exact s.encBitCount.isLt.trans (by decide)
  | table =>
    have hcount := hInv.metricsCount_lt hv
    have hle := weightedLength_le s
    simp only [metricsCount] at hcount
    simp only [metricsBits]
    omega

end

/-! ### The command -/

section
variable {s : State} {a : BitVec 16} {b : BitVec 32} {src : MetricsSource}

/-- Source 0 is the encoder (R111). -/
theorem srcOperand_eq_encoder : srcOperand a = some .encoder ↔ a.toNat = 0 := by
  unfold srcOperand
  split <;> simp_all

/-- In range, METRICS computes from the totals of its source; source 1 needs valid codes (R111). -/
theorem exec_metrics (ha : srcOperand a = some src) (hb : b.toNat ≤ 255) (hv : src = .table → s.codesValid = true) :
    exec (.metrics a b) s = finishMetrics (metricsCount s src * b.toNat) (metricsBits s src) s := by
  have hcodes : ¬ (src = .table ∧ s.codesValid = false) := fun ⟨htable, hfalse⟩ => by simp [hv htable] at hfalse
  simp only [exec, execMetrics, ha, widthOperand_eq_some.mpr ⟨hb, rfl⟩, if_neg hcodes]

/-- Without valid codes METRICS of source 1 ends with NO_CODES and writes nothing else (R111, R122). -/
theorem exec_metrics_noCodes (ha : srcOperand a = some .table) (hb : b.toNat ≤ 255) (hv : s.codesValid = false) :
    exec (.metrics a b) s = .next (failed .noCodes 7 s) := by
  simp only [exec, execMetrics, ha, widthOperand_eq_some.mpr ⟨hb, rfl⟩, hv, and_self, if_true]
  exact raise_failed .noCodes s

/-- Where h is not 0, METRICS completes with the ratio rounded down (R111). -/
theorem exec_metrics_completes (ha : srcOperand a = some src) (hb : b.toNat ≤ 255)
    (hv : src = .table → s.codesValid = true) (hne : metricsBits s src ≠ 0) :
    exec (.metrics a b) s =
      .next (answered (BitVec.ofNat 64 (metricsCount s src * b.toNat * 2 ^ 16 / metricsBits s src))
        (metricsState (metricsCount s src * b.toNat) (metricsBits s src)
          (metricsCount s src * b.toNat * 2 ^ 16 / metricsBits s src) true s)) := by
  rw [exec_metrics ha hb hv, finishMetrics, if_neg hne, complete_answered]

/-- Where h is 0, METRICS raises RATIO_UNDEFINED over the state with its four writes (R112). -/
theorem exec_metrics_undefined (ha : srcOperand a = some src) (hb : b.toNat ≤ 255)
    (hv : src = .table → s.codesValid = true) (hzero : metricsBits s src = 0) :
    exec (.metrics a b) s =
      .next (failed .ratioUndefined 12 (metricsState (metricsCount s src * b.toNat) 0 0 false s)) := by
  rw [exec_metrics ha hb hv, finishMetrics, if_pos hzero, hzero]
  exact raise_failed .ratioUndefined _

end

/-- Settles O60: a valid tree counts a symbol, and a valid code has a bit. -/
theorem tableMetricsAreDefined : Obligations.TableMetricsAreDefined := by
  intro s hInv hv
  have hT := hInv.tree (hInv.codesNeedTree hv)
  have hpos := hT.totalCount_pos
  have hle := (hInv.codes hv).totalCount_le_weightedLength hT
  rw [sum_freqOf, sum_freqOf_mul_lenOf]
  refine ⟨hpos, hle, fun b hb => ?_⟩
  have hbits : metricsBits s .table ≠ 0 := by
    rw [metricsBits]
    omega
  exact ⟨_, _, exec_metrics_completes (srcOperand_eq_table.mpr rfl) hb (fun _ => hv) hbits, rfl⟩

/-- Settles O58: n · W · 2^16 and h are far below 2^64, so the registers hold them exactly. -/
theorem metricsComputesRatio : Obligations.MetricsComputesRatio := by
  intro s a b n h hInv hb hne hsource
  obtain ⟨src, ha, hv, rfl, rfl⟩ : ∃ src, srcOperand a = some src ∧ (src = .table → s.codesValid = true) ∧
      n = metricsCount s src ∧ h = metricsBits s src := by
    obtain ⟨ha, hn, hh⟩ | ⟨ha, hv, hn, hh⟩ := hsource
    · exact ⟨.encoder, srcOperand_eq_encoder.mpr ha, nofun, hn, hh⟩
    · exact ⟨.table, srcOperand_eq_table.mpr (BitVec.eq_of_toNat_eq ha), fun _ => hv, hn.trans (sum_freqOf s),
        hh.trans (sum_freqOf_mul_lenOf s)⟩
  have hbits := hInv.metricsBits_lt hv
  have hfixed : metricsCount s src * b.toNat ≤ 2 ^ 32 * 255 := Nat.mul_le_mul (hInv.metricsCount_lt hv).le hb
  have hratio := Nat.div_le_self (metricsCount s src * b.toNat * 2 ^ 16) (metricsBits s src)
  exact ⟨_, exec_metrics_completes ha hb hv hne, Nat.mod_eq_of_lt (by omega), Nat.mod_eq_of_lt (by omega),
    Nat.mod_eq_of_lt (by omega), rfl⟩

/-- Settles O59: CODES_VALID is checked before the totals are computed, and an h of 0 from either source ends alike. -/
theorem metricsUndefinedRatio : Obligations.MetricsUndefinedRatio := by
  intro s a b hb
  have htable (ha : a.toNat = 1) : srcOperand a = some .table := srcOperand_eq_table.mpr (BitVec.eq_of_toNat_eq ha)
  refine ⟨fun ha => exec_metrics_noCodes (htable ha) hb, fun ha hzero => ?_, fun ha hv hzero => ?_⟩
  · have hlt : metricsCount s .encoder * b.toNat ≤ 2 ^ 32 * 255 := Nat.mul_le_mul s.encSymCount.isLt.le hb
    exact ⟨_, exec_metrics_undefined (srcOperand_eq_encoder.mpr ha) hb nofun (congrArg BitVec.toNat hzero),
      Nat.mod_eq_of_lt (by omega), rfl⟩
  · have hbits : weightedLength s.freq s.len = 0 := by
      rw [← sum_freqOf_mul_lenOf, List.map_congr_left fun x _ => hzero x]
      simp
    rw [sum_freqOf]
    exact ⟨_, exec_metrics_undefined (htable ha) hb (fun _ => hv) hbits, rfl, rfl⟩

end Sys2Proof.Machine
end

section
/-! PROOFS. The control commands NOP, CLR_ERR and SOFT_RESET (R115, R117, R118). -/

namespace Sys2Proof.Machine

/-- What the words of a row without operands do: the one legal word runs its command, and every other word with that
OPC is malformed (R68, R69). -/
theorem execWord_of_row_without_operands {w : Command} {i : Instr} {o : Opcode}
    (hrow : opcodeOf (opcField w) = some o) (hA : usesA o = false) (hB : usesB o = false)
    (hi : instrOf 0#16 0#32 o = i) (s : State) :
    (w = encode i → execWord w s = exec i s) ∧ (w ≠ encode i → execWord w s = .next (failed .illegalCommand 2 s)) :=
  ⟨fun hw => execWord_of_decode (decode_eq_ok_iff_encode.mpr hw) s,
    fun hne => execWord_of_illegalWord (illegalWord_of_ne_encode hrow hA hB hi hne) s⟩

/-- Settles O21: NOP writes nothing but its response, and its row uses no operand. -/
theorem nopChangesNothing : Obligations.NopChangesNothing := by
  refine ⟨fun s => complete_answered 0#64 s, fun w hw => ?_⟩
  have hrow : opcodeOf (opcField w) = some .nop := by rw [hw]; rfl
  have hword : encode .nop = 0x0000000000000000#64 := by decide
  rw [← hword]
  exact ⟨decode_eq_ok_iff_encode, illegalWord_of_ne_encode hrow rfl rfl rfl⟩

/-! ### CLR_ERR -/

theorem exec_clrErr (s : State) :
    exec .clrErr s = .next (answered 0#64 { s with lastErr := 0#4, errMask := 0#16 }) :=
  complete_answered 0#64 _

/-- Settles O25: CLR_ERR writes the two bookkeeping registers, its row uses no operand, and the example's BUILD fails
since every count is 0 after reset. -/
theorem clrErrClearsBookkeeping : Obligations.ClrErrClearsBookkeeping := by
  obtain ⟨hfreq, -⟩ := resetStateValues
  refine ⟨exec_clrErr, fun w s hw => ?_, _, _, exec_build_of_freq_zero hfreq, by decide, exec_clrErr _, by decide⟩
  have hrow : opcodeOf (opcField w) = some .clrErr := by rw [hw]; rfl
  have hword : encode .clrErr = 0x0200000000000000#64 := by decide
  rw [← hword]
  exact execWord_of_row_without_operands hrow rfl rfl rfl s

/-! ### SOFT_RESET -/

theorem exec_softReset (s : State) : exec .softReset s = .next (answered 0#64 (softResetState s)) :=
  complete_answered 0#64 _

/-- The response does not touch the counts, and SOFT_RESET has cleared them. -/
theorem freqOf_after_softReset (s : State) (x : Symbol) : freqOf (answered 0#64 (softResetState s)) x = 0#32 :=
  Vector.getElem_replicate x.isLt

/-- Settles O26: every count is 0 and TREE_VALID is 0 after SOFT_RESET, which is all that the example looks at, and
its row uses no operand. -/
theorem softResetGivesResetState : Obligations.SoftResetGivesResetState := by
  refine ⟨fun s => ⟨_, exec_softReset s, rfl, freqOf_after_softReset s, rfl, ?_, ?_⟩, fun w s hw => ?_⟩
  · rw [exec_ftGet (by decide), freqOf_after_softReset]
    rfl
  · obtain ⟨hnoTree, -⟩ := decSymNoTreeAndEnd (answered 0#64 (softResetState s))
    exact hnoTree rfl
  · have hrow : opcodeOf (opcField w) = some .softReset := by rw [hw]; rfl
    have hword : encode .softReset = 0x0300000000000000#64 := by decide
    rw [← hword]
    exact execWord_of_row_without_operands hrow rfl rfl rfl s

end Sys2Proof.Machine
end

section
/-! PROOFS. The error bookkeeping of every accepted word (R121). -/

namespace Sys2Proof.Machine

section
variable {s t : State} {e : Status} {d : BitVec 64}

/-! ### How a word ends -/

/-- The execution of a word that ends is ILLEGAL_COMMAND or that of the command it decodes to (R69, R70). -/
theorem execWord_next_cases {w : Command} (h : execWord w s = .next t) :
    t = failed .illegalCommand 2 s ∨ ∃ i, decode w = .ok i ∧ exec i s = .next t := by
  obtain ⟨_, -, hw⟩ | ⟨i, hi, hw⟩ := execWord_cases w s
  · rw [hw, raise_failed] at h
    exact .inl (Host.Outcome.next.inj h).symm
  · exact .inr ⟨i, hi, hw ▸ h⟩

theorem status_eq_of_failed {e' : Status} {code : Nat} (hp : (failed e' code s).port = .respond ⟨e, d⟩) : e' = e :=
  (Response.mk.inj (Port.respond.inj hp)).1

/-! ### An error status -/

/-- `failed` does the bookkeeping of `bookError`, so that the rules about `bookError` apply to it. -/
theorem failed_eq_respond_bookError (e : Status) (s : State) :
    failed e (statusCode e).toNat s = respond e 0#64 (bookError e s) :=
  Host.Outcome.next.inj (raise_failed e s).symm

/-- The bit of ERR_MASK for a status is the one at its code (R28). -/
theorem getLsbD_errBit {k : Nat} (hk : k < 16) (e : Status) :
    (errBit e).getLsbD k = decide (k = (statusCode e).toNat) := by
  rw [errBit, ← BitVec.twoPow_eq, BitVec.getLsbD_twoPow, Bool.eq_iff_iff]
  simp only [Bool.and_eq_true, decide_eq_true_eq]
  omega

/-- A command that ends with an error books it, METRICS with RATIO_UNDEFINED as well (R112). -/
theorem exec_books_error {i : Instr} (h : exec i s = .next t) (hp : t.port = .respond ⟨e, d⟩)
    (he : isError e = true) : t.lastErr = statusCode e ∧ t.errMask = s.errMask ||| errBit e := by
  obtain ⟨-, rfl⟩ | ⟨rfl, a, b, fixed, -, rfl⟩ := exec_error_cases h hp he
  · simp [failed_eq_respond_bookError]
  · exact ⟨rfl, rfl⟩

/-- A word that ends with an error books it, whether it decodes to a command or not. -/
theorem execWord_books_error {w : Command} (h : execWord w s = .next t) (hp : t.port = .respond ⟨e, d⟩)
    (he : isError e = true) : t.lastErr = statusCode e ∧ t.errMask = s.errMask ||| errBit e := by
  obtain rfl | ⟨i, -, hi⟩ := execWord_next_cases h
  · obtain rfl := status_eq_of_failed hp
    exact ⟨rfl, rfl⟩
  · exact exec_books_error hi hp he

/-! ### A status of 0 or 1 -/

/-- Of the commands that complete, CLR_ERR and SOFT_RESET alone write the bookkeeping. -/
theorem Completes.keeps_bookkeeping {i : Instr} {u : State} (hC : Completes i s u) (hclr : i ≠ .clrErr)
    (hsoft : i ≠ .softReset) : u.lastErr = s.lastErr ∧ u.errMask = s.errMask := by
  cases hC with
  | clrErr => exact absurd rfl hclr
  | softReset => exact absurd rfl hsoft
  | encSym => simp [encSymState]
  | reads | ftClear | ftSet | build | genCodes | encReset | bbWrite | bbSetLen | decReset | decSym | metrics =>
    exact ⟨rfl, rfl⟩

/-- A command that ends with OK or END_OF_STREAM does no bookkeeping. -/
theorem exec_keeps_bookkeeping {i : Instr} (h : exec i s = .next t) (hp : t.port = .respond ⟨e, d⟩)
    (he : isError e = false) (hclr : i ≠ .clrErr) (hsoft : i ≠ .softReset) :
    t.lastErr = s.lastErr ∧ t.errMask = s.errMask := by
  obtain ⟨_, u, hC, rfl⟩ | ⟨-, rfl⟩ | ⟨e', he', rfl⟩ | ⟨a, b, fixed, -, rfl⟩ := exec_next_states h
  · exact hC.keeps_bookkeeping hclr hsoft
  · exact ⟨rfl, rfl⟩
  · obtain rfl := status_eq_of_failed hp
    exact absurd (isError_of_mem_plainErrors he') (by simp [he])
  · obtain rfl := status_eq_of_failed hp
    cases he

/-- A word that ends with OK or END_OF_STREAM decodes to a command, so no bookkeeping is done but that of CLR_ERR and
SOFT_RESET. -/
theorem execWord_keeps_bookkeeping {w : Command} (h : execWord w s = .next t) (hp : t.port = .respond ⟨e, d⟩)
    (he : isError e = false) (hclr : decode w ≠ .ok .clrErr) (hsoft : decode w ≠ .ok .softReset) :
    t.lastErr = s.lastErr ∧ t.errMask = s.errMask := by
  obtain rfl | ⟨i, hi, hexec⟩ := execWord_next_cases h
  · obtain rfl := status_eq_of_failed hp
    cases he
  · exact exec_keeps_bookkeeping hexec hp he (fun hc => hclr (hc ▸ hi)) (fun hc => hsoft (hc ▸ hi))

end

/-- Settles O14: an error of a command or of an illegal word sets its code and the bit at it, and a word that ends
without one runs a command whose writes are those of `Completes`. -/
theorem errorBookkeeping : Obligations.ErrorBookkeeping := by
  refine fun w s t e d h hp => ⟨fun he => ?_, fun he =>
    execWord_keeps_bookkeeping h hp (decide_eq_false (Nat.not_le.mpr he))⟩
  obtain ⟨hlast, hmask⟩ := execWord_books_error h hp (decide_eq_true he)
  exact ⟨hlast, fun k hk => by rw [hmask, BitVec.getLsbD_or, getLsbD_errBit hk]⟩

end Sys2Proof.Machine
end

section
/-! PROOFS. A step with rst_n = 0 (R134, R136). -/

namespace Sys2Proof.Machine

/-- With rst_n = 0 the port is neither ready for a command nor does it offer a response (R134). -/
theorem outputs_of_reset {s : State} (hr : (pinsNow s).rstN = false) : cmdReady s = false ∧ rspValid s = false :=
  ⟨by simp [← Bool.not_eq_true, cmdReady_iff, hr], by simp [← Bool.not_eq_true, rspValid_iff, hr]⟩

theorem freqOf_resetStep (s : State) (x : Symbol) : freqOf (resetStep s) x = 0#32 :=
  Vector.getElem_replicate x.isLt

/-- Settles O9: the step is `resetStep`, which takes its registers from `State.resetFor` and no word of BITBUF. -/
theorem resetStepGivesResetState : Obligations.ResetStepGivesResetState := by
  intro s hr
  obtain ⟨hcmd, hrsp⟩ := outputs_of_reset hr
  exact ⟨hcmd, hrsp, _, step_of_reset hr, freqOf_resetStep s, rfl, rfl, rfl, rfl, rfl, rfl, rfl, rfl, rfl, rfl, rfl,
    rfl, rfl, rfl, rfl, rfl, rfl, rfl, rfl, rfl, rfl, rfl, fun _ => rfl⟩

end Sys2Proof.Machine
end
